-- ==== Sys2Proof/Word.lean ====
section
/-! DEFINITION. The words of VPSB (20_memory.md R60, R63; 30_encoding.md R90). -/

namespace Sys2Proof

/-- A 16-bit word: a command word (R90), or a two's-complement sample (R63, R99). -/
abbrev Word := BitVec 16

/-- An 8-bit operand or key code (R93, R97). -/
abbrev Byte := BitVec 8

/-- A 32-bit output pair word, left sample in bits 15..0 and right sample in bits 31..16 (R98). -/
abbrev Pair := BitVec 32

/-- A note index 0..12 (R9, R120). -/
abbrev Note := Fin 13

end Sys2Proof
end

