-- ==== Sys2Proof/Machine/Act.lean ====
section
/-! DEFINITION. The atomic steps of the agents A, W, C and S, and the host's liberties
(00_scope.md R12, R13; 30_encoding.md R103; 60_exceptions.md R275). -/

namespace Sys2Proof.Machine

/-- The three clock domains (10_state.md R20; 70_reset_and_hazards.md R290). -/
inductive Domain where
  | audio
  | producer
  | control
  deriving DecidableEq, Repr, Inhabited

/-- One atomic step of an agent, or one liberty of the host. -/
inductive Act where
  /-- `A STEP` (44_output_and_step.md R220). -/
  | aStep
  /-- `W PUSH`: takes the sample the producer presents (43_stream_bridge.md R196). -/
  | wPush
  /-- `W DUP` (43_stream_bridge.md R197). -/
  | wDup
  /-- `C <command>`: takes the word the control plane presents (45_control_port.md R240). -/
  | cWrite
  /-- `C READ a`: a status read at `csr_addr = a` (45_control_port.md R247). -/
  | cRead (a : BitVec 2)
  /-- `S WR` (43_stream_bridge.md R200). -/
  | syncWr
  /-- `S RD` (43_stream_bridge.md R200). -/
  | syncRd
  /-- `S CW` (45_control_port.md R244). -/
  | syncCw
  /-- `S CR` (45_control_port.md R244). -/
  | syncCr
  /-- `S ACT` (45_control_port.md R244). -/
  | syncAct
  /-- H: the control plane presents a command word (R275; `cmd_valid`, `cmd_data` of R241). -/
  | presentCmd (w : Word)
  /-- H: the producer presents a sample (R275; `in_valid`, `in_data` of 43_stream_bridge.md R191). -/
  | presentSample (x : Word)
  /-- H: the sink sets the level of `out_ready` (44_output_and_step.md R226). -/
  | sinkReady (ready : Bool)
  /-- H: all three reset inputs are asserted together (70_reset_and_hazards.md R290). -/
  | assertReset
  /-- H: the reset input of one domain is released (70_reset_and_hazards.md R290). -/
  | releaseReset (d : Domain)
  deriving DecidableEq, Repr, Inhabited

end Sys2Proof.Machine
end

