-- ==== Sys2Proof/Config.lean ====
section
/-! DEFINITION. The configuration record `Cfg` (00_scope.md R7) and the free values: the contents of an
entry of RING or CMDQ that nothing has written (10_state.md R40) and the next step of a schedule that
nothing has fixed (00_scope.md R12). -/

namespace Sys2Proof

/-- The configuration record of R7. `NOTES` = 13 and `UPSAMPLE` = 2 are fixed and no part of it (R9). `WT_LEN`
is the length of `wt`. -/
structure Cfg where
  /-- `N_VOICES`. -/
  nVoices : Nat
  /-- `FS`, used only to compute default tables. -/
  fs : Nat
  /-- `ATTACK_SAMPLES` (A). -/
  attack : Nat
  /-- `DECAY_SAMPLES` (D). -/
  decay : Nat
  /-- `RELEASE_SAMPLES` (R). -/
  release : Nat
  /-- `SUS_LEVEL` (S), Q1.15. -/
  sus : Nat
  /-- `WT[0..WT_LEN-1]`, signed. -/
  wt : List Word
  /-- `NOTE_INC[0..12]`, 16.16. -/
  noteInc : List (BitVec 32)
  /-- `PRESS_CODE[0..12]`. -/
  pressCode : List Byte
  /-- `RELEASE_MASK`. -/
  releaseMask : Byte
  /-- `ALPHA`, Q0.16. -/
  alpha : Nat
  /-- `NORM_LUT[1..N_VOICES]`, Q1.24; the entry for `n` voices stands at place `n - 1`. -/
  normLut : List (BitVec 25)
  /-- `RING_CAP` (C). -/
  ringCap : Nat
  /-- `CMD_DEPTH` (Q). -/
  cmdDepth : Nat
  /-- `BGM_GAIN`, Q1.15. -/
  bgmGain : Nat
  /-- `MVOL_RESET`. -/
  mvolReset : Nat
  /-- `SYNC_STAGES`; no rule reads it. -/
  syncStages : Nat
  deriving DecidableEq, Repr

/-- `WT_LEN` (L) of R7. -/
def Cfg.wtLen (c : Cfg) : Nat := c.wt.length

/-- What the entry `i` of RING holds after the reset number `epoch` and before its first write: any value
(10_state.md R40, 70_reset_and_hazards.md R293; log 8). A free value: it has no body. -/
opaque Config.freeRing : Nat → Nat → Word

/-- What the entry `i` of CMDQ holds after the reset number `epoch` and before its first write: any value
(10_state.md R40, 70_reset_and_hazards.md R293; log 8). A free value: it has no body. -/
opaque Config.freeCmd : Nat → Nat → Word

/-- Which step is taken next where no schedule fixes it: the order between agents is free (00_scope.md R12;
log 3). A free value: it has no body. -/
opaque Config.freeAct : Nat → Machine.Act

end Sys2Proof
end

