-- ==== Sys2Proof/Machine/Defaults.lean ====
section
/-! DEFINITION. The default configuration of 00_scope.md R7, with the tables of 40_notetable_wavetable.md R125 and
R129 and of 95_test_vectors.md 2.6, and what a builder of configurations uses (R159, R121, R124). -/

namespace Sys2Proof

/-- The default `NOTE_INC` of R125. -/
def defaultNoteInc : List (BitVec 32) :=
  [99532, 105450, 111721, 118364, 125402, 132859, 140759,
   149129, 157997, 167392, 177345, 187891, 199063]

/-- The default `PRESS_CODE` of R125. -/
def defaultPressCode : List Byte :=
  [0x1E, 0x11, 0x1F, 0x12, 0x20, 0x21, 0x14, 0x22, 0x15, 0x23, 0x16, 0x24, 0x25]

/-- The default wavetable of R129, one cycle of a sine, as data. -/
def defaultWt : List Word :=
  List.map (BitVec.ofInt 16) (
    [0, 804, 1608, 2410, 3212, 4011, 4808, 5602, 6393, 7179, 7962, 8739, 9512, 10278, 11039, 11793] ++
    [12539, 13279, 14010, 14732, 15446, 16151, 16846, 17530, 18204, 18868, 19519, 20159, 20787, 21403, 22005, 22594] ++
    [23170, 23731, 24279, 24811, 25329, 25832, 26319, 26790, 27245, 27683, 28105, 28510, 28898, 29268, 29621, 29956] ++
    [30273, 30571, 30852, 31113, 31356, 31580, 31785, 31971, 32137, 32285, 32412, 32521, 32609, 32678, 32728, 32757] ++
    [32767, 32757, 32728, 32678, 32609, 32521, 32412, 32285, 32137, 31971, 31785, 31580, 31356, 31113, 30852, 30571] ++
    [30273, 29956, 29621, 29268, 28898, 28510, 28105, 27683, 27245, 26790, 26319, 25832, 25329, 24811, 24279, 23731] ++
    [23170, 22594, 22005, 21403, 20787, 20159, 19519, 18868, 18204, 17530, 16846, 16151, 15446, 14732, 14010, 13279] ++
    [12539, 11793, 11039, 10278, 9512, 8739, 7962, 7179, 6393, 5602, 4808, 4011, 3212, 2410, 1608, 804] ++
    [0, -804, -1608, -2410, -3212, -4011, -4808, -5602, -6393, -7179, -7962, -8739, -9512, -10278, -11039, -11793] ++
    [-12539, -13279, -14010, -14732, -15446, -16151, -16846, -17530, -18204, -18868, -19519, -20159, -20787, -21403, -22005, -22594] ++
    [-23170, -23731, -24279, -24811, -25329, -25832, -26319, -26790, -27245, -27683, -28105, -28510, -28898, -29268, -29621, -29956] ++
    [-30273, -30571, -30852, -31113, -31356, -31580, -31785, -31971, -32137, -32285, -32412, -32521, -32609, -32678, -32728, -32757] ++
    [-32767, -32757, -32728, -32678, -32609, -32521, -32412, -32285, -32137, -31971, -31785, -31580, -31356, -31113, -30852, -30571] ++
    [-30273, -29956, -29621, -29268, -28898, -28510, -28105, -27683, -27245, -26790, -26319, -25832, -25329, -24811, -24279, -23731] ++
    [-23170, -22594, -22005, -21403, -20787, -20159, -19519, -18868, -18204, -17530, -16846, -16151, -15446, -14732, -14010, -13279] ++
    [-12539, -11793, -11039, -10278, -9512, -8739, -7962, -7179, -6393, -5602, -4808, -4011, -3212, -2410, -1608, -804])

/-- `round(2^24 / sqrt n)` for n = 1 to 16 (95_test_vectors.md 2.6). -/
def normTargets : List (BitVec 25) :=
  [16777216, 11863283, 9686330, 8388608, 7502999, 6849270, 6341192, 5931642,
   5592405, 5305422, 5058521, 4843165, 4653163, 4483900, 4331859, 4194304]

/-- The default configuration (00_scope.md R7; DEF of 95_test_vectors.md section 0). -/
def defaultCfg : Cfg where
  nVoices := 8
  fs := 44100
  attack := 220
  decay := 4410
  release := 8820
  sus := 22938
  wt := defaultWt
  noteInc := defaultNoteInc
  pressCode := defaultPressCode
  releaseMask := 0x80
  alpha := 655
  normLut := normTargets.take 8
  ringCap := 1024
  cmdDepth := 16
  bgmGain := 16384
  mvolReset := 100
  syncStages := 2

/-- The number of samples of a time of `num / den` seconds, `floor(t * FS)` (41_voice_pool_adsr.md R159). A
count of 0 is ill formed (R8). -/
def segmentSamples (num den fs : Nat) : Nat := num * fs / den

/-- The release code of note `n`: its press code with the release bit set (R121). -/
def releaseCode (c : Cfg) (n : Note) : Byte := c.pressCode.getD n.val 0 ||| c.releaseMask

/-- The black keys of the default table (R124): display data, no rule of the block reads it. -/
def defaultBlack (n : Note) : Bool := [1, 3, 6, 8, 10].contains n.val

end Sys2Proof
end

