-- ==== Sys2Proof/Machine/State.lean ====
section
/-! DEFINITION. The state of VPSB (10_state.md R20 to R34, R40), the reasons a step can stop, and the state
after reset. Plain data throughout. -/

namespace Sys2Proof.Machine

/-- The five envelope states (R23). The codes 5, 6 and 7 are not representable (log 18). -/
inductive EnvState where
  | idle
  | attack
  | decay
  | sustain
  | release
  deriving DecidableEq, Repr, Inhabited

/-- One voice register set (R21). `NONE` is `none`; the codes 13 and 14 are not representable (R22; log 18). -/
structure Voice where
  /-- The note held, or `NONE` (R22). -/
  note : Option Note
  /-- The envelope state (R23). -/
  st : EnvState
  /-- The envelope level, Q1.15 (R24). -/
  lev : BitVec 16
  /-- The envelope timer (R25). -/
  tmr : BitVec 24
  /-- The phase position, 16.16 (R26). -/
  pos : BitVec 32
  /-- The phase increment, 16.16 (R27). -/
  inc : BitVec 32
  /-- Whether the key is held (R28). -/
  held : Bool
  deriving DecidableEq, Repr, Inhabited

/-- A voice after reset (R40). -/
def Voice.reset : Voice :=
  { note := none, st := .idle, lev := 0, tmr := 0, pos := 0, inc := 0, held := false }

/-- A memory of 16-bit entries: the entries that hold a value, index and value, indices strictly rising. An
index that is not listed holds no value (log 8, 9). -/
abbrev Memory := List (Nat × Word)

/-- The one canonical form of a memory: indices strictly rising. No listed entry equals what an unlisted index
holds, which is no value. -/
abbrev Memory.wf (m : Memory) : Prop := m.Pairwise (fun x y => x.1 < y.1)

/-- The model events of 60_exceptions.md R261. The hardware records nothing; codes 1 to 6 carry the command word,
code 7 the dropped sample. -/
inductive Event where
  | noteRange (cmd : Word)
  | poolFull (cmd : Word)
  | noteNotSounding (cmd : Word)
  | keyUnmapped (cmd : Word)
  | rsvdCmd (cmd : Word)
  | mvolRange (cmd : Word)
  | ringFull (x : Word)
  | ringEmpty
  deriving DecidableEq, Repr

/-- One turn of the schedule: an atomic step, or one of the two runs that R270 refuses unless reset makes
them harmless. -/
inductive Turn where
  /-- A step of an agent or a liberty of the host. -/
  | act (a : Act)
  /-- The reset input of one domain is asserted by itself (70_reset_and_hazards.md R292). -/
  | assertOne (d : Domain)
  /-- The integrator chooses a configuration (70_reset_and_hazards.md R294, R297). -/
  | changeConfig (c : Cfg)
  deriving DecidableEq, Repr

/-- The stored results that the model asserts to fit their width (00_scope.md R10). -/
inductive Stored where
  | lev
  | tmr
  | pos
  | norm
  deriving DecidableEq, Repr

/-- Why the machine stops with a fault. -/
inductive Fault where
  /-- A result does not fit the width of the register it is stored in. Raised by `A STEP` (the envelope step,
  the phase advance, the normalisation update) as the assertion of 00_scope.md R10; no state a run reaches
  raises it. SAFE: the machine stops where the hardware's behaviour is not given. -/
  | doesNotFit (r : Stored)
  deriving DecidableEq, Repr

/-- Why a step has no meaning. -/
inductive Refusal where
  /-- An instruction without a meaning in this model. Raised by no arm of `exec`. SAFE. -/
  | notModelled (mnemonic : String)
  /-- The configuration chosen is not well formed (00_scope.md R8, 60_exceptions.md R270). Raised by the turn
  `changeConfig`. SAFE. -/
  | illFormedConfig
  /-- One domain is reset while another runs (70_reset_and_hazards.md R292, 60_exceptions.md R270). Raised by the
  turn `assertOne`. SAFE. -/
  | partialReset
  /-- The configuration changes between reset release and the next reset (70_reset_and_hazards.md R297,
  60_exceptions.md R270). Raised by the turn `changeConfig`. SAFE. -/
  | configChangeInRun
  deriving DecidableEq, Repr

/-- The whole state. The groups follow R20: configuration, audio domain, producer domain, control domain,
memories, reset inputs, port inputs, the schedule, and the histories, which no step reads. -/
structure State where
  /-- The configuration, written by no agent's step (R35). -/
  cfg : Cfg
  /-- The voice pool `v[0]` .. `v[N_VOICES-1]` (R21). -/
  voices : List Voice
  /-- `NORM`, Q1.24 (R30). -/
  norm : BitVec 25
  /-- `MVOL`, 0 to 100 (R30). -/
  mvol : BitVec 7
  /-- `ACT_NOTES` (R30). -/
  actNotes : BitVec 13
  /-- `rd`, the bridge read cursor (R31). -/
  rd : Nat
  /-- `wr_s`, the audio domain's copy of `wr` (R31). -/
  wrS : Nat
  /-- `cr`, the inbox read pointer (R32), the analogue of a program counter (R36). -/
  cr : Nat
  /-- `cw_s`, the audio domain's copy of `cw` (R32). -/
  cwS : Nat
  /-- `wr`, the bridge write cursor (R31). -/
  wr : Nat
  /-- `rd_s`, the producer domain's copy of `rd` (R31). -/
  rdS : Nat
  /-- `dup_v`: the second copy of a pushed sample is pending (R31). -/
  dupV : Bool
  /-- `dup_x`: the pending sample (R31). -/
  dupX : Word
  /-- `cw`, the inbox write pointer (R32). -/
  cw : Nat
  /-- `cr_s`, the control domain's copy of `cr` (R32). -/
  crS : Nat
  /-- `ACT_S`, the control domain's snapshot of `ACT_NOTES` (R32). -/
  actS : BitVec 13
  /-- `RING` (R33). -/
  ring : Memory
  /-- `CMDQ` (R34). -/
  cmdq : Memory
  /-- `rst_a_n` is asserted (70_reset_and_hazards.md R290). -/
  rstA : Bool
  /-- `rst_w_n` is asserted (70_reset_and_hazards.md R290). -/
  rstW : Bool
  /-- `rst_c_n` is asserted (70_reset_and_hazards.md R290). -/
  rstC : Bool
  /-- The command words the control plane presents, oldest first (45_control_port.md R241; log 4). -/
  cmdIn : List Word
  /-- The samples the producer presents, oldest first (43_stream_bridge.md R191; log 4). -/
  sampIn : List Word
  /-- The level of `out_ready` (44_output_and_step.md R226; log 5). -/
  outReady : Bool
  /-- The turns that the schedule fixes, next first (00_scope.md R12; log 2). -/
  sched : List Turn
  /-- How many free choices of a step have been taken (log 3). -/
  choice : Nat
  /-- How many resets have been asserted (log 8). -/
  epoch : Nat
  /-- The pair words emitted, oldest first (R41, 44_output_and_step.md R226). -/
  emitted : List Pair
  /-- The values returned by status reads, oldest first (R41, 45_control_port.md R247). -/
  reads : List Word
  /-- The model events, oldest first (60_exceptions.md R261). -/
  events : List Event
  /-- The element writes accepted since reset (20_memory.md R71: `nW` of them). -/
  accepted : List Word
  /-- The data-returning pops since reset (20_memory.md R71: `nR` of them). -/
  popped : List Word
  /-- The command words written since reset (20_memory.md R72). -/
  cmdWritten : List Word
  /-- The command words applied since reset (20_memory.md R72). -/
  cmdApplied : List Word
  deriving DecidableEq, Repr

/-- The state at the release of reset, for a configuration (R40). `dup_x` is unspecified there; the model names
0 (log 7). -/
def State.resetWith (c : Cfg) : State where
  cfg := c
  voices := List.replicate c.nVoices Voice.reset
  norm := BitVec.ofNat 25 (2 ^ 24)
  mvol := BitVec.ofNat 7 c.mvolReset
  actNotes := 0
  rd := 0
  wrS := 0
  cr := 0
  cwS := 0
  wr := 0
  rdS := 0
  dupV := false
  dupX := 0
  cw := 0
  crS := 0
  actS := 0
  ring := []
  cmdq := []
  rstA := false
  rstW := false
  rstC := false
  cmdIn := []
  sampIn := []
  outReady := true
  sched := []
  choice := 0
  epoch := 0
  emitted := []
  reads := []
  events := []
  accepted := []
  popped := []
  cmdWritten := []
  cmdApplied := []

/-- The machine right after reset, with the default configuration (R40, 00_scope.md R7). -/
def State.reset : State := State.resetWith defaultCfg

end Sys2Proof.Machine
end

