-- ==== Sys2Proof/Machine/Flags.lean ====
section
/-! DEFINITION. The status conditions (10_state.md R37) and the ready signals (R41). VPSB has no condition-code
register: each is computed from the state. -/

namespace Sys2Proof.Machine

/-- Bridge full, as W sees it (43_stream_bridge.md R194). -/
def fullW (s : State) : Bool := (s.wr + 1) % s.cfg.ringCap == s.rdS

/-- Bridge empty, as A sees it (43_stream_bridge.md R194). -/
def emptyA (s : State) : Bool := s.rd == s.wrS

/-- Inbox full, as C sees it (10_state.md R37). -/
def inboxFull (s : State) : Bool := (s.cw + 1) % s.cfg.cmdDepth == s.crS

/-- Inbox non-empty, as A sees it (10_state.md R37). -/
def inboxPending (s : State) : Bool := s.cr != s.cwS

/-- Some reset input is asserted: no agent steps (70_reset_and_hazards.md R290; log 14). -/
def inReset (s : State) : Bool := s.rstA || s.rstW || s.rstC

/-- `cmd_ready` (45_control_port.md R241); 0 while reset is asserted (70_reset_and_hazards.md R290). -/
def cmdReady (s : State) : Bool := !inReset s && !inboxFull s

/-- `in_ready` (43_stream_bridge.md R191); 0 while reset is asserted (70_reset_and_hazards.md R290). -/
def inReady (s : State) : Bool := !inReset s && !s.dupV

/-- `out_valid`: always 1 outside reset (44_output_and_step.md R226, 70_reset_and_hazards.md R290). -/
def outValid (s : State) : Bool := !inReset s

/-- The reset input of one domain is asserted (70_reset_and_hazards.md R290). -/
def rstLine (s : State) : Domain → Bool
  | .audio => s.rstA
  | .producer => s.rstW
  | .control => s.rstC

/-- The number of voices that are not Idle (42_synth_mix.md R170). -/
def activeCount (vs : List Voice) : Nat := vs.countP (fun v => v.st != .idle)

/-- The bit of `act_mask()` that one voice sets: its note's, unless it is Idle (45_control_port.md R246). -/
def voiceMask (v : Voice) : BitVec 13 :=
  match v.note with
  | some n => if v.st = .idle then 0 else BitVec.twoPow 13 n.val
  | none => 0

/-- `act_mask()`: bit `n` is set iff some non-Idle voice holds note `n` (45_control_port.md R246). -/
def actMask : List Voice → BitVec 13
  | [] => 0
  | v :: vs => voiceMask v ||| actMask vs

/-- `CSR(a)`: address 0 is `ACTIVE_NOTES`, addresses 1 to 3 read 0 (45_control_port.md R248, 30_encoding.md
R100). -/
def csr (s : State) (a : BitVec 2) : Word := if a = 0 then s.actS.setWidth 16 else 0

end Sys2Proof.Machine
end

