-- ==== Sys2Proof/Machine/Operands.lean ====
section
/-! DEFINITION. The operand forms: a note index, a volume, a key code (30_encoding.md R93, R97), the key lookup
(40_notetable_wavetable.md R122), and the codes of the two encoded voice fields (10_state.md R22, R23). -/

namespace Sys2Proof.Machine

/-- The note index of an operand: 0..12, or none for 13..255 (30_encoding.md R93). -/
def noteOperand (n : Byte) : Option Note := if h : n.toNat < 13 then some ⟨n.toNat, h⟩ else none

/-- The volume of an operand: 0..100, or none for 101..255 (30_encoding.md R93). -/
def volumeOperand (v : Byte) : Option (BitVec 7) := if v.toNat ≤ 100 then some (v.setWidth 7) else none

/-- The release bit of a key code is set (30_encoding.md R97). -/
def isRelease (c : Cfg) (code : Byte) : Bool := code &&& c.releaseMask != 0

/-- The press code of a key code: the code with the release bit stripped (30_encoding.md R97). -/
def pressOf (c : Cfg) (code : Byte) : Byte := code &&& ~~~ c.releaseMask

/-- The note indices in ascending order. -/
def allNotes : List Note := [0, 1, 2, 3, 4, 5, 6, 7, 8, 9, 10, 11, 12]

/-- `lookup(code)`: the least note whose press code is the code with the release bit stripped, or not found
(40_notetable_wavetable.md R122). -/
def lookup (c : Cfg) (code : Byte) : Option Note :=
  allNotes.find? (fun n => c.pressCode[n.val]? == some (pressOf c code))

/-- The 4-bit code of a voice's note field; `NONE` is 0xF (10_state.md R22). -/
def noteCode : Option Note → BitVec 4
  | none => 0xF
  | some n => BitVec.ofNat 4 n.val

/-- The 3-bit code of a voice's envelope state (10_state.md R23). -/
def stateCode : EnvState → BitVec 3
  | .idle => 0
  | .attack => 1
  | .decay => 2
  | .sustain => 3
  | .release => 4

/-- The code of a model event (60_exceptions.md R261). -/
def eventCode : Event → Nat
  | .noteRange _ => 1
  | .poolFull _ => 2
  | .noteNotSounding _ => 3
  | .keyUnmapped _ => 4
  | .rsvdCmd _ => 5
  | .mvolRange _ => 6
  | .ringFull _ => 7
  | .ringEmpty => 8

end Sys2Proof.Machine
end

