-- ==== Sys2Proof/Machine/Ops.lean ====
section
/-! DEFINITION. The named operations over the memories, the voices and the event history that the meanings share.
VPSB takes no exception and returns from none (60_exceptions.md R260, R273): the one shared operation of an
abnormal condition is `logEvent`, which records the model event of R261 and changes nothing else. -/

namespace Sys2Proof.Machine

/-- The value an entry holds, or none where nothing has been written (10_state.md R33, R34; log 8). -/
def memGet : Memory → Nat → Option Word
  | [], _ => none
  | (k, x) :: m, i => if k = i then some x else memGet m i

/-- Write one whole entry (20_memory.md R64, R65), keeping the indices strictly rising. -/
def memPut : Memory → Nat → Word → Memory
  | [], i, x => [(i, x)]
  | (k, y) :: m, i, x =>
    if i < k then (i, x) :: (k, y) :: m
    else if i = k then (i, x) :: m
    else (k, y) :: memPut m i x

/-- `MemRead(RING, i)` (00_scope.md R11). An entry that nothing has written reads as a free value (log 8). -/
def ringRead (s : State) (i : Nat) : Word := (memGet s.ring i).getD (Config.freeRing s.epoch i)

/-- `MemRead(CMDQ, i)` (00_scope.md R11). An entry that nothing has written reads as a free value (log 8). -/
def cmdRead (s : State) (i : Nat) : Word := (memGet s.cmdq i).getD (Config.freeCmd s.epoch i)

/-- `event E` (00_scope.md R11): the model event is recorded, the machine goes on. -/
def logEvent (s : State) (e : Event) : State := { s with events := s.events ++ [e] }

/-- `find(n)`: the least voice whose note is `n`, or not found (41_voice_pool_adsr.md R147). -/
def findVoice (vs : List Voice) (n : Note) : Option Nat := vs.findIdx? (fun v => v.note == some n)

/-- The least Idle voice, or none (41_voice_pool_adsr.md R140). -/
def firstIdle (vs : List Voice) : Option Nat := vs.findIdx? (fun v => v.st == .idle)

/-- `retrigger(i)`: the voice's note and increment are kept (41_voice_pool_adsr.md R141). -/
def retrigger (v : Voice) : Voice :=
  { v with pos := 0, st := .attack, tmr := 0, lev := 0, held := true }

/-- `allocate(i, n)` (41_voice_pool_adsr.md R142). -/
def allocate (c : Cfg) (n : Note) (_ : Voice) : Voice :=
  { note := some n, inc := c.noteInc.getD n.val 0, pos := 0, st := .attack, tmr := 0, lev := 0, held := true }

/-- `v[i].held <- 0` (41_voice_pool_adsr.md R145). -/
def letGo (v : Voice) : Voice := { v with held := false }

/-- NOTE_ON of a note in range, for the command word `cmd` (41_voice_pool_adsr.md R140, R143): a voice that holds
the note is retriggered, else the least Idle voice is allocated, else the note is dropped. -/
def noteOnIndex (cmd : Word) (n : Note) (s : State) : State :=
  match findVoice s.voices n with
  | some i => { s with voices := s.voices.modify i retrigger }
  | none =>
    match firstIdle s.voices with
    | some i => { s with voices := s.voices.modify i (allocate s.cfg n) }
    | none => logEvent s (.poolFull cmd)

/-- NOTE_OFF of a note in range, for the command word `cmd` (41_voice_pool_adsr.md R145). -/
def noteOffIndex (cmd : Word) (n : Note) (s : State) : State :=
  match findVoice s.voices n with
  | some i => { s with voices := s.voices.modify i letGo }
  | none => logEvent s (.noteNotSounding cmd)

/-- A reserved word: event `E_RSVD_CMD`, no state changes (45_control_port.md R249). -/
def consumeReserved (cmd : Word) (s : State) : State := logEvent s (.rsvdCmd cmd)

/-- One step after another, the second only where the first gives a next state. -/
def andThen (o : Host.Outcome State Fault Refusal) (f : State → Host.Outcome State Fault Refusal) :
    Host.Outcome State Fault Refusal :=
  match o with
  | .next t => f t
  | .fault r => .fault r
  | .refused r => .refused r

end Sys2Proof.Machine
end

