-- ==== Sys2Proof/Machine/Bridge.lean ====
section
/-! DEFINITION. The StreamBridge: the producer's push and duplicate steps, the pop and the two copy steps
(43_stream_bridge.md R194 to R202). -/

namespace Sys2Proof.Machine

/-- `elem_write(x)` (R195): dropped when W sees the ring full, `E_RING_FULL`. -/
def elemWrite (x : Word) (s : State) : State :=
  if fullW s then logEvent s (.ringFull x)
  else { s with
    ring := memPut s.ring s.wr x
    wr := (s.wr + 1) % s.cfg.ringCap
    accepted := s.accepted ++ [x] }

/-- `W PUSH x` (R196): the first copy; `dup_x` and `dup_v` are written whether or not it is accepted. -/
def wPush (x : Word) (s : State) : State := { elemWrite x s with dupX := x, dupV := true }

/-- `W DUP` (R197): the second copy, with a full test of its own. `dup_x` keeps its sample, as R197's pseudocode and
95_test_vectors.md P2 have it, although 93_implementation_defined.md lists it as any value while `dup_v` is 0 (DEDUCED,
log 29). -/
def wDup (s : State) : State := { elemWrite s.dupX s with dupV := false }

/-- `pop()` (R198): silence, the value 0, when A sees the ring empty, `E_RING_EMPTY`. -/
def pop (s : State) : Word × State :=
  if emptyA s then (0, logEvent s .ringEmpty)
  else
    (ringRead s s.rd,
      { s with rd := (s.rd + 1) % s.cfg.ringCap, popped := s.popped ++ [ringRead s s.rd] })

/-- `S WR` (R200). -/
def syncWr (s : State) : State := { s with wrS := s.wr }

/-- `S RD` (R200). -/
def syncRd (s : State) : State := { s with rdS := s.rd }

end Sys2Proof.Machine
end

