-- ==== Sys2Proof/Syntax.lean ====
section
/-! DEFINITION. The command words as syntax: one constructor for each row of spec/opcode_table.json
(30_encoding.md R92). Ignored fields are kept, so that no bit of a word is lost (log 17). -/

namespace Sys2Proof

/-- A decoded command word (30_encoding.md R90 to R96). -/
inductive Instr where
  /-- `NOP`: OP 0x0; RSV and ARG are ignored (R94, R245). -/
  | nop (rsv : BitVec 4) (arg : Byte)
  /-- `NOTE_ON n` (R140). -/
  | noteOn (n : Byte)
  /-- `NOTE_OFF n` (R145). -/
  | noteOff (n : Byte)
  /-- `SET_MVOL v` (R178). -/
  | setMvol (v : Byte)
  /-- `KEY c` (R123). -/
  | key (c : Byte)
  /-- Reserved: OP 0x1 with RSV not 0 (R94, R249). -/
  | reservedOp1 (rsv : BitVec 4) (arg : Byte)
  /-- Reserved: OP 0x2 with RSV not 0 (R94, R249). -/
  | reservedOp2 (rsv : BitVec 4) (arg : Byte)
  /-- Reserved: OP 0x3 with RSV not 0 (R94, R249). -/
  | reservedOp3 (rsv : BitVec 4) (arg : Byte)
  /-- Reserved: OP 0x4 with RSV not 0 (R94, R249). -/
  | reservedOp4 (rsv : BitVec 4) (arg : Byte)
  /-- Reserved: OP 0x5 (R95, R249). -/
  | reservedOp5 (rsv : BitVec 4) (arg : Byte)
  /-- Reserved: OP 0x6 and 0x7; `op` is bit 12 (R95, R249). -/
  | reservedOp6to7 (op : BitVec 1) (rsv : BitVec 4) (arg : Byte)
  /-- Reserved: OP 0x8 to 0xF; `op` is bits 14..12 (R95, R249). -/
  | reservedOp8toF (op : BitVec 3) (rsv : BitVec 4) (arg : Byte)
  deriving DecidableEq, Repr

end Sys2Proof
end

