-- ==== Sys2Proof/Decode.lean ====
section
/-! DEFINITION. The decoder of command words, total on all 65536 of them (30_encoding.md R96), and the
encoder (R90, R92). No word is rejected: VPSB has no illegal command (R95). -/

namespace Sys2Proof

/-- The field OP, bits 15..12 (R90). -/
def opField (w : Word) : BitVec 4 := w.extractLsb' 12 4

/-- The field RSV, bits 11..8 (R90). -/
def rsvField (w : Word) : BitVec 4 := w.extractLsb' 8 4

/-- The field ARG, bits 7..0, zero-extended where it is used (R90, R93). -/
def argField (w : Word) : Byte := w.extractLsb' 0 8

/-- The word with the three fields given (R90). -/
def mkWord (op rsv : BitVec 4) (arg : Byte) : Word := (op ++ rsv ++ arg : BitVec (4 + 4 + 8))

/-- `decode` of R96, with the reserved words told apart by their row of the opcode table. -/
def decode (w : Word) : Instr :=
  let op := opField w
  let rsv := rsvField w
  let arg := argField w
  if op = 0x0 then .nop rsv arg
  else if op = 0x1 then (if rsv = 0 then .noteOn arg else .reservedOp1 rsv arg)
  else if op = 0x2 then (if rsv = 0 then .noteOff arg else .reservedOp2 rsv arg)
  else if op = 0x3 then (if rsv = 0 then .setMvol arg else .reservedOp3 rsv arg)
  else if op = 0x4 then (if rsv = 0 then .key arg else .reservedOp4 rsv arg)
  else if op = 0x5 then .reservedOp5 rsv arg
  else if op.extractLsb' 1 3 = 0x3 then .reservedOp6to7 (op.extractLsb' 0 1) rsv arg
  else .reservedOp8toF (op.extractLsb' 0 3) rsv arg

/-- The word of an instruction, from the operation map of R92. -/
def encode : Instr → Word
  | .nop rsv arg => mkWord 0x0 rsv arg
  | .noteOn n => mkWord 0x1 0 n
  | .noteOff n => mkWord 0x2 0 n
  | .setMvol v => mkWord 0x3 0 v
  | .key c => mkWord 0x4 0 c
  | .reservedOp1 rsv arg => mkWord 0x1 rsv arg
  | .reservedOp2 rsv arg => mkWord 0x2 rsv arg
  | .reservedOp3 rsv arg => mkWord 0x3 rsv arg
  | .reservedOp4 rsv arg => mkWord 0x4 rsv arg
  | .reservedOp5 rsv arg => mkWord 0x5 rsv arg
  | .reservedOp6to7 op rsv arg => mkWord ((0x3 : BitVec 3) ++ op : BitVec (3 + 1)) rsv arg
  | .reservedOp8toF op rsv arg => mkWord ((0x1 : BitVec 1) ++ op : BitVec (1 + 3)) rsv arg

/-- The instruction that the decoder reads from a word whose bits are `w`, numbered as
spec/opcode_table.json numbers them. Every command is one 16-bit word (R91), so a longer word is none. -/
def decodeTableWord (nbits w : Nat) : Option Instr :=
  if nbits ≤ 16 then some (decode (BitVec.ofNat 16 w)) else none

end Sys2Proof
end

