-- ==== Sys2Proof/Machine/Idle.lean ====
section
/-! DEFINITION. `NOP` (45_control_port.md R245) and the reserved words (R249), one meaning for each row of the
opcode table. -/

namespace Sys2Proof.Machine

/-- `NOP` (R245): no state change. RSV and ARG are ignored. -/
def execNop (_rsv : BitVec 4) (_arg : Byte) (s : State) : Host.Outcome State Fault Refusal := .next s

/-- Reserved, OP 0x1 with RSV not 0 (R249). -/
def execReservedOp1 (rsv : BitVec 4) (arg : Byte) (s : State) : Host.Outcome State Fault Refusal :=
  .next (consumeReserved (encode (.reservedOp1 rsv arg)) s)

/-- Reserved, OP 0x2 with RSV not 0 (R249). -/
def execReservedOp2 (rsv : BitVec 4) (arg : Byte) (s : State) : Host.Outcome State Fault Refusal :=
  .next (consumeReserved (encode (.reservedOp2 rsv arg)) s)

/-- Reserved, OP 0x3 with RSV not 0 (R249). -/
def execReservedOp3 (rsv : BitVec 4) (arg : Byte) (s : State) : Host.Outcome State Fault Refusal :=
  .next (consumeReserved (encode (.reservedOp3 rsv arg)) s)

/-- Reserved, OP 0x4 with RSV not 0 (R249). -/
def execReservedOp4 (rsv : BitVec 4) (arg : Byte) (s : State) : Host.Outcome State Fault Refusal :=
  .next (consumeReserved (encode (.reservedOp4 rsv arg)) s)

/-- Reserved, OP 0x5 (R249). -/
def execReservedOp5 (rsv : BitVec 4) (arg : Byte) (s : State) : Host.Outcome State Fault Refusal :=
  .next (consumeReserved (encode (.reservedOp5 rsv arg)) s)

/-- Reserved, OP 0x6 and 0x7 (R249). -/
def execReservedOp6to7 (op : BitVec 1) (rsv : BitVec 4) (arg : Byte) (s : State) :
    Host.Outcome State Fault Refusal :=
  .next (consumeReserved (encode (.reservedOp6to7 op rsv arg)) s)

/-- Reserved, OP 0x8 to 0xF (R249). -/
def execReservedOp8toF (op : BitVec 3) (rsv : BitVec 4) (arg : Byte) (s : State) :
    Host.Outcome State Fault Refusal :=
  .next (consumeReserved (encode (.reservedOp8toF op rsv arg)) s)

end Sys2Proof.Machine
end

