-- ==== Sys2Proof/Machine/Notes.lean ====
section
/-! DEFINITION. `NOTE_ON`, `NOTE_OFF` (41_voice_pool_adsr.md R140 to R147) and `KEY` (40_notetable_wavetable.md
R123). -/

namespace Sys2Proof.Machine

/-- `NOTE_ON n` (R140): an index above 12 is a silent no-op, `E_NOTE_RANGE`. -/
def execNoteOn (n : Byte) (s : State) : Host.Outcome State Fault Refusal :=
  match noteOperand n with
  | none => .next (logEvent s (.noteRange (encode (.noteOn n))))
  | some k => .next (noteOnIndex (encode (.noteOn n)) k s)

/-- `NOTE_OFF n` (R145): an index above 12 is a silent no-op, `E_NOTE_RANGE`. -/
def execNoteOff (n : Byte) (s : State) : Host.Outcome State Fault Refusal :=
  match noteOperand n with
  | none => .next (logEvent s (.noteRange (encode (.noteOff n))))
  | some k => .next (noteOffIndex (encode (.noteOff n)) k s)

/-- `KEY c` (R123): the note of the code is released or pressed; an unmapped code is a silent no-op,
`E_KEY_UNMAPPED`. An event of the NOTE_ON or NOTE_OFF it becomes carries the KEY word (log 11). -/
def execKey (c : Byte) (s : State) : Host.Outcome State Fault Refusal :=
  match lookup s.cfg c with
  | none => .next (logEvent s (.keyUnmapped (encode (.key c))))
  | some n =>
    if isRelease s.cfg c then .next (noteOffIndex (encode (.key c)) n s)
    else .next (noteOnIndex (encode (.key c)) n s)

end Sys2Proof.Machine
end

