-- ==== Sys2Proof/Machine/Volume.lean ====
section
/-! DEFINITION. `SET_MVOL` (42_synth_mix.md R178). -/

namespace Sys2Proof.Machine

/-- `SET_MVOL v` (R178): a volume above 100 is ignored, `E_MVOL_RANGE`. -/
def execSetMvol (v : Byte) (s : State) : Host.Outcome State Fault Refusal :=
  match volumeOperand v with
  | none => .next (logEvent s (.mvolRange (encode (.setMvol v))))
  | some m => .next { s with mvol := m }

end Sys2Proof.Machine
end

