-- ==== Sys2Proof/Machine/Dispatch.lean ====
section
/-! DEFINITION. `exec` of 45_control_port.md R243: the meaning of a decoded command word. -/

namespace Sys2Proof.Machine

/-- Dispatch on the decoded command (R243). The drain advances `cr` afterwards (R242). -/
def exec (i : Instr) (s : State) : Host.Outcome State Fault Refusal :=
  match i with
  | .nop rsv arg => Sys2Proof.Machine.execNop rsv arg s
  | .noteOn n => Sys2Proof.Machine.execNoteOn n s
  | .noteOff n => Sys2Proof.Machine.execNoteOff n s
  | .setMvol v => Sys2Proof.Machine.execSetMvol v s
  | .key c => Sys2Proof.Machine.execKey c s
  | .reservedOp1 rsv arg => Sys2Proof.Machine.execReservedOp1 rsv arg s
  | .reservedOp2 rsv arg => Sys2Proof.Machine.execReservedOp2 rsv arg s
  | .reservedOp3 rsv arg => Sys2Proof.Machine.execReservedOp3 rsv arg s
  | .reservedOp4 rsv arg => Sys2Proof.Machine.execReservedOp4 rsv arg s
  | .reservedOp5 rsv arg => Sys2Proof.Machine.execReservedOp5 rsv arg s
  | .reservedOp6to7 op rsv arg => Sys2Proof.Machine.execReservedOp6to7 op rsv arg s
  | .reservedOp8toF op rsv arg => Sys2Proof.Machine.execReservedOp8toF op rsv arg s

end Sys2Proof.Machine
end

