-- ==== Sys2Proof/Machine/Control.lean ====
section
/-! DEFINITION. The control port: command write, status read, the drain and the three copy steps
(45_control_port.md R240 to R248). -/

namespace Sys2Proof.Machine

/-- `C <command>` (R240): the word is stored undecoded. -/
def cWrite (w : Word) (s : State) : State :=
  { s with
    cmdq := memPut s.cmdq s.cw w
    cw := (s.cw + 1) % s.cfg.cmdDepth
    cmdWritten := s.cmdWritten ++ [w] }

/-- `C READ a` (R247): the value is returned, no state changes. -/
def cRead (a : BitVec 2) (s : State) : State := { s with reads := s.reads ++ [csr s a] }

/-- `cr <- (cr + 1) mod CMD_DEPTH`, once the word `w` has been applied (R242). -/
def advanceCr (w : Word) (s : State) : State :=
  { s with cr := (s.cr + 1) % s.cfg.cmdDepth, cmdApplied := s.cmdApplied ++ [w] }

/-- The loop of `drain()` (R242), for at most `k` commands. -/
def drainLoop : Nat → State → Host.Outcome State Fault Refusal
  | 0, s => .next s
  | k + 1, s =>
    if inboxPending s then
      andThen (exec (decode (cmdRead s s.cr)) s)
        (fun t => drainLoop k (advanceCr (cmdRead s s.cr) t))
    else .next s

/-- `drain()` (R242). At most `CMD_DEPTH - 1` commands stand between `cr` and `cw_s`, so `CMD_DEPTH` rounds
empty the inbox as far as A can see (log 20). -/
def drain (s : State) : Host.Outcome State Fault Refusal := drainLoop s.cfg.cmdDepth s

/-- `S CW` (R244). -/
def syncCw (s : State) : State := { s with cwS := s.cw }

/-- `S CR` (R244). -/
def syncCr (s : State) : State := { s with crS := s.cr }

/-- `S ACT` (R244). -/
def syncAct (s : State) : State := { s with actS := s.actNotes }

end Sys2Proof.Machine
end

