-- ==== Sys2Proof/Machine/Arith.lean ====
section
/-! DEFINITION. The arithmetic primitives of 00_scope.md R10 and R11: exact integers, narrowed when stored. -/

namespace Sys2Proof.Machine

/-- `fdiv(a, b)`: the greatest integer `q` with `q * b ≤ a`, for `b > 0` (R11). -/
def fdiv (a b : Int) : Int := a / b

/-- `tdiv(a, b)`: division truncated toward zero, for `b > 0` (R11). -/
def tdiv (a b : Int) : Int := Int.tdiv a b

/-- `asr(a, k)`: arithmetic shift right, `fdiv(a, 2^k)` (R11). -/
def asr (a : Int) (k : Nat) : Int := fdiv a ((2 ^ k : Nat) : Int)

/-- `sat16(x)`: saturation to the 16-bit range (R11). -/
def sat16 (x : Int) : Int := min 32767 (max (-32768) x)

/-- Store an unsigned result in `w` bits, asserting that it fits rather than wrapping (R10; log 10). -/
def fitU (w : Nat) (r : Stored) (x : Int) : Except Fault (BitVec w) :=
  match x with
  | .ofNat n => if n < 2 ^ w then .ok (BitVec.ofNat w n) else .error (.doesNotFit r)
  | .negSucc _ => .error (.doesNotFit r)

/-- Level 1.0 in Q1.15, `ONE` (10_state.md R24). -/
def levelOne : Int := 32768

/-- The pair word `{R, L}`: left in bits 15..0, right in bits 31..16 (30_encoding.md R98). -/
def pairWord (left right : Word) : Pair := (right ++ left : BitVec (16 + 16))

/-- The 16-bit two's-complement sample of a saturated value (20_memory.md R63). -/
def sample16 (x : Int) : Word := BitVec.ofInt 16 x

end Sys2Proof.Machine
end

