-- ==== Sys2Proof/Machine/Envelope.lean ====
section
/-! DEFINITION. The ADSR envelope steps (41_voice_pool_adsr.md R148 to R156). A stored result that does not fit
its register is asserted never to arise (00_scope.md R10; log 10). -/

namespace Sys2Proof.Machine

/-- The level in Attack at timer `k`: `fdiv(k * ONE, A)` (R150). -/
def attackLevel (c : Cfg) (k : Nat) : Int := fdiv (k * levelOne) c.attack

/-- The level in Decay at timer `k`: `ONE - fdiv((ONE - S) * k, D)` (R151). -/
def decayLevel (c : Cfg) (k : Nat) : Int := levelOne - fdiv ((levelOne - c.sus) * k) c.decay

/-- The level in Release at timer `k`: `S - fdiv(S * k, R)` (R154). -/
def releaseLevel (c : Cfg) (k : Nat) : Int := c.sus - fdiv (c.sus * k) c.release

/-- Attack step (R150). -/
def attackStep (c : Cfg) (v : Voice) : Except Fault Voice :=
  let k := v.tmr.toNat + 1
  match fitU 24 .tmr k, fitU 16 .lev (attackLevel c k) with
  | .ok tmr, .ok lev =>
    if k = c.attack then .ok { v with lev := lev, st := .decay, tmr := 0 }
    else .ok { v with lev := lev, tmr := tmr }
  | .error e, _ => .error e
  | .ok _, .error e => .error e

/-- Decay step (R151). -/
def decayStep (c : Cfg) (v : Voice) : Except Fault Voice :=
  let k := v.tmr.toNat + 1
  match fitU 24 .tmr k, fitU 16 .lev (decayLevel c k) with
  | .ok tmr, .ok lev =>
    if k = c.decay then .ok { v with lev := lev, st := .sustain, tmr := 0 }
    else .ok { v with lev := lev, tmr := tmr }
  | .error e, _ => .error e
  | .ok _, .error e => .error e

/-- `release_step(i)` (R154): at completion the slot is freed. -/
def releaseStep (c : Cfg) (v : Voice) : Except Fault Voice :=
  let k := v.tmr.toNat + 1
  match fitU 24 .tmr k, fitU 16 .lev (releaseLevel c k) with
  | .ok tmr, .ok lev =>
    if k = c.release then .ok { v with lev := 0, note := none, st := .idle, tmr := 0 }
    else .ok { v with lev := lev, tmr := tmr }
  | .error e, _ => .error e
  | .ok _, .error e => .error e

/-- Sustain step: with the key held the level is `S` (R152); with the key released the voice enters Release and
takes the first release step in the same envelope step (R153, R156). -/
def sustainStep (c : Cfg) (v : Voice) : Except Fault Voice :=
  if v.held then
    match fitU 16 .lev c.sus with
    | .ok lev => .ok { v with lev := lev }
    | .error e => .error e
  else releaseStep c { v with st := .release, tmr := 0 }

/-- `env_step(i)` (R149). An Idle voice has no envelope step and is left unchanged (R155). -/
def envStep (c : Cfg) (v : Voice) : Except Fault Voice :=
  match v.st with
  | .idle => .ok v
  | .attack => attackStep c v
  | .decay => decayStep c v
  | .sustain => sustainStep c v
  | .release => releaseStep c v

end Sys2Proof.Machine
end

