-- ==== Sys2Proof/Machine/Mix.lean ====
section
/-! DEFINITION. The wavetable oscillator (40_notetable_wavetable.md R126 to R128), the mix, the normalisation and
the master volume (42_synth_mix.md R170 to R181), and the combine stage (44_output_and_step.md R222 to R224). -/

namespace Sys2Proof.Machine

/-- `WT[i]` as a signed value (20_memory.md R63). -/
def wtAt (c : Cfg) (i : Nat) : Int := (c.wt.getD i 0).toInt

/-- `wt_sample(pos)`: the interpolated read (R127). Where R128's last sentence disagrees with R127, the model follows
R127: a falling step may round down to `WT[j]` although the product is no exact multiple of 2^16, as at position
0x007FFFFF of the default table (DEDUCED, log 28). -/
def wtSample (c : Cfg) (pos : BitVec 32) : Int :=
  let i := (pos.toNat / 65536) % c.wtLen
  let fr := pos.toNat % 65536
  let j := (i + 1) % c.wtLen
  let d := wtAt c j - wtAt c i
  wtAt c i + asr (d * fr) 16

/-- The contribution of a voice: `asr(wt_sample(pos) * lev, 15)` (R171). -/
def contribution (c : Cfg) (v : Voice) : Int := asr (wtSample c v.pos * v.lev.toNat) 15

/-- The phase advance, formed without losing a carry and reduced modulo `WT_LEN * 2^16` (R172). -/
def advance (c : Cfg) (v : Voice) : Except Fault Voice :=
  match fitU 32 .pos ((v.pos.toNat + v.inc.toNat) % (c.wtLen * 65536) : Nat) with
  | .ok pos => .ok { v with pos := pos }
  | .error e => .error e

/-- One active voice in one sample: envelope step, contribution at the position before the advance, advance
(R171, R173). -/
def renderVoice (c : Cfg) (v : Voice) : Except Fault (Voice × Int) :=
  match envStep c v with
  | .error e => .error e
  | .ok v1 =>
    match advance c v1 with
    | .error e => .error e
    | .ok v2 => .ok (v2, contribution c v1)

/-- The voices in ascending order, with the accumulator `acc` so far (R173, R174). A voice that is Idle before its
turn is left unchanged and adds nothing (R155, R170). -/
def renderVoices (c : Cfg) : List Voice → Int → Except Fault (List Voice × Int)
  | [], acc => .ok ([], acc)
  | v :: vs, acc =>
    if v.st = .idle then
      match renderVoices c vs acc with
      | .error e => .error e
      | .ok (ws, a) => .ok (v :: ws, a)
    else
      match renderVoice c v with
      | .error e => .error e
      | .ok (w, p) =>
        match renderVoices c vs (acc + p) with
        | .error e => .error e
        | .ok (ws, a) => .ok (w :: ws, a)

/-- `NORM_LUT[n]` (00_scope.md R7). -/
def normTarget (c : Cfg) (n : Nat) : Nat := (c.normLut.getD (n - 1) 0).toNat

/-- The normalisation update (R175): with no active voice `NORM` is reset to 1.0. -/
def normUpdate (c : Cfg) (nAct : Nat) (norm : BitVec 25) : Except Fault (BitVec 25) :=
  if nAct = 0 then .ok (BitVec.ofNat 25 (2 ^ 24))
  else fitU 25 .norm (norm.toNat + tdiv ((normTarget c nAct - norm.toNat) * c.alpha) 65536)

/-- `t = asr(acc * NORM, 24)` (R177). -/
def normalised (acc : Int) (norm : BitVec 25) : Int := asr (acc * norm.toNat) 24

/-- `u = tdiv(t * MVOL, 100)` (R179). -/
def scaled (t : Int) (mvol : BitVec 7) : Int := tdiv (t * mvol.toNat) 100

/-- The synthesizer output `y` (R177, R179, R180). -/
def synthOut (acc : Int) (norm : BitVec 25) (mvol : BitVec 7) : Int :=
  sat16 (scaled (normalised acc norm) mvol)

/-- `bs = asr(b * BGM_GAIN, 15)` (44_output_and_step.md R222). -/
def bgmScaled (c : Cfg) (b : Word) : Int := asr (b.toInt * c.bgmGain) 15

/-- `m = sat16(y + bs)` (44_output_and_step.md R223). -/
def combine (c : Cfg) (y : Int) (b : Word) : Int := sat16 (y + bgmScaled c b)

end Sys2Proof.Machine
end

