-- ==== Sys2Proof/Machine/Audio.lean ====
section
/-! DEFINITION. The audio sample step (44_output_and_step.md R220). -/

namespace Sys2Proof.Machine

/-- `emit(L, R)` (R226): one pair leaves at the output port. -/
def emit (left right : Word) (s : State) : State := { s with emitted := s.emitted ++ [pairWord left right] }

/-- Stages 6 to 9 of `A STEP`, given the voices after stage 3, the updated `NORM` and the synthesizer output `y`:
pop, combine, emit the pair `(m, m)`, status (R220, R224, 45_control_port.md R246). -/
def output (vs : List Voice) (norm : BitVec 25) (y : Int) (s : State) : State :=
  let m := sample16 (combine s.cfg y (pop s).1)
  let s1 := emit m m (pop s).2
  { s1 with voices := vs, norm := norm, actNotes := actMask vs }

/-- Stages 2 to 9 of `A STEP`: everything after the drain (R220). -/
def render (s : State) : Host.Outcome State Fault Refusal :=
  match renderVoices s.cfg s.voices 0 with
  | .error f => .fault f
  | .ok (vs, acc) =>
    match normUpdate s.cfg (activeCount s.voices) s.norm with
    | .error f => .fault f
    | .ok norm => .next (output vs norm (synthOut acc norm s.mvol) s)

/-- `A STEP` (R220). -/
def aStep (s : State) : Host.Outcome State Fault Refusal := andThen (drain s) render

end Sys2Proof.Machine
end

