-- ==== Sys2Proof/WellFormed.lean ====
section
/-! DEFINITION. Which terms stand for something: an instruction whose fields fit its row of the opcode table
(30_encoding.md R92, R94), and a configuration in the ranges of 00_scope.md R7 and R8. -/

namespace Sys2Proof

/-- A reserved word with OP 0x1 to 0x4 has RSV not 0 (R94); every other field may hold any value. -/
def Instr.wf : Instr → Bool
  | .nop _ _ => true
  | .noteOn _ => true
  | .noteOff _ => true
  | .setMvol _ => true
  | .key _ => true
  | .reservedOp1 rsv _ => rsv != 0
  | .reservedOp2 rsv _ => rsv != 0
  | .reservedOp3 rsv _ => rsv != 0
  | .reservedOp4 rsv _ => rsv != 0
  | .reservedOp5 _ _ => true
  | .reservedOp6to7 _ _ _ => true
  | .reservedOp8toF _ _ _ => true

/-- `lo ≤ n ≤ hi`. -/
def inRange (lo hi n : Nat) : Bool := decide (lo ≤ n) && decide (n ≤ hi)

/-- A power of two. -/
def isPow2 (n : Nat) : Bool := n == 2 ^ n.log2

/-- Exactly one bit set (R8). -/
def oneBit (m : Byte) : Bool := (List.range 8).any (fun k => m == BitVec.twoPow 8 k)

/-- The well-formed configurations of R8: every field in its legal range (R7), one release bit, every press code
with that bit clear, one normalisation target for each count of voices. -/
def Cfg.wf (c : Cfg) : Bool :=
  inRange 1 16 c.nVoices && inRange 1 (2 ^ 20) c.fs
  && inRange 1 (2 ^ 24 - 1) c.attack && inRange 1 (2 ^ 24 - 1) c.decay && inRange 1 (2 ^ 24 - 1) c.release
  && inRange 0 32768 c.sus
  && inRange 1 65536 c.wtLen
  && c.noteInc.length == 13
  && c.pressCode.length == 13 && c.pressCode.all (fun k => k &&& c.releaseMask == 0)
  && oneBit c.releaseMask
  && inRange 0 65536 c.alpha
  && c.normLut.length == c.nVoices && c.normLut.all (fun t => decide (t.toNat ≤ 2 ^ 24))
  && inRange 2 65536 c.ringCap && isPow2 c.ringCap
  && inRange 2 256 c.cmdDepth && isPow2 c.cmdDepth
  && inRange 0 32768 c.bgmGain
  && inRange 0 100 c.mvolReset
  && decide (2 ≤ c.syncStages)

end Sys2Proof
end

