-- ==== Sys2Proof/Machine/Agents.lean ====
section
/-! DEFINITION. When a step is enabled and what it does: the agents (00_scope.md R12, R13), the host's liberties
(60_exceptions.md R275), the reset inputs (70_reset_and_hazards.md R290 to R297). -/

namespace Sys2Proof.Machine

/-- Whether the step is enabled (44_output_and_step.md R221, 43_stream_bridge.md R191, R196, R197,
45_control_port.md R241). No agent steps while reset is asserted (70_reset_and_hazards.md R290). A step that is
not enabled holds (60_exceptions.md R271; log 6). -/
def enabled (a : Act) (s : State) : Bool :=
  match a with
  | .aStep => !inReset s && s.outReady
  | .wPush => inReady s && !s.sampIn.isEmpty
  | .wDup => !inReset s && s.dupV
  | .cWrite => cmdReady s && !s.cmdIn.isEmpty
  | .cRead _ => !inReset s
  | .syncWr => !inReset s
  | .syncRd => !inReset s
  | .syncCw => !inReset s
  | .syncCr => !inReset s
  | .syncAct => !inReset s
  | .presentCmd _ => true
  | .presentSample _ => true
  | .sinkReady _ => true
  | .assertReset => true
  | .releaseReset _ => true

/-- The state with every register and memory of the block at its reset value (10_state.md R40). The reset inputs,
the host's inputs, the schedule, the free-choice counters and the observed sequences are no part of the block and
stay (log 15). -/
def resetBlock (s : State) : State :=
  { State.resetWith s.cfg with
    rstA := s.rstA
    rstW := s.rstW
    rstC := s.rstC
    cmdIn := s.cmdIn
    sampIn := s.sampIn
    outReady := s.outReady
    sched := s.sched
    choice := s.choice
    epoch := s.epoch
    emitted := s.emitted
    reads := s.reads
    events := s.events }

/-- Assert all three reset inputs together (70_reset_and_hazards.md R290). That the block takes its reset values here,
at the assertion, and not only at the release, where R290 and R40 give them, is the model's choice (DESIGN CHOICE,
log 30). What its memories hold is anything again (log 8). -/
def assertReset (s : State) : State :=
  { resetBlock s with rstA := true, rstW := true, rstC := true, epoch := s.epoch + 1 }

/-- Set the reset input of one domain: `true` asserts it. -/
def setRstLine (d : Domain) (b : Bool) (s : State) : State :=
  match d with
  | .audio => { s with rstA := b }
  | .producer => { s with rstW := b }
  | .control => { s with rstC := b }

/-- What an enabled step does. -/
def perform (a : Act) (s : State) : Host.Outcome State Fault Refusal :=
  match a with
  | .aStep => aStep s
  | .wPush =>
    match s.sampIn with
    | [] => .next s
    | x :: rest => .next (wPush x { s with sampIn := rest })
  | .wDup => .next (wDup s)
  | .cWrite =>
    match s.cmdIn with
    | [] => .next s
    | w :: rest => .next (cWrite w { s with cmdIn := rest })
  | .cRead a => .next (cRead a s)
  | .syncWr => .next (syncWr s)
  | .syncRd => .next (syncRd s)
  | .syncCw => .next (syncCw s)
  | .syncCr => .next (syncCr s)
  | .syncAct => .next (syncAct s)
  | .presentCmd w => .next { s with cmdIn := s.cmdIn ++ [w] }
  | .presentSample x => .next { s with sampIn := s.sampIn ++ [x] }
  | .sinkReady b => .next { s with outReady := b }
  | .assertReset => .next (assertReset s)
  | .releaseReset d => .next (setRstLine d false s)

/-- One atomic step: performed where it is enabled, else a hold, which changes nothing (60_exceptions.md R271). -/
def runAct (a : Act) (s : State) : Host.Outcome State Fault Refusal :=
  if enabled a s then perform a s else .next s

/-- The reset inputs of the other two domains are asserted. -/
def othersInReset (d : Domain) (s : State) : Bool :=
  match d with
  | .audio => s.rstW && s.rstC
  | .producer => s.rstA && s.rstC
  | .control => s.rstA && s.rstW

/-- The reset input of one domain is asserted by itself. While another domain runs that is a partial reset, which
has no meaning (70_reset_and_hazards.md R292, 60_exceptions.md R270); while both others are in reset all three are
then asserted together (log 14). -/
def assertOne (d : Domain) (s : State) : Host.Outcome State Fault Refusal :=
  if othersInReset d s then .next (setRstLine d true s) else .refused .partialReset

/-- The integrator chooses the configuration: with all three resets asserted, before their release
(70_reset_and_hazards.md R294, R297). An ill-formed one has no initial state (00_scope.md R8); in a run there is no
such step (60_exceptions.md R270). -/
def changeConfig (c : Cfg) (s : State) : Host.Outcome State Fault Refusal :=
  if s.rstA && s.rstW && s.rstC then
    if c.wf then .next (assertReset { s with cfg := c }) else .refused .illFormedConfig
  else .refused .configChangeInRun

/-- One turn of the schedule. -/
def runTurn (t : Turn) (s : State) : Host.Outcome State Fault Refusal :=
  match t with
  | .act a => runAct a s
  | .assertOne d => assertOne d s
  | .changeConfig c => changeConfig c s

/-- The initial state for a configuration: the one at the release of reset, refused where the configuration is not
well formed (00_scope.md R8, 60_exceptions.md R270). -/
def boot (c : Cfg) : Host.Outcome State Fault Refusal :=
  if c.wf then .next (State.resetWith c) else .refused .illFormedConfig

/-- The next turn: the schedule's where it fixes one, else a free one (00_scope.md R12; log 2, 3). -/
def nextTurn (s : State) : Turn :=
  match s.sched with
  | [] => .act (Config.freeAct s.choice)
  | t :: _ => t

/-- The state with the next turn taken off the schedule. -/
def takeTurn (s : State) : State :=
  match s.sched with
  | [] => { s with choice := s.choice + 1 }
  | _ :: rest => { s with sched := rest }

/-- The state with the word `w` as the next command that A sees, and `A STEP` as the next turn (log 21). -/
def placeCommand (w : Word) (s : State) : State :=
  { s with
    cmdq := memPut s.cmdq s.cr w
    cw := (s.cr + 1) % s.cfg.cmdDepth
    cwS := (s.cr + 1) % s.cfg.cmdDepth
    cmdWritten := s.cmdApplied ++ [w]
    rstA := false
    rstW := false
    rstC := false
    outReady := true
    sched := .act .aStep :: s.sched }

end Sys2Proof.Machine
end

