-- ==== Sys2Proof/Machine/Step.lean ====
section
/-! DEFINITION. One step of the machine: one turn of the schedule, atomic (00_scope.md R12). -/

namespace Sys2Proof.Machine

/-- One step: the next turn is taken off the schedule and run (R12). -/
def step (s : State) : Host.Outcome State Fault Refusal := runTurn (nextTurn s) (takeTurn s)

/-- The state whose very next step is an `A STEP` that drains exactly the command word `w` (log 21). -/
def State.withFetchWord (s : State) (_nbits w : Nat) : State := placeCommand (BitVec.ofNat 16 w) s

end Sys2Proof.Machine
end

