-- ==== Sys2Proof/Safety.lean ====
section
/-! DEFINITION. What holds in every state a run reaches: the invariants of 10_state.md R25, R29, R30, of
20_memory.md R61, R71, R72, and what the model's block holds during reset (log 30); and the fair schedules of
20_memory.md R75. -/

namespace Sys2Proof.Machine

/-- The number of envelope steps of a segment: the timer stays below it between steps (10_state.md R25). Idle and
Sustain hold the timer at 0. -/
def segmentLength (c : Cfg) : EnvState → Nat
  | .idle => 1
  | .attack => c.attack
  | .decay => c.decay
  | .sustain => 1
  | .release => c.release

/-- The envelope level that a state and a timer stand for (41_voice_pool_adsr.md R150 to R154, R157). -/
def levelAt (c : Cfg) (st : EnvState) (k : Nat) : Int :=
  match st with
  | .idle => 0
  | .attack => attackLevel c k
  | .decay => decayLevel c k
  | .sustain => c.sus
  | .release => releaseLevel c k

/-- The invariants of one voice: 10_state.md R29 items 1 and 3 to 6, with the level given by the state and the
timer, and `held` 0 in Release (41_voice_pool_adsr.md R154). -/
abbrev VoiceOk (c : Cfg) (v : Voice) : Prop :=
  (v.st = .idle ↔ v.note = none) ∧
  (v.lev.toNat : Int) = levelAt c v.st v.tmr.toNat ∧
  v.lev.toNat ≤ 32768 ∧
  v.tmr.toNat < segmentLength c v.st ∧
  (v.st = .idle ∨ v.st = .release → v.held = false) ∧
  v.pos.toNat < c.wtLen * 65536

/-- The invariants of the pool: its size, each voice, and 10_state.md R29 item 2 (no note is held twice). -/
abbrev PoolOk (c : Cfg) (vs : List Voice) : Prop :=
  vs.length = c.nVoices ∧ (∀ v ∈ vs, VoiceOk c v) ∧
  vs.Pairwise (fun v w => v.note = none ∨ v.note ≠ w.note)

/-- The counting invariant of 20_memory.md R71 for a ring of `cap` entries in the memory `m`, with write cursor
`wr`, read cursor `rd`, their copies `wrS` and `rdS`, the values `written` so far and the values `taken` so far:
the copies stand for counts `nW'` and `nR'` with `nR' ≤ nR ≤ nW' ≤ nW` and `nW - nR' ≤ cap - 1`, and every entry
not yet taken holds the value written for it. -/
def FifoOk (cap wr rd wrS rdS : Nat) (m : Memory) (written taken : List Word) : Prop :=
  ∃ nW' nR' : Nat,
    wr = written.length % cap ∧ rd = taken.length % cap ∧ wrS = nW' % cap ∧ rdS = nR' % cap ∧
    nR' ≤ taken.length ∧ taken.length ≤ nW' ∧ nW' ≤ written.length ∧
    written.length + 1 ≤ nR' + cap ∧
    taken <+: written ∧
    ∀ k, taken.length ≤ k → k < written.length → memGet m (k % cap) = written[k]?

/-- Every listed index lies below the number of entries (20_memory.md R61). -/
abbrev MemoryFits (cap : Nat) (m : Memory) : Prop := Memory.wf m ∧ ∀ e ∈ m, e.1 < cap

/-- The invariant of the machine. -/
structure Inv (s : State) : Prop where
  /-- The configuration is well formed (00_scope.md R8). -/
  cfg : s.cfg.wf = true
  /-- The voice pool (10_state.md R29). -/
  pool : PoolOk s.cfg s.voices
  /-- `NORM` stays in 0..2^24 (42_synth_mix.md R176 item 3). -/
  norm : s.norm.toNat ≤ 2 ^ 24
  /-- `MVOL` stays in 0..100 (10_state.md R30). -/
  mvol : s.mvol.toNat ≤ 100
  /-- `ACT_NOTES` describes the voices after the last sample step (45_control_port.md R246). -/
  actNotes : s.actNotes = actMask s.voices
  /-- The bridge (20_memory.md R71). -/
  bridge : FifoOk s.cfg.ringCap s.wr s.rd s.wrS s.rdS s.ring s.accepted s.popped
  /-- The inbox (20_memory.md R72). -/
  inbox : FifoOk s.cfg.cmdDepth s.cw s.cr s.cwS s.crS s.cmdq s.cmdWritten s.cmdApplied
  /-- `RING` is in canonical form, with indices in range (20_memory.md R61). -/
  ring : MemoryFits s.cfg.ringCap s.ring
  /-- `CMDQ` is in canonical form, with indices in range (20_memory.md R61). -/
  cmdq : MemoryFits s.cfg.cmdDepth s.cmdq
  /-- While a reset input is asserted the block holds its reset values. 70_reset_and_hazards.md R290 gives them only
  at the release; that they stand throughout the reset is the model's choice (DESIGN CHOICE, log 30). -/
  heldInReset : inReset s = true → s = resetBlock s

/-! ## Runs under an infinite schedule -/

/-- The run `r` under the schedule `τ`: turn `n` takes the state `r n` to `r (n + 1)` (00_scope.md R12). -/
def IsRun (τ : Nat → Turn) (r : Nat → State) : Prop := ∀ n, runTurn (τ n) (r n) = .next (r (n + 1))

/-- The copy steps, which are always enabled (43_stream_bridge.md R200, 45_control_port.md R244). -/
def copySteps : List Act := [.syncWr, .syncRd, .syncCw, .syncCr, .syncAct]

/-- The fairness of 20_memory.md R75: every copy step is taken again and again, and where the sink accepts again and
again, A takes a sample step while it accepts, again and again. No bound is given (log 24). -/
structure Fair (τ : Nat → Turn) (r : Nat → State) : Prop where
  copies : ∀ a ∈ copySteps, ∀ n, ∃ m, n ≤ m ∧ τ m = .act a
  samples : (∀ n, ∃ m, n ≤ m ∧ (r m).outReady = true) →
    ∀ n, ∃ m, n ≤ m ∧ τ m = .act .aStep ∧ (r m).outReady = true

end Sys2Proof.Machine
end

