-- ==== Sys2Proof/Certificates/Slice0/Obligations.lean ====
section
/-! DEFINITION. The statements for the provers, taken from the numbered rules of spec/. -/

namespace Sys2Proof.Machine

/-! ## What the statements speak of -/

/-- The instruction is one of the reserved rows (30_encoding.md R95). -/
def isReserved : Instr → Bool
  | .nop _ _ => false
  | .noteOn _ => false
  | .noteOff _ => false
  | .setMvol _ => false
  | .key _ => false
  | .reservedOp1 _ _ => true
  | .reservedOp2 _ _ => true
  | .reservedOp3 _ _ => true
  | .reservedOp4 _ _ => true
  | .reservedOp5 _ _ => true
  | .reservedOp6to7 _ _ _ => true
  | .reservedOp8toF _ _ _ => true

/-- The commands `ws` applied one after another, each to the state the one before left (45_control_port.md R243). -/
def applyCommands : List Word → State → Host.Outcome State Fault Refusal
  | [], s => .next s
  | w :: ws, s => andThen (exec (decode w) s) (applyCommands ws)

/-- The acts `as` taken one after another, each from the state the one before left (00_scope.md R12). -/
def runActs : List Act → State → Host.Outcome State Fault Refusal
  | [], s => .next s
  | a :: as, s => andThen (runAct a s) (runActs as)

/-- The words between `cr` and `cw_s`, oldest first (45_control_port.md R242). -/
def visibleWords (s : State) : List Word :=
  (List.range ((s.cwS + s.cfg.cmdDepth - s.cr) % s.cfg.cmdDepth)).map
    (fun j => cmdRead s ((s.cr + j) % s.cfg.cmdDepth))

/-- The voice `v` after `k` envelope steps, its key released by the drain of step `m`, steps numbered from 1
(41_voice_pool_adsr.md R157). -/
def envelopeAfter (c : Cfg) (v : Voice) (m : Nat) : Nat → Except Fault Voice
  | 0 => .ok v
  | k + 1 =>
    match envelopeAfter c v m k with
    | .error e => .error e
    | .ok u => envStep c (if k + 1 = m then letGo u else u)

/-- What the voices that are not Idle contribute to a sample, in voice order (42_synth_mix.md R171, R173). -/
def contributions (c : Cfg) (vs : List Voice) : List Int :=
  vs.filterMap (fun v =>
    if v.st = .idle then none
    else match envStep c v with
      | .ok v1 => some (contribution c v1)
      | .error _ => none)

/-- The acts of the agents A, W, C and S; the others are the host's (00_scope.md R13). -/
def isAgentAct : Act → Bool
  | .aStep => true
  | .wPush => true
  | .wDup => true
  | .cWrite => true
  | .cRead _ => true
  | .syncWr => true
  | .syncRd => true
  | .syncCw => true
  | .syncCr => true
  | .syncAct => true
  | .presentCmd _ => false
  | .presentSample _ => false
  | .sinkReady _ => false
  | .assertReset => false
  | .releaseReset _ => false

/-- The turn changes the configuration (70_reset_and_hazards.md R297). -/
def changesConfig : Turn → Bool
  | .act _ => false
  | .assertOne _ => false
  | .changeConfig _ => true

/-- The turn is an act of an agent or of the host, not one of the runs that R270 speaks of. -/
def isAct : Turn → Bool
  | .act _ => true
  | .assertOne _ => false
  | .changeConfig _ => false

/-- The state without its histories. -/
def forgetHistories (s : State) : State :=
  { s with
    emitted := []
    reads := []
    events := []
    accepted := []
    popped := []
    cmdWritten := []
    cmdApplied := [] }

/-- Two outcomes are both next states in the relation, or both the same stop. -/
def sameOutcome (R : State → State → Prop) :
    Host.Outcome State Fault Refusal → Host.Outcome State Fault Refusal → Prop
  | .next s, .next t => R s t
  | .fault f, .fault g => f = g
  | .refused f, .refused g => f = g
  | _, _ => False

/-- The states agree but for `dup_x`, and on `dup_x` too while a second copy is pending. -/
def sameButIdleDup (s t : State) : Prop := t = { s with dupX := t.dupX } ∧ (s.dupV = true → t.dupX = s.dupX)

end Sys2Proof.Machine

open Sys2Proof Sys2Proof.Machine

/-! ## Encoding -/

/-- The decoder gives back every well-formed instruction from its word, every field at every value, and every word is
the word of the well-formed instruction it decodes to. That no bit of a word is lost, ignored bits of `NOP` and of the
reserved words among them, and that the reserved words have seven rows, is the model's choice (log 17); R96 answers
only `NOP` or `RESERVED` for such a word. -/
def Obligations.DecodeAndEncodeAgree : Prop :=
  (∀ i : Instr, i.wf = true → decode (encode i) = i) ∧
  ∀ w : Word, encode (decode w) = w ∧ (decode w).wf = true

/-- The decode function of R96, on the word read as a number. -/
def Obligations.DecodeFollowsTheOperationMap : Prop :=
  ∀ w : Word,
    (w.toNat / 4096 = 0 → ∃ r a, decode w = .nop r a) ∧
    (w.toNat / 4096 > 4 ∨ (w.toNat / 4096 ≠ 0 ∧ w.toNat / 256 % 16 ≠ 0) → isReserved (decode w) = true) ∧
    (w.toNat / 256 = 0x10 → decode w = .noteOn (w.setWidth 8)) ∧
    (w.toNat / 256 = 0x20 → decode w = .noteOff (w.setWidth 8)) ∧
    (w.toNat / 256 = 0x30 → decode w = .setMvol (w.setWidth 8)) ∧
    (w.toNat / 256 = 0x40 → decode w = .key (w.setWidth 8))

/-- The fourteen decode vectors of 95_test_vectors.md 2.1. The fields of `NOP` and of the reserved words, which the
vectors do not name, are the model's choice (log 17). -/
def Obligations.DecodedWordsOfTheManual : Prop :=
  decode 0x0000 = .nop 0 0 ∧ decode 0x0ABC = .nop 0xA 0xBC ∧ decode 0x1000 = .noteOn 0 ∧
  decode 0x100C = .noteOn 12 ∧ decode 0x100D = .noteOn 13 ∧ decode 0x10FF = .noteOn 255 ∧
  decode 0x1100 = .reservedOp1 1 0 ∧
  decode 0x2009 = .noteOff 9 ∧ decode 0x3032 = .setMvol 50 ∧ decode 0x3065 = .setMvol 101 ∧
  decode 0x409E = .key 0x9E ∧ decode 0x4F1E = .reservedOp4 0xF 0x1E ∧ decode 0x5000 = .reservedOp5 0 0 ∧
  decode 0xFFFF = .reservedOp8toF 7 0xF 0xFF

/-! ## The command words -/

/-- `NOP` (R245): any word 0x0000 to 0x0FFF; no state change; the drain still advances `cr`. The words applied are a
history of the model (log 13). -/
def Obligations.NopOnlyAdvancesTheInbox : Prop :=
  (∀ rsv arg s, exec (.nop rsv arg) s = .next s) ∧
  (∀ w : Word, w.toNat ≤ 0x0FFF → ∃ rsv arg, decode w = .nop rsv arg) ∧
  (∀ (w : Word) s k, w.toNat ≤ 0x0FFF → s.cr ≠ s.cwS → cmdRead s s.cr = w →
    drainLoop (k + 1) s = drainLoop k { s with
      cr := (s.cr + 1) % s.cfg.cmdDepth, cmdApplied := s.cmdApplied ++ [w] })

/-- A reserved word (R249): event `E_RSVD_CMD` with the word, no state changes, the drain advances `cr`. The events
and the words applied are histories of the model (log 11, 13). -/
def Obligations.ReservedWordIsConsumed : Prop :=
  (∀ i s, isReserved i = true → exec i s = .next { s with events := s.events ++ [.rsvdCmd (encode i)] }) ∧
  (∀ w : Word, w.toNat / 4096 > 4 ∨ (w.toNat / 4096 ≠ 0 ∧ w.toNat / 256 % 16 ≠ 0) →
    isReserved (decode w) = true) ∧
  (∀ (w : Word) s k, isReserved (decode w) = true → s.cr ≠ s.cwS → cmdRead s s.cr = w →
    drainLoop (k + 1) s = drainLoop k { s with
      events := s.events ++ [.rsvdCmd w],
      cr := (s.cr + 1) % s.cfg.cmdDepth, cmdApplied := s.cmdApplied ++ [w] })

/-- A note index of 13..255 makes NOTE_ON and NOTE_OFF a no-op, `E_NOTE_RANGE` (R262). -/
def Obligations.NoteIndexOutOfRangeIsANoOp : Prop :=
  ∀ (n : Byte) (s : State), 13 ≤ n.toNat →
    exec (.noteOn n) s =
      .next { s with events := s.events ++ [.noteRange (0x1000 ||| n.setWidth 16)] } ∧
    exec (.noteOff n) s =
      .next { s with events := s.events ++ [.noteRange (0x2000 ||| n.setWidth 16)] }

/-- `NOTE_ON n` of a note that a voice holds retriggers the least such voice: phase, timer and level 0, state Attack,
`held` 1, note and increment kept; everything else is unchanged (R141). -/
def Obligations.NoteOnRetriggersTheVoiceOfItsNote : Prop :=
  ∀ (n : Byte) (k : Note) (s : State) (i : Nat) (v : Voice), n.toNat = k.val →
    s.voices[i]? = some v → v.note = some k →
    (∀ j < i, ∀ w, s.voices[j]? = some w → w.note ≠ some k) →
    exec (.noteOn n) s = .next { s with
      voices := s.voices.set i { v with pos := 0, st := .attack, tmr := 0, lev := 0, held := true } }

/-- `NOTE_ON n` of a note that no voice holds takes the least Idle voice; everything else is unchanged (R142). -/
def Obligations.NoteOnAllocatesTheLeastIdleVoice : Prop :=
  ∀ (n : Byte) (k : Note) (s : State) (i : Nat) (v : Voice) (inc : BitVec 32), n.toNat = k.val →
    (∀ w ∈ s.voices, w.note ≠ some k) →
    s.voices[i]? = some v → v.st = .idle → (∀ j < i, ∀ w, s.voices[j]? = some w → w.st ≠ .idle) →
    s.cfg.noteInc[k.val]? = some inc →
    exec (.noteOn n) s = .next { s with
      voices := s.voices.set i
        { note := some k, inc := inc, pos := 0, st := .attack, tmr := 0, lev := 0, held := true } }

/-- `NOTE_ON n` of a note that no voice holds, with no Idle voice, changes no state: `E_POOL_FULL` (R143). -/
def Obligations.NoteOnIsDroppedWhenThePoolIsFull : Prop :=
  ∀ (n : Byte) (k : Note) (s : State), n.toNat = k.val →
    (∀ w ∈ s.voices, w.note ≠ some k) → (∀ w ∈ s.voices, w.st ≠ .idle) →
    exec (.noteOn n) s = .next { s with events := s.events ++ [.poolFull (0x1000 ||| n.setWidth 16)] }

/-- `NOTE_OFF n` (R145): the least voice that holds the note has `held` cleared and nothing else; with no such voice
a no-op, `E_NOTE_NOT_SOUNDING`; out of range a no-op, `E_NOTE_RANGE`. -/
def Obligations.NoteOffClearsHeldOfItsVoice : Prop :=
  ∀ (n : Byte) (s : State),
    (13 ≤ n.toNat → exec (.noteOff n) s =
      .next { s with events := s.events ++ [.noteRange (0x2000 ||| n.setWidth 16)] }) ∧
    (∀ k : Note, n.toNat = k.val → (∀ w ∈ s.voices, w.note ≠ some k) → exec (.noteOff n) s =
      .next { s with events := s.events ++ [.noteNotSounding (0x2000 ||| n.setWidth 16)] }) ∧
    (∀ (k : Note) (i : Nat) (v : Voice), n.toNat = k.val → s.voices[i]? = some v → v.note = some k →
      (∀ j < i, ∀ w, s.voices[j]? = some w → w.note ≠ some k) →
      exec (.noteOff n) s = .next { s with voices := s.voices.set i { v with held := false } })

/-- `KEY c` (R123): an unmapped code changes no state, `E_KEY_UNMAPPED`; a mapped one does what NOTE_OFF of its note
does where the release bit is set, and what NOTE_ON does where it is clear. -/
def Obligations.KeyAppliesTheNoteOfItsCode : Prop :=
  ∀ (c : Byte) (s : State),
    (lookup s.cfg c = none → exec (.key c) s =
      .next { s with events := s.events ++ [.keyUnmapped (0x4000 ||| c.setWidth 16)] }) ∧
    (∀ n : Note, lookup s.cfg c = some n → c &&& s.cfg.releaseMask ≠ 0 →
      ∃ t u, exec (.key c) s = .next t ∧ exec (.noteOff (BitVec.ofNat 8 n.val)) s = .next u ∧
        t = { u with events := t.events } ∧ t.events.map eventCode = u.events.map eventCode) ∧
    (∀ n : Note, lookup s.cfg c = some n → c &&& s.cfg.releaseMask = 0 →
      ∃ t u, exec (.key c) s = .next t ∧ exec (.noteOn (BitVec.ofNat 8 n.val)) s = .next u ∧
        t = { u with events := t.events } ∧ t.events.map eventCode = u.events.map eventCode)

/-- The key lookup strips the release bit and answers the least note with that press code, or not found (R122). -/
def Obligations.LookupAnswersTheFirstMatch : Prop :=
  ∀ (c : Cfg) (code : Byte),
    (∀ n : Note, lookup c code = some n ↔
      c.pressCode[n.val]? = some (code &&& ~~~ c.releaseMask) ∧
      ∀ m : Note, m < n → c.pressCode[m.val]? ≠ some (code &&& ~~~ c.releaseMask)) ∧
    (lookup c code = none ↔ ∀ n : Note, c.pressCode[n.val]? ≠ some (code &&& ~~~ c.releaseMask))

/-- The release code of a note, its press code with the release bit set, is the same by OR and by XOR, is a release,
and finds what the press code finds (R121, R97). -/
def Obligations.ReleaseCodeFindsTheNoteOfItsPressCode : Prop :=
  ∀ (c : Cfg) (n : Note) (p : Byte), c.wf = true → c.pressCode[n.val]? = some p →
    p ||| c.releaseMask = p ^^^ c.releaseMask ∧ lookup c (p ||| c.releaseMask) = lookup c p ∧
    (p ||| c.releaseMask) &&& c.releaseMask ≠ 0 ∧ p &&& c.releaseMask = 0

/-- `SET_MVOL v` (R178): a volume of 0..100 becomes `MVOL`, where 0 mutes the synthesizer and 100 is unity gain; one of
101..255 is ignored, `E_MVOL_RANGE`; nothing else changes. -/
def Obligations.SetMvolSetsAVolumeInRange : Prop :=
  ∀ (v : Byte) (s : State),
    (v.toNat ≤ 100 → ∃ m : BitVec 7, m.toNat = v.toNat ∧ exec (.setMvol v) s = .next { s with mvol := m } ∧
      (v = 0 → ∀ acc norm, synthOut acc norm m = 0) ∧ (v = 100 → ∀ x, scaled x m = x)) ∧
    (101 ≤ v.toNat → exec (.setMvol v) s =
      .next { s with events := s.events ++ [.mvolRange (0x3000 ||| v.setWidth 16)] })

/-- Every command completes (R260, R272): it writes the voices, `MVOL` and the event history and nothing else; at most
one voice, no voice unless it is NOTE_ON, NOTE_OFF or KEY, `MVOL` only in SET_MVOL, and at most one event. Every entry
of both memories reads as before. -/
def Obligations.EveryCommandCompletesInItsFrame : Prop :=
  ∀ (i : Instr) (s : State), ∃ t : State, exec i s = .next t ∧
    t = { s with voices := t.voices, mvol := t.mvol, events := t.events } ∧
    t.voices.length = s.voices.length ∧
    (∃ j : Nat, ∀ k : Nat, k ≠ j → t.voices[k]? = s.voices[k]?) ∧
    (t.voices ≠ s.voices → (∃ n, i = .noteOn n) ∨ (∃ n, i = .noteOff n) ∨ (∃ c, i = .key c)) ∧
    (t.mvol ≠ s.mvol → ∃ v, i = .setMvol v) ∧
    (t.events = s.events ∨ ∃ e, t.events = s.events ++ [e]) ∧
    (∀ a, ringRead t a = ringRead s a) ∧ (∀ a, cmdRead t a = cmdRead s a)

/-! ## The drain and the step -/

/-- `drain()` (R242): every command between `cr` and `cw_s` is applied, in inbox order, each to the state the one
before left, and no others; at most `CMD_DEPTH - 1`; afterwards `cr` is `cw_s`. The words applied are a history of the
model (log 13). -/
def Obligations.DrainAppliesTheVisibleCommandsInOrder : Prop :=
  ∀ s : State, s.cr < s.cfg.cmdDepth → s.cwS < s.cfg.cmdDepth →
    (visibleWords s).length ≤ s.cfg.cmdDepth - 1 ∧
    ∃ t, applyCommands (visibleWords s) s = .next t ∧
      drain s = .next { t with cr := s.cwS, cmdApplied := s.cmdApplied ++ visibleWords s }

/-- One turn of the schedule (R12): a turn that is fixed is taken off and run, else the free choice is. -/
def Obligations.StepTakesTheNextTurn : Prop :=
  ∀ s : State,
    (∀ t rest, s.sched = t :: rest → step s = runTurn t { s with sched := rest }) ∧
    (s.sched = [] → step s = runAct (Config.freeAct s.choice) { s with choice := s.choice + 1 })

/-- A step runs the decoded command: where the next turn is an `A STEP` that is enabled and the inbox is not empty as
A sees it, the step is the meaning of the instruction that the entry at `cr` decodes to, then the advance of `cr`, the
rest of the drain and the rest of the sample step. -/
def Obligations.SampleStepRunsTheDecodedCommand : Prop :=
  ∀ (s : State) (rest : List Turn) (i : Instr), s.sched = .act .aStep :: rest → inReset s = false →
    s.outReady = true → s.cr ≠ s.cwS → 1 ≤ s.cfg.cmdDepth → decode (cmdRead s s.cr) = i →
    step s = andThen (exec i { s with sched := rest })
      (fun t => andThen (drainLoop (s.cfg.cmdDepth - 1)
        { t with cr := (t.cr + 1) % t.cfg.cmdDepth, cmdApplied := t.cmdApplied ++ [cmdRead s s.cr] }) render)

/-! ## The envelope -/

/-- Attack step (R150): the level after it is `floor(k * 32768 / A)` for the timer `k` it reaches, and at `k = A` the
state is Decay with the timer 0 and the level exactly 32768. Nothing else changes. -/
def Obligations.AttackStepRampsToFullLevel : Prop :=
  ∀ (c : Cfg) (v : Voice), c.wf = true → v.st = .attack → v.tmr.toNat < c.attack →
    ∃ v', envStep c v = .ok v' ∧ v'.lev.toNat = (v.tmr.toNat + 1) * 32768 / c.attack ∧
      (v.tmr.toNat + 1 = c.attack →
        v' = { v with lev := v'.lev, st := .decay, tmr := 0 } ∧ v'.lev.toNat = 32768) ∧
      (v.tmr.toNat + 1 ≠ c.attack →
        v' = { v with lev := v'.lev, tmr := v'.tmr } ∧ v'.tmr.toNat = v.tmr.toNat + 1)

/-- Decay step (R151): the level after it is `32768 - floor((32768 - S) * k / D)`, never below `S`, and at `k = D` the
state is Sustain with the timer 0 and the level exactly `S`. Nothing else changes. -/
def Obligations.DecayStepLandsOnTheSustainLevel : Prop :=
  ∀ (c : Cfg) (v : Voice), c.wf = true → v.st = .decay → v.tmr.toNat < c.decay →
    ∃ v', envStep c v = .ok v' ∧ v'.lev.toNat = 32768 - (32768 - c.sus) * (v.tmr.toNat + 1) / c.decay ∧
      c.sus ≤ v'.lev.toNat ∧
      (v.tmr.toNat + 1 = c.decay →
        v' = { v with lev := v'.lev, st := .sustain, tmr := 0 } ∧ v'.lev.toNat = c.sus) ∧
      (v.tmr.toNat + 1 ≠ c.decay →
        v' = { v with lev := v'.lev, tmr := v'.tmr } ∧ v'.tmr.toNat = v.tmr.toNat + 1)

/-- Sustain step (R152, R153): with the key held the level is `S` and nothing else changes; with the key released the
same step does what a Release step does to the voice in Release with the timer 0. -/
def Obligations.SustainStepHoldsOrReleases : Prop :=
  ∀ (c : Cfg) (v : Voice), c.wf = true → v.st = .sustain →
    (v.held = true → ∃ v', envStep c v = .ok v' ∧ v' = { v with lev := v'.lev } ∧ v'.lev.toNat = c.sus) ∧
    (v.held = false → envStep c v = envStep c { v with st := .release, tmr := 0 } ∧
      ∃ v', envStep c v = .ok v' ∧ v'.lev.toNat = c.sus - c.sus / c.release ∧
        (c.release ≠ 1 → v'.st = .release ∧ v'.tmr.toNat = 1 ∧ v'.note = v.note))

/-- Release step (R154): the level after it is `S - floor(S * k / R)`, and at `k = R` the level is 0, the note `NONE`,
the state Idle and the timer 0. Nothing else changes. -/
def Obligations.ReleaseStepFreesTheVoice : Prop :=
  ∀ (c : Cfg) (v : Voice), c.wf = true → v.st = .release → v.tmr.toNat < c.release →
    ∃ v', envStep c v = .ok v' ∧ v'.lev.toNat = c.sus - c.sus * (v.tmr.toNat + 1) / c.release ∧
      (v.tmr.toNat + 1 = c.release → v' = { v with lev := 0, note := none, st := .idle, tmr := 0 }) ∧
      (v.tmr.toNat + 1 ≠ c.release →
        v' = { v with lev := v'.lev, tmr := v'.tmr } ∧ v'.tmr.toNat = v.tmr.toNat + 1)

/-- No envelope step makes another transition than those of R148; with `R = 1` the step that leaves Sustain completes
the release as well (R153, R154). -/
def Obligations.EnvelopeMakesNoOtherTransition : Prop :=
  ∀ (c : Cfg) (v v' : Voice), envStep c v = .ok v' →
    v'.st = v.st ∨
    (v.st = .attack ∧ v'.st = .decay ∧ v.tmr.toNat + 1 = c.attack) ∨
    (v.st = .decay ∧ v'.st = .sustain ∧ v.tmr.toNat + 1 = c.decay) ∨
    (v.st = .sustain ∧ v'.st = .release ∧ v.held = false) ∨
    (v.st = .sustain ∧ v'.st = .idle ∧ v.held = false ∧ c.release = 1) ∨
    (v.st = .release ∧ v'.st = .idle ∧ v.tmr.toNat + 1 = c.release)

/-- The level stays in 0..32768 and is monotone in each segment: not falling in Attack, not rising elsewhere
(R158). -/
def Obligations.EnvelopeLevelStaysInRange : Prop :=
  ∀ (c : Cfg) (v v' : Voice), c.wf = true → VoiceOk c v → envStep c v = .ok v' →
    v'.lev.toNat ≤ 32768 ∧ (v.st = .attack → v.lev.toNat ≤ v'.lev.toNat) ∧
    (v.st ≠ .attack → v'.lev.toNat ≤ v.lev.toNat)

/-- The envelope timeline of R157, for a voice that a NOTE_ON has just started and whose NOTE_OFF is applied by the drain
of step `m`, with no later retrigger. -/
def Obligations.EnvelopeTimelineOfANote : Prop :=
  ∀ (c : Cfg) (v : Voice) (m r k : Nat), c.wf = true →
    v.st = .attack → v.tmr = 0 → v.held = true → 1 ≤ m → r = max m (c.attack + c.decay + 1) → 1 ≤ k →
    k ≤ r + c.release - 1 →
    ∃ u, envelopeAfter c v m k = .ok u ∧
      (k < c.attack → u.st = .attack ∧ u.lev.toNat = k * 32768 / c.attack) ∧
      (k = c.attack → u.st = .decay ∧ u.lev.toNat = 32768) ∧
      (c.attack < k → k < c.attack + c.decay → u.st = .decay ∧
        u.lev.toNat = 32768 - (32768 - c.sus) * (k - c.attack) / c.decay) ∧
      (c.attack + c.decay ≤ k → k < r → u.st = .sustain ∧ u.lev.toNat = c.sus) ∧
      (r ≤ k → k < r + c.release - 1 → u.st = .release ∧
        u.lev.toNat = c.sus - c.sus * (k + 1 - r) / c.release) ∧
      (k = r + c.release - 1 → u.st = .idle ∧ u.lev = 0 ∧ u.note = none)

/-! ## Oscillator, mix and combine -/

/-- The interpolated read (R127): the entry plus the fraction of the way to its wrapped successor, rounded down; it lies
between the two, and is the entry at fraction 0 (both also in R128). R128's last sentence, which R127 contradicts, is no
part of it (log 28). -/
def Obligations.InterpolationStaysBetweenItsEntries : Prop :=
  ∀ (c : Cfg) (pos : BitVec 32), c.wf = true → pos.toNat < c.wtLen * 65536 →
    let i := pos.toNat / 65536
    let j := (i + 1) % c.wtLen
    wtSample c pos = wtAt c i + (wtAt c j - wtAt c i) * (pos.toNat % 65536 : Nat) / 65536 ∧
    min (wtAt c i) (wtAt c j) ≤ wtSample c pos ∧ wtSample c pos ≤ max (wtAt c i) (wtAt c j) ∧
    (pos.toNat % 65536 = 0 → wtSample c pos = wtAt c i) ∧
    -32768 ≤ wtSample c pos ∧ wtSample c pos ≤ 32767

/-- A contribution (R171): the sample scaled by the level, rounded down; no larger than its sample, the sample itself at
full level, and in the 16-bit range. It is taken at the position before the advance and at the level after the envelope
step. -/
def Obligations.ContributionIsNoLargerThanItsSample : Prop :=
  ∀ (c : Cfg) (v : Voice), v.lev.toNat ≤ 32768 →
    contribution c v = wtSample c v.pos * v.lev.toNat / 32768 ∧
    |contribution c v| ≤ |wtSample c v.pos| ∧
    (v.lev.toNat = 32768 → contribution c v = wtSample c v.pos) ∧
    -32768 ≤ contribution c v ∧ contribution c v ≤ 32767 ∧
    ∀ u w, envStep c u = .ok v → advance c v = .ok w → renderVoice c u = .ok (w, contribution c v)

/-- The phase advance (R172): the sum modulo `WT_LEN * 2^16`; nothing else changes. -/
def Obligations.PhaseAdvanceWraps : Prop :=
  ∀ (c : Cfg) (v : Voice), c.wf = true →
    ∃ w, advance c v = .ok w ∧ w = { v with pos := w.pos } ∧
      w.pos.toNat = (v.pos.toNat + v.inc.toNat) % (c.wtLen * 65536)

/-- The per-voice loop (R173): an Idle voice is unchanged; every other voice takes its envelope step and then its phase
advance; the accumulator is the exact sum of the contributions. -/
def Obligations.VoiceLoopStepsEveryActiveVoice : Prop :=
  ∀ (c : Cfg) (vs ws : List Voice) (a : Int), renderVoices c vs 0 = .ok (ws, a) →
    ws.length = vs.length ∧ a = (contributions c vs).sum ∧
    ∀ (i : Nat) (v : Voice), vs[i]? = some v →
      (v.st = .idle → ws[i]? = some v) ∧
      (v.st ≠ .idle → ∃ v1 w, envStep c v = .ok v1 ∧ advance c v1 = .ok w ∧ ws[i]? = some w)

/-- The accumulator (R174): the exact sum of the contributions, in a range that fits a signed 20-bit register. -/
def Obligations.AccumulatorStaysInRange : Prop :=
  ∀ (c : Cfg) (vs ws : List Voice) (a : Int), c.wf = true → PoolOk c vs → renderVoices c vs 0 = .ok (ws, a) →
    a = (contributions c vs).sum ∧ -32768 * (c.nVoices : Int) ≤ a ∧ a ≤ 32767 * (c.nVoices : Int) ∧
    -524288 ≤ a ∧ a < 524288

/-- The normalisation update (R175): 1.0 with no active voice, else a step of `ALPHA` toward the target, truncated toward
zero. Its properties (R176): the step bound, no overshoot, the range, the dead band, the reset jump. -/
def Obligations.NormalisationStepsTowardItsTarget : Prop :=
  ∀ (c : Cfg) (n : Nat) (norm : BitVec 25) (target : BitVec 25), c.wf = true → norm.toNat ≤ 2 ^ 24 →
    (1 ≤ n → c.normLut[n - 1]? = some target → ∃ norm', normUpdate c n norm = .ok norm' ∧
      (norm'.toNat : Int) = norm.toNat + Int.tdiv (((target.toNat : Int) - norm.toNat) * c.alpha) 65536 ∧
      |(norm'.toNat : Int) - norm.toNat| * 65536 ≤ c.alpha * |(target.toNat : Int) - norm.toNat| ∧
      min norm.toNat target.toNat ≤ norm'.toNat ∧ norm'.toNat ≤ max norm.toNat target.toNat ∧
      norm'.toNat ≤ 2 ^ 24 ∧
      (|(target.toNat : Int) - norm.toNat| * c.alpha < 65536 → norm' = norm) ∧
      (c.alpha = 655 → norm' = norm → |(target.toNat : Int) - norm.toNat| ≤ 100)) ∧
    (∃ norm', normUpdate c 0 norm = .ok norm' ∧ norm'.toNat = 2 ^ 24)

/-- The factor, the master volume and the output (R177, R179, R180): `NORM` scales the sum and rounds down, `MVOL` scales
by hundredths and truncates toward zero, and the result saturates. Neither amplifies, 100 is unity, 0 mutes. -/
def Obligations.MasterVolumeNeverAmplifies : Prop :=
  ∀ (acc : Int) (norm : BitVec 25) (mvol : BitVec 7), norm.toNat ≤ 2 ^ 24 → mvol.toNat ≤ 100 →
    let t := normalised acc norm
    let u := scaled t mvol
    let y := synthOut acc norm mvol
    t = acc * norm.toNat / 16777216 ∧ |t| ≤ |acc| ∧
    u = Int.tdiv (t * mvol.toNat) 100 ∧ |u| ≤ |t| ∧ (mvol.toNat = 100 → u = t) ∧ (mvol.toNat = 0 → y = 0) ∧
    (u < -32768 → y = -32768) ∧ (-32768 ≤ u → u ≤ 32767 → y = u) ∧ (32767 < u → y = 32767)

/-- The combine stage (R222, R223): the bridge sample is scaled by `BGM_GAIN` and never amplified, added exactly, and
saturated. -/
def Obligations.CombineScalesAndSaturates : Prop :=
  ∀ (c : Cfg) (y : Int) (b : Word), c.wf = true →
    bgmScaled c b = b.toInt * c.bgmGain / 32768 ∧ |bgmScaled c b| ≤ |b.toInt| ∧
    (c.bgmGain = 32768 → bgmScaled c b = b.toInt) ∧
    (y + bgmScaled c b < -32768 → combine c y b = -32768) ∧
    (-32768 ≤ y + bgmScaled c b → y + bgmScaled c b ≤ 32767 → combine c y b = y + bgmScaled c b) ∧
    (32767 < y + bgmScaled c b → combine c y b = 32767)

/-! ## The sample step -/

/-- `A STEP` is the composition of its stages, in the order of R220. -/
def Obligations.SampleStepIsItsStagesInOrder : Prop :=
  ∀ (s t : State) (vs : List Voice) (acc : Int) (norm : BitVec 25) (y m : Int),
    drain s = .next t → renderVoices t.cfg t.voices 0 = .ok (vs, acc) →
    normUpdate t.cfg (activeCount t.voices) t.norm = .ok norm →
    y = sat16 (Int.tdiv (acc * norm.toNat / 16777216 * t.mvol.toNat) 100) →
    m = sat16 (y + (pop t).1.toInt * t.cfg.bgmGain / 32768) →
    aStep s = .next { (pop t).2 with
      voices := vs, norm := norm, actNotes := actMask vs,
      emitted := (pop t).2.emitted ++ [pairWord (BitVec.ofInt 16 m) (BitVec.ofInt 16 m)] }

/-- From a sound state, with the sink ready and no reset, a sample step completes: it emits exactly one pair, with equal
halves, drains the inbox as far as A sees it, and writes only what agent A owns (R220, R221, R224, R226). -/
def Obligations.SampleStepEmitsOnePair : Prop :=
  ∀ s : State, Inv s → inReset s = false → s.outReady = true →
    outValid s = true ∧ ∃ t m, runAct .aStep s = .next t ∧ t.emitted = s.emitted ++ [m] ∧
      m.extractLsb' 0 16 = m.extractLsb' 16 16 ∧ t.cr = s.cwS ∧
      t = { s with
        voices := t.voices, norm := t.norm, mvol := t.mvol, actNotes := t.actNotes, rd := t.rd, cr := t.cr,
        emitted := t.emitted, events := t.events, popped := t.popped, cmdApplied := t.cmdApplied } ∧
      (∀ a, ringRead t a = ringRead s a) ∧ (∀ a, cmdRead t a = cmdRead s a)

/-- After any sample step bit `n` of `ACT_NOTES` is set iff some voice that is not Idle then holds note `n` (R246). -/
def Obligations.ActNotesDescribesTheVoicesAfterTheStep : Prop :=
  ∀ (s t : State) (n : Note), aStep s = .next t →
    (t.actNotes.getLsbD n.val = true ↔ ∃ v ∈ t.voices, v.st ≠ .idle ∧ v.note = some n)

/-- After reset (R291) every voice is Idle, the bridge and the inbox are empty, `NORM` is 1.0 and `MVOL` is `MVOL_RESET`.
A sample step with every voice Idle and nothing visible to A, from any state, emits the pair (0, 0), sets `NORM` to 1.0
and leaves the voices as they are. So whatever the host and the other agents have done since reset, the first sample step
emits (0, 0) unless a command or a sample is visible to A by then. The event is that of R269 (log 11). -/
def Obligations.FirstPairAfterResetIsSilent : Prop :=
  (∀ c : Cfg, c.wf = true →
    (∀ v ∈ (State.resetWith c).voices, v.st = .idle) ∧ emptyA (State.resetWith c) = true ∧
    inboxPending (State.resetWith c) = false ∧ (State.resetWith c).norm.toNat = 2 ^ 24 ∧
    (State.resetWith c).mvol.toNat = c.mvolReset) ∧
  (∀ s : State, (∀ v ∈ s.voices, v.st = .idle) → inboxPending s = false → emptyA s = true →
    aStep s = .next { s with
      norm := BitVec.ofNat 25 (2 ^ 24), actNotes := 0, emitted := s.emitted ++ [0],
      events := s.events ++ [.ringEmpty] }) ∧
  (∀ (c : Cfg) (as : List Act) (s : State), c.wf = true → (∀ a ∈ as, a ≠ .aStep ∧ a ≠ .assertReset) →
    runActs as (State.resetWith c) = .next s →
    (∀ v ∈ s.voices, v.st = .idle) ∧ s.norm.toNat = 2 ^ 24 ∧ s.mvol.toNat = c.mvolReset ∧ s.emitted = [] ∧
    (inboxPending s = false → emptyA s = true → ∃ t, aStep s = .next t ∧ t.emitted = [0]))

/-! ## The bridge -/

/-- `W PUSH x` (R196, R195): the first copy is written at `wr`, or dropped with `E_RING_FULL` where W sees the ring
full; `dup_x` and `dup_v` are written either way; every other entry of RING and everything else is unchanged. The
samples presented, the events and the accepted writes are the model's fields (log 4, 11, 13). -/
def Obligations.PushWritesTheFirstCopy : Prop :=
  ∀ (s : State) (x : Word) (rest : List Word), inReset s = false → s.dupV = false → s.sampIn = x :: rest →
    ((s.wr + 1) % s.cfg.ringCap = s.rdS → runAct .wPush s = .next { s with
      sampIn := rest, dupX := x, dupV := true, events := s.events ++ [.ringFull x] }) ∧
    ((s.wr + 1) % s.cfg.ringCap ≠ s.rdS → ∃ t, runAct .wPush s = .next t ∧
      t = { s with
        sampIn := rest, dupX := x, dupV := true, ring := t.ring,
        wr := (s.wr + 1) % s.cfg.ringCap, accepted := s.accepted ++ [x] } ∧
      ringRead t s.wr = x ∧ ∀ a, a ≠ s.wr → ringRead t a = ringRead s a)

/-- `W DUP` (from R197, R195): the second copy is written at `wr`, or dropped, with a full test of its own; `dup_v` is
cleared; every other entry of RING and everything else is unchanged. That `dup_x` too is unchanged, where
93_implementation_defined.md section 2 allows any value, is the model's reading (log 29). The events and the accepted
writes are histories of the model (log 11, 13). -/
def Obligations.DupWritesTheSecondCopy : Prop :=
  ∀ s : State, inReset s = false → s.dupV = true →
    ((s.wr + 1) % s.cfg.ringCap = s.rdS → runAct .wDup s = .next { s with
      dupV := false, events := s.events ++ [.ringFull s.dupX] }) ∧
    ((s.wr + 1) % s.cfg.ringCap ≠ s.rdS → ∃ t, runAct .wDup s = .next t ∧
      t = { s with
        dupV := false, ring := t.ring,
        wr := (s.wr + 1) % s.cfg.ringCap, accepted := s.accepted ++ [s.dupX] } ∧
      ringRead t s.wr = s.dupX ∧ ∀ a, a ≠ s.wr → ringRead t a = ringRead s a)

/-- `pop()` (R198): silence where A sees the ring empty, with `rd` unchanged; else the entry at `rd`, and `rd`
advances. The events and the pops are histories of the model (log 11, 13). -/
def Obligations.PopReturnsTheEntryOrSilence : Prop :=
  ∀ s : State,
    (s.rd = s.wrS → pop s = (0, { s with events := s.events ++ [.ringEmpty] })) ∧
    (s.rd ≠ s.wrS → pop s = (ringRead s s.rd,
      { s with rd := (s.rd + 1) % s.cfg.ringCap, popped := s.popped ++ [ringRead s s.rd] }))

/-- The bridge guarantees of R70, for any step from a sound state that is no reset: accepted writes and data-returning
pops only grow, the pops are a prefix of the accepted writes, and every entry written and not yet popped still holds
the value written for it. The sequences are the model's histories (log 13). -/
def Obligations.BridgeNeverOverwritesUnreadData : Prop :=
  ∀ s t : State, Inv s → step s = .next t → t.epoch = s.epoch →
    s.accepted <+: t.accepted ∧ s.popped <+: t.popped ∧ t.popped <+: t.accepted ∧
    ∀ k, t.popped.length ≤ k → k < t.accepted.length →
      some (ringRead t (k % t.cfg.ringCap)) = t.accepted[k]?

/-- With both copies current (from R201, as 90_conflicts.md C1 resolves it): elements written into an empty ring, no
more than it holds, are popped in order; of more, the first `C - 1` are accepted and the rest dropped, and the
accepted ones stay. The sequences of accepted writes and of pops are the model's histories (log 13). -/
def Obligations.RingReturnsWhatItAcceptedInOrder : Prop :=
  ∀ (s : State) (xs : List Word), s.cfg.wf = true → s.wr < s.cfg.ringCap → s.rd = s.wr → s.rdS = s.wr →
    let u := xs.foldl (fun v x => elemWrite x v) s
    u.accepted = s.accepted ++ xs.take (s.cfg.ringCap - 1) ∧
    (∀ k, k < xs.length → k < s.cfg.ringCap - 1 →
      memGet u.ring ((s.wr + k) % s.cfg.ringCap) = xs[k]?) ∧
    (xs.length ≤ s.cfg.ringCap - 1 →
      ((fun v => (pop v).2)^[xs.length] (syncWr u)).popped = s.popped ++ xs)

/-! ## The control port -/

/-- `C <command>` (R240): the word presented is stored undecoded at `cw`, and `cw` advances; every other entry of CMDQ
and everything else is unchanged. The words presented and the words written are the model's fields (log 4, 13). -/
def Obligations.CommandWriteStoresTheWord : Prop :=
  ∀ (s : State) (w : Word) (rest : List Word), inReset s = false → (s.cw + 1) % s.cfg.cmdDepth ≠ s.crS →
    s.cmdIn = w :: rest →
    ∃ t, runAct .cWrite s = .next t ∧
      t = { s with
        cmdIn := rest, cmdq := t.cmdq,
        cw := (s.cw + 1) % s.cfg.cmdDepth, cmdWritten := s.cmdWritten ++ [w] } ∧
      cmdRead t s.cw = w ∧ ∀ a, a ≠ s.cw → cmdRead t a = cmdRead s a

/-- `C READ a` (R247, R248): address 0 returns the last snapshot in bits 12..0 with bits 15..13 zero, addresses 1 to 3
return 0; no state changes. The values read are a history of the model (log 12). -/
def Obligations.StatusReadReturnsTheSnapshot : Prop :=
  ∀ (s : State) (a : BitVec 2), inReset s = false →
    ∃ w : Word, runAct (.cRead a) s = .next { s with reads := s.reads ++ [w] } ∧
      (a = 0 → w.toNat = s.actS.toNat) ∧ (a ≠ 0 → w = 0)

/-- The copy steps (R200, R244): always enabled outside reset; each copies its source and changes nothing else. -/
def Obligations.CopyStepsCopyTheirSource : Prop :=
  ∀ s : State, inReset s = false →
    runAct .syncWr s = .next { s with wrS := s.wr } ∧ runAct .syncRd s = .next { s with rdS := s.rd } ∧
    runAct .syncCw s = .next { s with cwS := s.cw } ∧ runAct .syncCr s = .next { s with crS := s.cr } ∧
    runAct .syncAct s = .next { s with actS := s.actNotes }

/-- The holds (R271): C while `cmd_ready` is 0, the push while `in_ready` is 0, A while the sink is not ready; the step
does nothing, so the word and the sample presented are still there. The model's own: the turn passes (log 6). -/
def Obligations.HeldStepsChangeNothing : Prop :=
  ∀ s : State,
    ((s.cw + 1) % s.cfg.cmdDepth = s.crS → cmdReady s = false ∧ runAct .cWrite s = .next s) ∧
    (s.dupV = true → inReady s = false ∧ runAct .wPush s = .next s) ∧
    (s.outReady = false → runAct .aStep s = .next s)

/-- The command guarantees of R72, for any step from a sound state that is no reset: words written and words applied
only grow, the words applied are a prefix of the words written, and no word that the control plane presents is lost.
The sequences are the model's (log 4, 13). -/
def Obligations.CommandsAreAppliedOnceInOrder : Prop :=
  ∀ s t : State, Inv s → step s = .next t → t.epoch = s.epoch →
    s.cmdWritten <+: t.cmdWritten ∧ s.cmdApplied <+: t.cmdApplied ∧ t.cmdApplied <+: t.cmdWritten ∧
    (s.cmdWritten ++ s.cmdIn) <+: (t.cmdWritten ++ t.cmdIn)

/-- A command written is applied by the first sample step after an `S CW` (R242, R250): after the copy and one sample
step every word written so far has been applied. The sequences are the model's histories (log 13). -/
def Obligations.CommandsAreAppliedAfterACopyAndAStep : Prop :=
  ∀ s : State, Inv s → inReset s = false → s.outReady = true →
    ∃ t u, runAct .syncCw s = .next t ∧ runAct .aStep t = .next u ∧
      u.cmdApplied = s.cmdWritten ∧ u.cmdWritten = s.cmdWritten ∧ u.cr = s.cw

/-- Under the fairness of R75, where no reset is asserted and the sink accepts again and again, every command word
written is applied at last and every sample accepted is popped at last; nothing is said of how late. The sequences and
the reading of fairness are the model's (log 13, 24). -/
def Obligations.WhatIsWrittenIsSeenAtLast : Prop :=
  ∀ (τ : Nat → Turn) (r : Nat → State), IsRun τ r → Fair τ r → Inv (r 0) → (∀ n, inReset (r n) = false) →
    (∀ n, ∃ m, n ≤ m ∧ (r m).outReady = true) →
    ∀ n, (∃ m, n ≤ m ∧ (r n).cmdWritten <+: (r m).cmdApplied) ∧
      (∃ m, n ≤ m ∧ (r n).accepted <+: (r m).popped)

/-! ## The whole machine -/

/-- Write ownership (R39): each piece of state is written only by the steps listed there; reset apart. -/
def Obligations.EachAgentWritesOnlyItsOwn : Prop :=
  ∀ (a : Act) (s t : State), runAct a s = .next t → a ≠ .assertReset →
    (a ≠ .aStep → t.voices = s.voices ∧ t.norm = s.norm ∧ t.mvol = s.mvol ∧ t.actNotes = s.actNotes ∧
      t.rd = s.rd ∧ t.cr = s.cr) ∧
    (a ≠ .wPush → a ≠ .wDup → t.wr = s.wr ∧ t.dupV = s.dupV ∧ t.dupX = s.dupX ∧ t.ring = s.ring) ∧
    (a ≠ .cWrite → t.cw = s.cw ∧ t.cmdq = s.cmdq) ∧
    (a ≠ .syncWr → t.wrS = s.wrS) ∧ (a ≠ .syncRd → t.rdS = s.rdS) ∧ (a ≠ .syncCw → t.cwS = s.cwS) ∧
    (a ≠ .syncCr → t.crS = s.crS) ∧ (a ≠ .syncAct → t.actS = s.actS)

/-- The configuration is read-only (from R35): no step but the integrator's own choice changes it. That this choice is
refused unless all three resets are asserted is the model's reading (log 16) of R270 and R297. -/
def Obligations.ConfigurationIsReadOnly : Prop :=
  (∀ s t : State, step s = .next t → changesConfig (nextTurn s) = false → t.cfg = s.cfg) ∧
  (∀ (s : State) (c : Cfg), (s.rstA && s.rstW && s.rstC) = false → changeConfig c s = .refused .configChangeInRun)

/-- The invariant of the machine holds at the release of reset, for every well-formed configuration. Its clause on what
the block holds during reset is the model's (log 30) and says nothing of this state, in which no reset is asserted. -/
def Obligations.ResetStateIsSound : Prop :=
  (∀ c : Cfg, c.wf = true → Inv (State.resetWith c)) ∧ Inv State.reset

/-- The invariant of the machine is kept by every step, from every state that meets it, under every schedule
(from R25, R29, R61, R71, R72, R158, R176). Its clause that the block holds its reset values throughout a reset is the
model's choice: R290 gives them at the release only (log 30). -/
def Obligations.EveryStepKeepsTheStateSound : Prop :=
  ∀ s t : State, Inv s → step s = .next t → Inv t

/-- Nothing stops the machine (R260): from a sound state every act of an agent or of the host gives a next state. -/
def Obligations.NoActStopsASoundMachine : Prop :=
  ∀ s : State, Inv s → isAct (nextTurn s) = true → ∃ t, step s = .next t

/-- The histories are never read: states that differ only in their histories take steps that differ only in their
histories. The histories are the model's own (log 11, 12, 13). -/
def Obligations.HistoriesAreNeverRead : Prop :=
  ∀ s t : State, forgetHistories s = forgetHistories t →
    sameOutcome (fun u v => forgetHistories u = forgetHistories v) (step s) (step t)

/-- The value of `dup_x` while no second copy is pending is never observed (R293): states that differ only in it take
steps that differ at most in it, and not once a copy is pending. The value reset leaves in it is the model's (log 7). -/
def Obligations.IdlePendingSampleIsUnobservable : Prop :=
  ∀ s t : State, sameButIdleDup s t → sameOutcome sameButIdleDup (step s) (step t)

/-! ## Reset -/

/-- The reset values of R40. -/
def Obligations.ResetValuesOfTheManual : Prop :=
  ∀ c : Cfg, c.wf = true →
    (State.resetWith c).voices.length = c.nVoices ∧
    (∀ v ∈ (State.resetWith c).voices, noteCode v.note = 0xF ∧ stateCode v.st = 0 ∧ v.lev = 0 ∧ v.tmr = 0 ∧
      v.pos = 0 ∧ v.inc = 0 ∧ v.held = false) ∧
    (State.resetWith c).norm.toNat = 2 ^ 24 ∧ (State.resetWith c).mvol.toNat = c.mvolReset ∧
    (State.resetWith c).actNotes = 0 ∧ (State.resetWith c).wr = 0 ∧ (State.resetWith c).rd = 0 ∧
    (State.resetWith c).wrS = 0 ∧ (State.resetWith c).rdS = 0 ∧ (State.resetWith c).dupV = false ∧
    (State.resetWith c).cw = 0 ∧ (State.resetWith c).cr = 0 ∧ (State.resetWith c).cwS = 0 ∧
    (State.resetWith c).crS = 0 ∧ (State.resetWith c).actS = 0

/-- Asserting the three resets together and releasing them in any order (from R290) answers the reset state of the
configuration. Every register of the block but `dup_x` then holds its value of R40. The rest is the model's choice:
`dup_x`, which R40 leaves unspecified, is 0 (log 7); RING and CMDQ list no entry and the number of the reset goes up,
so that their contents, unspecified too, are free values (log 8); the four histories since reset are empty (log 13);
the order of release is free (log 14); and the host's inputs, the schedule, the counter `choice` and the observed
sequences stay (log 15). -/
def Obligations.ResetRestartsTheBlock : Prop :=
  ∀ (s : State) (d1 d2 d3 : Domain), [d1, d2, d3].Perm [.audio, .producer, .control] →
    andThen (runAct .assertReset s) (fun t => andThen (runAct (.releaseReset d1) t) (fun t =>
      andThen (runAct (.releaseReset d2) t) (runAct (.releaseReset d3)))) =
    .next { State.resetWith s.cfg with
      cmdIn := s.cmdIn, sampIn := s.sampIn, outReady := s.outReady, sched := s.sched, choice := s.choice,
      epoch := s.epoch + 1, emitted := s.emitted, reads := s.reads, events := s.events }

/-- While reset is asserted no agent steps, and `out_valid`, `in_ready` and `cmd_ready` are 0 (R290). -/
def Obligations.NoAgentStepsDuringReset : Prop :=
  ∀ (s : State) (a : Act), inReset s = true → isAgentAct a = true →
    runAct a s = .next s ∧ outValid s = false ∧ inReady s = false ∧ cmdReady s = false

/-- The refusals (from R8, R270, R292, R297): an ill-formed configuration has no initial state; a partial reset and a
change of configuration in a run have no meaning. The model's readings: one input asserted alone while another domain
is out of reset is a partial reset (log 14, 27), and a change is one in a run while any reset is released (log 16,
27). -/
def Obligations.RefusedRunsOfTheManual : Prop :=
  (∀ c : Cfg, c.wf = false → boot c = .refused .illFormedConfig) ∧
  (∀ (s : State) (d e : Domain), e ≠ d → rstLine s e = false → assertOne d s = .refused .partialReset) ∧
  (∀ (s : State) (d : Domain) (c : Cfg), rstLine s d = false → changeConfig c s = .refused .configChangeInRun)
end

