-- ==== Sys2Proof/Laws/Arith.lean ====
section
/-! SUPPORT. The small lemmas of the arithmetic primitives (00_scope.md R10, R11). -/

namespace Sys2Proof.Machine

/-- `fdiv` is the greatest `q` with `q * b ≤ a` (R11). -/
theorem le_fdiv_iff {a b q : Int} (hb : 0 < b) : q ≤ fdiv a b ↔ q * b ≤ a :=
  Int.le_ediv_iff_mul_le hb

theorem fdiv_lt_iff {a b q : Int} (hb : 0 < b) : fdiv a b < q ↔ a < q * b := by
  rw [← not_le, ← not_le, le_fdiv_iff hb]

theorem fdiv_nonneg {a b : Int} (ha : 0 ≤ a) (hb : 0 < b) : 0 ≤ fdiv a b :=
  Int.ediv_nonneg ha hb.le

theorem fdiv_le_of_le_mul {a b q : Int} (hb : 0 < b) (h : a ≤ q * b) : fdiv a b ≤ q :=
  Int.ediv_le_of_le_mul hb h

theorem fdiv_mono {a a' b : Int} (hb : 0 < b) (h : a ≤ a') : fdiv a b ≤ fdiv a' b :=
  Int.ediv_le_ediv hb h

@[simp] theorem fdiv_zero (b : Int) : fdiv 0 b = 0 := Int.zero_ediv b

theorem mul_fdiv_cancel {a b : Int} (hb : 0 < b) : fdiv (a * b) b = a :=
  Int.mul_ediv_cancel a hb.ne'

/-- `tdiv` on the sign of its argument (R11). -/
theorem tdiv_of_nonneg {a b : Int} (ha : 0 ≤ a) : tdiv a b = fdiv a b := Int.tdiv_eq_ediv_of_nonneg ha

theorem tdiv_neg (a b : Int) : tdiv (-a) b = -tdiv a b := Int.neg_tdiv a b

/-- The quotient times the divisor does not pass the dividend in size (R11, R176 item 1). -/
theorem abs_tdiv_mul_le {a b : Int} (hb : 0 < b) : |tdiv a b| * b ≤ |a| := by
  unfold tdiv
  have h : Int.tdiv a b * b + Int.tmod a b = a := Int.tdiv_mul_add_tmod a b
  rcases le_total 0 a with ha | ha
  · have h1 : 0 ≤ Int.tdiv a b := Int.tdiv_nonneg ha hb.le
    have h2 : 0 ≤ Int.tmod a b := Int.tmod_nonneg b ha
    rw [abs_of_nonneg h1, abs_of_nonneg ha]; omega
  · have h1 : Int.tdiv a b ≤ 0 := by
      have := Int.tdiv_nonneg (a := -a) (by omega) hb.le
      rw [Int.neg_tdiv] at this; omega
    have h2 : Int.tmod a b ≤ 0 := by
      have := Int.tmod_nonneg b (a := -a) (by omega)
      rw [Int.neg_tmod] at this; omega
    rw [abs_of_nonpos h1, abs_of_nonpos ha, neg_mul]; omega

theorem sat16_bounds (x : Int) : -32768 ≤ sat16 x ∧ sat16 x ≤ 32767 := by
  unfold sat16; omega

theorem sat16_of_fits {x : Int} (h1 : -32768 ≤ x) (h2 : x ≤ 32767) : sat16 x = x := by
  unfold sat16; omega

/-- Everything `fitU` can answer: the value that was stored (R10). -/
theorem fitU_ok {w : Nat} {r : Stored} {x : Int} {v : BitVec w} (h : fitU w r x = .ok v) :
    (v.toNat : Int) = x := by
  cases x with
  | ofNat n =>
    simp only [fitU] at h
    split at h
    · rename_i hn
      cases h
      rw [BitVec.toNat_ofNat, Nat.mod_eq_of_lt hn]; rfl
    · cases h
  | negSucc n => cases h

/-- A natural number that fits is stored (R10). -/
theorem fitU_natCast {w : Nat} {r : Stored} {n : Nat} (h : n < 2 ^ w) :
    fitU w r (n : Int) = .ok (BitVec.ofNat w n) := by
  simp only [fitU, if_pos h]

/-- A result that fits is stored (R10). -/
theorem fitU_of_fits {w : Nat} {r : Stored} {x : Int} (h0 : 0 ≤ x) (h1 : x < ((2 ^ w : Nat) : Int)) :
    ∃ v : BitVec w, fitU w r x = .ok v ∧ (v.toNat : Int) = x := by
  obtain ⟨n, rfl⟩ := Int.eq_ofNat_of_zero_le h0
  have h := fitU_natCast (w := w) (r := r) (n := n) (by exact_mod_cast h1)
  exact ⟨_, h, fitU_ok h⟩

/-- The sample stored for a value in the 16-bit range reads back as that value (20_memory.md R63). -/
theorem sample16_toInt {x : Int} (h1 : -32768 ≤ x) (h2 : x ≤ 32767) : (sample16 x).toInt = x := by
  unfold sample16
  rw [BitVec.toInt_ofInt]
  exact Int.bmod_eq_of_le (by norm_num; omega) (by norm_num; omega)

end Sys2Proof.Machine
end

