-- ==== Sys2Proof/Laws/Memory.lean ====
section
/-! SUPPORT. The laws of a memory of entries (20_memory.md R60, R64, R65): a read after a write, the canonical
form. -/

namespace Sys2Proof.Machine

@[simp] theorem memGet_nil (i : Nat) : memGet [] i = none := rfl

theorem memGet_cons (k : Nat) (x : Word) (m : Memory) (i : Nat) :
    memGet ((k, x) :: m) i = if k = i then some x else memGet m i := rfl

/-- A read of the entry just written gives the value written. -/
@[simp] theorem memGet_memPut_same (m : Memory) (i : Nat) (x : Word) : memGet (memPut m i x) i = some x := by
  induction m with
  | nil => simp [memPut, memGet]
  | cons e m ih =>
    obtain ⟨k, y⟩ := e
    unfold memPut
    split_ifs with h1 h2
    · simp [memGet_cons]
    · simp [memGet_cons]
    · rw [memGet_cons, if_neg (by omega), ih]

/-- A write leaves every other entry alone. -/
theorem memGet_memPut_other (m : Memory) {i j : Nat} (x : Word) (h : i ≠ j) :
    memGet (memPut m i x) j = memGet m j := by
  induction m with
  | nil => simp [memPut, memGet, h]
  | cons e m ih =>
    obtain ⟨k, y⟩ := e
    unfold memPut
    split_ifs with h1 h2
    · rw [memGet_cons, if_neg h]
    · subst h2
      rw [memGet_cons, memGet_cons, if_neg h, if_neg h]
    · rw [memGet_cons, memGet_cons, ih]

theorem mem_memPut {m : Memory} {i : Nat} {x : Word} {e : Nat × Word} (h : e ∈ memPut m i x) :
    e = (i, x) ∨ e ∈ m := by
  induction m with
  | nil => simpa [memPut] using h
  | cons d m ih =>
    obtain ⟨k, y⟩ := d
    unfold memPut at h
    split_ifs at h with h1 h2
    · simpa using h
    · rcases List.mem_cons.1 h with h | h
      · exact .inl h
      · exact .inr (List.mem_cons_of_mem _ h)
    · rcases List.mem_cons.1 h with h | h
      · exact .inr (h ▸ List.mem_cons_self)
      · exact (ih h).imp_right (List.mem_cons_of_mem _)

/-- A write keeps the canonical form. -/
theorem memPut_wf {m : Memory} (h : Memory.wf m) (i : Nat) (x : Word) : Memory.wf (memPut m i x) := by
  induction m with
  | nil => simp [memPut]
  | cons d m ih =>
    obtain ⟨k, y⟩ := d
    obtain ⟨h1, h2⟩ := List.pairwise_cons.1 h
    unfold memPut
    split_ifs with c1 c2
    · refine List.pairwise_cons.2 ⟨fun e he => ?_, h⟩
      rcases List.mem_cons.1 he with rfl | he
      · exact c1
      · exact lt_trans c1 (h1 e he)
    · exact List.pairwise_cons.2 ⟨fun e he => by have := h1 e he; simp at *; omega, h2⟩
    · refine List.pairwise_cons.2 ⟨fun e he => ?_, ih h2⟩
      rcases mem_memPut he with rfl | he
      · simp; omega
      · exact h1 e he

/-- Reset memory is in canonical form. -/
theorem reset_memory_wf (c : Cfg) : Memory.wf (State.resetWith c).ring ∧ Memory.wf (State.resetWith c).cmdq :=
  ⟨List.Pairwise.nil, List.Pairwise.nil⟩

end Sys2Proof.Machine
end

