-- ==== Sys2Proof/Laws/Fifo.lean ====
section
/-! SUPPORT. The counting invariant of 20_memory.md R71 is kept by each of the four things that happen to a ring:
an accepted write, a data-returning take, and the two copies. -/

namespace Sys2Proof.Machine

variable {cap wr rd wrS rdS : Nat} {m : Memory} {written taken : List Word}

theorem fifo_reset (cap : Nat) (h : 0 < cap) : FifoOk cap 0 0 0 0 [] [] [] :=
  ⟨0, 0, by simp; omega⟩

/-- The cursors are in range (20_memory.md R61). -/
theorem FifoOk.cursors_lt (h : FifoOk cap wr rd wrS rdS m written taken) (hc : 0 < cap) :
    wr < cap ∧ rd < cap ∧ wrS < cap ∧ rdS < cap := by
  obtain ⟨nW', nR', rfl, rfl, rfl, rfl, -⟩ := h
  exact ⟨Nat.mod_lt _ hc, Nat.mod_lt _ hc, Nat.mod_lt _ hc, Nat.mod_lt _ hc⟩

/-- The write copy: `nW' := nW` (20_memory.md R71). -/
theorem FifoOk.syncWrite (h : FifoOk cap wr rd wrS rdS m written taken) :
    FifoOk cap wr rd wr rdS m written taken := by
  obtain ⟨nW', nR', h1, h2, h3, h4, h5, h6, h7, h8, h9, h10⟩ := h
  exact ⟨written.length, nR', h1, h2, h1, h4, h5, by omega, le_rfl, h8, h9, h10⟩

/-- The read copy: `nR' := nR` (20_memory.md R71). -/
theorem FifoOk.syncRead (h : FifoOk cap wr rd wrS rdS m written taken) :
    FifoOk cap wr rd wrS rd m written taken := by
  obtain ⟨nW', nR', h1, h2, h3, h4, h5, h6, h7, h8, h9, h10⟩ := h
  exact ⟨nW', taken.length, h1, h2, h3, h2, le_rfl, h6, h7, by omega, h9, h10⟩

/-- Two counts less than `cap` apart with the same remainder are equal. -/
theorem eq_of_mod_eq {a b : Nat} (h : a % cap = b % cap) (hab : a ≤ b) (hlt : b < a + cap) : a = b := by
  have h1 := Nat.div_add_mod a cap
  have h2 := Nat.div_add_mod b cap
  rw [h] at h1
  have h3 : cap * (b / cap) = cap * (a / cap) + (b - a) := by omega
  rcases Nat.lt_or_ge (a / cap) (b / cap) with h4 | h4
  · have : cap * (a / cap + 1) ≤ cap * (b / cap) := Nat.mul_le_mul_left _ h4
    rw [Nat.mul_add] at this; omega
  · have : cap * (b / cap) ≤ cap * (a / cap) := Nat.mul_le_mul_left _ h4
    omega

/-- A write that does not find the ring full: the entry written is none that is still to be taken
(20_memory.md R70 item 1, R71). -/
theorem FifoOk.write (h : FifoOk cap wr rd wrS rdS m written taken) (hfull : (wr + 1) % cap ≠ rdS) (x : Word) :
    FifoOk cap ((wr + 1) % cap) rd wrS rdS (memPut m wr x) (written ++ [x]) taken := by
  obtain ⟨nW', nR', h1, h2, h3, h4, h5, h6, h7, h8, h9, h10⟩ := h
  have hroom : written.length + 1 ≠ nR' + cap := by
    intro he
    apply hfull
    rw [h1, h4, Nat.mod_add_mod, he, Nat.add_mod_right]
  refine ⟨nW', nR', ?_, h2, h3, h4, h5, h6, ?_, ?_, h9.trans (List.prefix_append _ _), ?_⟩
  · rw [h1, Nat.mod_add_mod, List.length_append, List.length_singleton]
  · rw [List.length_append]; omega
  · rw [List.length_append, List.length_singleton]; omega
  · intro k hk1 hk2
    rw [List.length_append, List.length_singleton] at hk2
    rcases Nat.lt_or_ge k written.length with hk | hk
    · have hne : wr ≠ k % cap := by
        intro he
        have := eq_of_mod_eq (cap := cap) (a := k) (b := written.length) (by omega) (by omega) (by omega)
        omega
      rw [memGet_memPut_other _ _ hne, h10 k hk1 hk, List.getElem?_append_left hk]
    · have : k = written.length := by omega
      subst this
      rw [← h1, memGet_memPut_same, List.getElem?_concat_length]

/-- A take that does not find the ring empty gives the oldest value written and not yet taken
(20_memory.md R70 items 2 and 3, R71). -/
theorem FifoOk.take (h : FifoOk cap wr rd wrS rdS m written taken) (hempty : rd ≠ wrS) :
    ∃ x, memGet m rd = some x ∧ written[taken.length]? = some x ∧
      FifoOk cap wr ((rd + 1) % cap) wrS rdS m written (taken ++ [x]) := by
  obtain ⟨nW', nR', h1, h2, h3, h4, h5, h6, h7, h8, h9, h10⟩ := h
  have hlt : taken.length < nW' := by
    rcases Nat.lt_or_ge taken.length nW' with h | h
    · exact h
    · exact absurd (by rw [h2, h3, Nat.le_antisymm h6 h]) hempty
  have hlt' : taken.length < written.length := by omega
  obtain ⟨rest, hrest⟩ := h9
  cases rest with
  | nil => rw [List.append_nil] at hrest; rw [hrest] at hlt'; omega
  | cons x rest =>
    have hx : written[taken.length]? = some x := by
      rw [← hrest, List.getElem?_append_right le_rfl]; simp
    refine ⟨x, ?_, hx, nW', nR', h1, ?_, h3, h4, ?_, ?_, h7, h8, ⟨rest, ?_⟩, ?_⟩
    · rw [h2, h10 _ le_rfl hlt', hx]
    · rw [h2, Nat.mod_add_mod, List.length_append, List.length_singleton]
    · rw [List.length_append]; omega
    · rw [List.length_append, List.length_singleton]; omega
    · rw [← hrest]; simp
    · intro k hk1 hk2
      rw [List.length_append, List.length_singleton] at hk1
      exact h10 k (by omega) hk2

end Sys2Proof.Machine
end

