-- ==== Sys2Proof/Laws/State.lean ====
section
/-! SUPPORT. One lemma for each field of State and each named update of it, true by definition, so that no later
proof unfolds a record update. -/

namespace Sys2Proof.Machine

@[simp] theorem logEvent_cfg (s : State) (e : Event) : (logEvent s e).cfg = s.cfg := rfl
@[simp] theorem logEvent_voices (s : State) (e : Event) : (logEvent s e).voices = s.voices := rfl
@[simp] theorem logEvent_norm (s : State) (e : Event) : (logEvent s e).norm = s.norm := rfl
@[simp] theorem logEvent_mvol (s : State) (e : Event) : (logEvent s e).mvol = s.mvol := rfl
@[simp] theorem logEvent_actNotes (s : State) (e : Event) : (logEvent s e).actNotes = s.actNotes := rfl
@[simp] theorem logEvent_rd (s : State) (e : Event) : (logEvent s e).rd = s.rd := rfl
@[simp] theorem logEvent_wrS (s : State) (e : Event) : (logEvent s e).wrS = s.wrS := rfl
@[simp] theorem logEvent_cr (s : State) (e : Event) : (logEvent s e).cr = s.cr := rfl
@[simp] theorem logEvent_cwS (s : State) (e : Event) : (logEvent s e).cwS = s.cwS := rfl
@[simp] theorem logEvent_wr (s : State) (e : Event) : (logEvent s e).wr = s.wr := rfl
@[simp] theorem logEvent_rdS (s : State) (e : Event) : (logEvent s e).rdS = s.rdS := rfl
@[simp] theorem logEvent_dupV (s : State) (e : Event) : (logEvent s e).dupV = s.dupV := rfl
@[simp] theorem logEvent_dupX (s : State) (e : Event) : (logEvent s e).dupX = s.dupX := rfl
@[simp] theorem logEvent_cw (s : State) (e : Event) : (logEvent s e).cw = s.cw := rfl
@[simp] theorem logEvent_crS (s : State) (e : Event) : (logEvent s e).crS = s.crS := rfl
@[simp] theorem logEvent_actS (s : State) (e : Event) : (logEvent s e).actS = s.actS := rfl
@[simp] theorem logEvent_ring (s : State) (e : Event) : (logEvent s e).ring = s.ring := rfl
@[simp] theorem logEvent_cmdq (s : State) (e : Event) : (logEvent s e).cmdq = s.cmdq := rfl
@[simp] theorem logEvent_rstA (s : State) (e : Event) : (logEvent s e).rstA = s.rstA := rfl
@[simp] theorem logEvent_rstW (s : State) (e : Event) : (logEvent s e).rstW = s.rstW := rfl
@[simp] theorem logEvent_rstC (s : State) (e : Event) : (logEvent s e).rstC = s.rstC := rfl
@[simp] theorem logEvent_cmdIn (s : State) (e : Event) : (logEvent s e).cmdIn = s.cmdIn := rfl
@[simp] theorem logEvent_sampIn (s : State) (e : Event) : (logEvent s e).sampIn = s.sampIn := rfl
@[simp] theorem logEvent_outReady (s : State) (e : Event) : (logEvent s e).outReady = s.outReady := rfl
@[simp] theorem logEvent_sched (s : State) (e : Event) : (logEvent s e).sched = s.sched := rfl
@[simp] theorem logEvent_choice (s : State) (e : Event) : (logEvent s e).choice = s.choice := rfl
@[simp] theorem logEvent_epoch (s : State) (e : Event) : (logEvent s e).epoch = s.epoch := rfl
@[simp] theorem logEvent_emitted (s : State) (e : Event) : (logEvent s e).emitted = s.emitted := rfl
@[simp] theorem logEvent_reads (s : State) (e : Event) : (logEvent s e).reads = s.reads := rfl
@[simp] theorem logEvent_events (s : State) (e : Event) : (logEvent s e).events = s.events ++ [e] := rfl
@[simp] theorem logEvent_accepted (s : State) (e : Event) : (logEvent s e).accepted = s.accepted := rfl
@[simp] theorem logEvent_popped (s : State) (e : Event) : (logEvent s e).popped = s.popped := rfl
@[simp] theorem logEvent_cmdWritten (s : State) (e : Event) : (logEvent s e).cmdWritten = s.cmdWritten := rfl
@[simp] theorem logEvent_cmdApplied (s : State) (e : Event) : (logEvent s e).cmdApplied = s.cmdApplied := rfl

@[simp] theorem emit_cfg (l r : Word) (s : State) : (emit l r s).cfg = s.cfg := rfl
@[simp] theorem emit_voices (l r : Word) (s : State) : (emit l r s).voices = s.voices := rfl
@[simp] theorem emit_norm (l r : Word) (s : State) : (emit l r s).norm = s.norm := rfl
@[simp] theorem emit_mvol (l r : Word) (s : State) : (emit l r s).mvol = s.mvol := rfl
@[simp] theorem emit_actNotes (l r : Word) (s : State) : (emit l r s).actNotes = s.actNotes := rfl
@[simp] theorem emit_rd (l r : Word) (s : State) : (emit l r s).rd = s.rd := rfl
@[simp] theorem emit_wrS (l r : Word) (s : State) : (emit l r s).wrS = s.wrS := rfl
@[simp] theorem emit_cr (l r : Word) (s : State) : (emit l r s).cr = s.cr := rfl
@[simp] theorem emit_cwS (l r : Word) (s : State) : (emit l r s).cwS = s.cwS := rfl
@[simp] theorem emit_wr (l r : Word) (s : State) : (emit l r s).wr = s.wr := rfl
@[simp] theorem emit_rdS (l r : Word) (s : State) : (emit l r s).rdS = s.rdS := rfl
@[simp] theorem emit_dupV (l r : Word) (s : State) : (emit l r s).dupV = s.dupV := rfl
@[simp] theorem emit_dupX (l r : Word) (s : State) : (emit l r s).dupX = s.dupX := rfl
@[simp] theorem emit_cw (l r : Word) (s : State) : (emit l r s).cw = s.cw := rfl
@[simp] theorem emit_crS (l r : Word) (s : State) : (emit l r s).crS = s.crS := rfl
@[simp] theorem emit_actS (l r : Word) (s : State) : (emit l r s).actS = s.actS := rfl
@[simp] theorem emit_ring (l r : Word) (s : State) : (emit l r s).ring = s.ring := rfl
@[simp] theorem emit_cmdq (l r : Word) (s : State) : (emit l r s).cmdq = s.cmdq := rfl
@[simp] theorem emit_rstA (l r : Word) (s : State) : (emit l r s).rstA = s.rstA := rfl
@[simp] theorem emit_rstW (l r : Word) (s : State) : (emit l r s).rstW = s.rstW := rfl
@[simp] theorem emit_rstC (l r : Word) (s : State) : (emit l r s).rstC = s.rstC := rfl
@[simp] theorem emit_cmdIn (l r : Word) (s : State) : (emit l r s).cmdIn = s.cmdIn := rfl
@[simp] theorem emit_sampIn (l r : Word) (s : State) : (emit l r s).sampIn = s.sampIn := rfl
@[simp] theorem emit_outReady (l r : Word) (s : State) : (emit l r s).outReady = s.outReady := rfl
@[simp] theorem emit_sched (l r : Word) (s : State) : (emit l r s).sched = s.sched := rfl
@[simp] theorem emit_choice (l r : Word) (s : State) : (emit l r s).choice = s.choice := rfl
@[simp] theorem emit_epoch (l r : Word) (s : State) : (emit l r s).epoch = s.epoch := rfl
@[simp] theorem emit_emitted (l r : Word) (s : State) : (emit l r s).emitted = s.emitted ++ [pairWord l r] := rfl
@[simp] theorem emit_reads (l r : Word) (s : State) : (emit l r s).reads = s.reads := rfl
@[simp] theorem emit_events (l r : Word) (s : State) : (emit l r s).events = s.events := rfl
@[simp] theorem emit_accepted (l r : Word) (s : State) : (emit l r s).accepted = s.accepted := rfl
@[simp] theorem emit_popped (l r : Word) (s : State) : (emit l r s).popped = s.popped := rfl
@[simp] theorem emit_cmdWritten (l r : Word) (s : State) : (emit l r s).cmdWritten = s.cmdWritten := rfl
@[simp] theorem emit_cmdApplied (l r : Word) (s : State) : (emit l r s).cmdApplied = s.cmdApplied := rfl

@[simp] theorem advanceCr_cfg (w : Word) (s : State) : (advanceCr w s).cfg = s.cfg := rfl
@[simp] theorem advanceCr_voices (w : Word) (s : State) : (advanceCr w s).voices = s.voices := rfl
@[simp] theorem advanceCr_norm (w : Word) (s : State) : (advanceCr w s).norm = s.norm := rfl
@[simp] theorem advanceCr_mvol (w : Word) (s : State) : (advanceCr w s).mvol = s.mvol := rfl
@[simp] theorem advanceCr_actNotes (w : Word) (s : State) : (advanceCr w s).actNotes = s.actNotes := rfl
@[simp] theorem advanceCr_rd (w : Word) (s : State) : (advanceCr w s).rd = s.rd := rfl
@[simp] theorem advanceCr_wrS (w : Word) (s : State) : (advanceCr w s).wrS = s.wrS := rfl
@[simp] theorem advanceCr_cr (w : Word) (s : State) : (advanceCr w s).cr = (s.cr + 1) % s.cfg.cmdDepth := rfl
@[simp] theorem advanceCr_cwS (w : Word) (s : State) : (advanceCr w s).cwS = s.cwS := rfl
@[simp] theorem advanceCr_wr (w : Word) (s : State) : (advanceCr w s).wr = s.wr := rfl
@[simp] theorem advanceCr_rdS (w : Word) (s : State) : (advanceCr w s).rdS = s.rdS := rfl
@[simp] theorem advanceCr_dupV (w : Word) (s : State) : (advanceCr w s).dupV = s.dupV := rfl
@[simp] theorem advanceCr_dupX (w : Word) (s : State) : (advanceCr w s).dupX = s.dupX := rfl
@[simp] theorem advanceCr_cw (w : Word) (s : State) : (advanceCr w s).cw = s.cw := rfl
@[simp] theorem advanceCr_crS (w : Word) (s : State) : (advanceCr w s).crS = s.crS := rfl
@[simp] theorem advanceCr_actS (w : Word) (s : State) : (advanceCr w s).actS = s.actS := rfl
@[simp] theorem advanceCr_ring (w : Word) (s : State) : (advanceCr w s).ring = s.ring := rfl
@[simp] theorem advanceCr_cmdq (w : Word) (s : State) : (advanceCr w s).cmdq = s.cmdq := rfl
@[simp] theorem advanceCr_rstA (w : Word) (s : State) : (advanceCr w s).rstA = s.rstA := rfl
@[simp] theorem advanceCr_rstW (w : Word) (s : State) : (advanceCr w s).rstW = s.rstW := rfl
@[simp] theorem advanceCr_rstC (w : Word) (s : State) : (advanceCr w s).rstC = s.rstC := rfl
@[simp] theorem advanceCr_cmdIn (w : Word) (s : State) : (advanceCr w s).cmdIn = s.cmdIn := rfl
@[simp] theorem advanceCr_sampIn (w : Word) (s : State) : (advanceCr w s).sampIn = s.sampIn := rfl
@[simp] theorem advanceCr_outReady (w : Word) (s : State) : (advanceCr w s).outReady = s.outReady := rfl
@[simp] theorem advanceCr_sched (w : Word) (s : State) : (advanceCr w s).sched = s.sched := rfl
@[simp] theorem advanceCr_choice (w : Word) (s : State) : (advanceCr w s).choice = s.choice := rfl
@[simp] theorem advanceCr_epoch (w : Word) (s : State) : (advanceCr w s).epoch = s.epoch := rfl
@[simp] theorem advanceCr_emitted (w : Word) (s : State) : (advanceCr w s).emitted = s.emitted := rfl
@[simp] theorem advanceCr_reads (w : Word) (s : State) : (advanceCr w s).reads = s.reads := rfl
@[simp] theorem advanceCr_events (w : Word) (s : State) : (advanceCr w s).events = s.events := rfl
@[simp] theorem advanceCr_accepted (w : Word) (s : State) : (advanceCr w s).accepted = s.accepted := rfl
@[simp] theorem advanceCr_popped (w : Word) (s : State) : (advanceCr w s).popped = s.popped := rfl
@[simp] theorem advanceCr_cmdWritten (w : Word) (s : State) : (advanceCr w s).cmdWritten = s.cmdWritten := rfl
@[simp] theorem advanceCr_cmdApplied (w : Word) (s : State) : (advanceCr w s).cmdApplied = s.cmdApplied ++ [w] := rfl

@[simp] theorem cWrite_cfg (w : Word) (s : State) : (cWrite w s).cfg = s.cfg := rfl
@[simp] theorem cWrite_voices (w : Word) (s : State) : (cWrite w s).voices = s.voices := rfl
@[simp] theorem cWrite_norm (w : Word) (s : State) : (cWrite w s).norm = s.norm := rfl
@[simp] theorem cWrite_mvol (w : Word) (s : State) : (cWrite w s).mvol = s.mvol := rfl
@[simp] theorem cWrite_actNotes (w : Word) (s : State) : (cWrite w s).actNotes = s.actNotes := rfl
@[simp] theorem cWrite_rd (w : Word) (s : State) : (cWrite w s).rd = s.rd := rfl
@[simp] theorem cWrite_wrS (w : Word) (s : State) : (cWrite w s).wrS = s.wrS := rfl
@[simp] theorem cWrite_cr (w : Word) (s : State) : (cWrite w s).cr = s.cr := rfl
@[simp] theorem cWrite_cwS (w : Word) (s : State) : (cWrite w s).cwS = s.cwS := rfl
@[simp] theorem cWrite_wr (w : Word) (s : State) : (cWrite w s).wr = s.wr := rfl
@[simp] theorem cWrite_rdS (w : Word) (s : State) : (cWrite w s).rdS = s.rdS := rfl
@[simp] theorem cWrite_dupV (w : Word) (s : State) : (cWrite w s).dupV = s.dupV := rfl
@[simp] theorem cWrite_dupX (w : Word) (s : State) : (cWrite w s).dupX = s.dupX := rfl
@[simp] theorem cWrite_cw (w : Word) (s : State) : (cWrite w s).cw = (s.cw + 1) % s.cfg.cmdDepth := rfl
@[simp] theorem cWrite_crS (w : Word) (s : State) : (cWrite w s).crS = s.crS := rfl
@[simp] theorem cWrite_actS (w : Word) (s : State) : (cWrite w s).actS = s.actS := rfl
@[simp] theorem cWrite_ring (w : Word) (s : State) : (cWrite w s).ring = s.ring := rfl
@[simp] theorem cWrite_cmdq (w : Word) (s : State) : (cWrite w s).cmdq = memPut s.cmdq s.cw w := rfl
@[simp] theorem cWrite_rstA (w : Word) (s : State) : (cWrite w s).rstA = s.rstA := rfl
@[simp] theorem cWrite_rstW (w : Word) (s : State) : (cWrite w s).rstW = s.rstW := rfl
@[simp] theorem cWrite_rstC (w : Word) (s : State) : (cWrite w s).rstC = s.rstC := rfl
@[simp] theorem cWrite_cmdIn (w : Word) (s : State) : (cWrite w s).cmdIn = s.cmdIn := rfl
@[simp] theorem cWrite_sampIn (w : Word) (s : State) : (cWrite w s).sampIn = s.sampIn := rfl
@[simp] theorem cWrite_outReady (w : Word) (s : State) : (cWrite w s).outReady = s.outReady := rfl
@[simp] theorem cWrite_sched (w : Word) (s : State) : (cWrite w s).sched = s.sched := rfl
@[simp] theorem cWrite_choice (w : Word) (s : State) : (cWrite w s).choice = s.choice := rfl
@[simp] theorem cWrite_epoch (w : Word) (s : State) : (cWrite w s).epoch = s.epoch := rfl
@[simp] theorem cWrite_emitted (w : Word) (s : State) : (cWrite w s).emitted = s.emitted := rfl
@[simp] theorem cWrite_reads (w : Word) (s : State) : (cWrite w s).reads = s.reads := rfl
@[simp] theorem cWrite_events (w : Word) (s : State) : (cWrite w s).events = s.events := rfl
@[simp] theorem cWrite_accepted (w : Word) (s : State) : (cWrite w s).accepted = s.accepted := rfl
@[simp] theorem cWrite_popped (w : Word) (s : State) : (cWrite w s).popped = s.popped := rfl
@[simp] theorem cWrite_cmdWritten (w : Word) (s : State) : (cWrite w s).cmdWritten = s.cmdWritten ++ [w] := rfl
@[simp] theorem cWrite_cmdApplied (w : Word) (s : State) : (cWrite w s).cmdApplied = s.cmdApplied := rfl

@[simp] theorem cRead_cfg (a : BitVec 2) (s : State) : (cRead a s).cfg = s.cfg := rfl
@[simp] theorem cRead_voices (a : BitVec 2) (s : State) : (cRead a s).voices = s.voices := rfl
@[simp] theorem cRead_norm (a : BitVec 2) (s : State) : (cRead a s).norm = s.norm := rfl
@[simp] theorem cRead_mvol (a : BitVec 2) (s : State) : (cRead a s).mvol = s.mvol := rfl
@[simp] theorem cRead_actNotes (a : BitVec 2) (s : State) : (cRead a s).actNotes = s.actNotes := rfl
@[simp] theorem cRead_rd (a : BitVec 2) (s : State) : (cRead a s).rd = s.rd := rfl
@[simp] theorem cRead_wrS (a : BitVec 2) (s : State) : (cRead a s).wrS = s.wrS := rfl
@[simp] theorem cRead_cr (a : BitVec 2) (s : State) : (cRead a s).cr = s.cr := rfl
@[simp] theorem cRead_cwS (a : BitVec 2) (s : State) : (cRead a s).cwS = s.cwS := rfl
@[simp] theorem cRead_wr (a : BitVec 2) (s : State) : (cRead a s).wr = s.wr := rfl
@[simp] theorem cRead_rdS (a : BitVec 2) (s : State) : (cRead a s).rdS = s.rdS := rfl
@[simp] theorem cRead_dupV (a : BitVec 2) (s : State) : (cRead a s).dupV = s.dupV := rfl
@[simp] theorem cRead_dupX (a : BitVec 2) (s : State) : (cRead a s).dupX = s.dupX := rfl
@[simp] theorem cRead_cw (a : BitVec 2) (s : State) : (cRead a s).cw = s.cw := rfl
@[simp] theorem cRead_crS (a : BitVec 2) (s : State) : (cRead a s).crS = s.crS := rfl
@[simp] theorem cRead_actS (a : BitVec 2) (s : State) : (cRead a s).actS = s.actS := rfl
@[simp] theorem cRead_ring (a : BitVec 2) (s : State) : (cRead a s).ring = s.ring := rfl
@[simp] theorem cRead_cmdq (a : BitVec 2) (s : State) : (cRead a s).cmdq = s.cmdq := rfl
@[simp] theorem cRead_rstA (a : BitVec 2) (s : State) : (cRead a s).rstA = s.rstA := rfl
@[simp] theorem cRead_rstW (a : BitVec 2) (s : State) : (cRead a s).rstW = s.rstW := rfl
@[simp] theorem cRead_rstC (a : BitVec 2) (s : State) : (cRead a s).rstC = s.rstC := rfl
@[simp] theorem cRead_cmdIn (a : BitVec 2) (s : State) : (cRead a s).cmdIn = s.cmdIn := rfl
@[simp] theorem cRead_sampIn (a : BitVec 2) (s : State) : (cRead a s).sampIn = s.sampIn := rfl
@[simp] theorem cRead_outReady (a : BitVec 2) (s : State) : (cRead a s).outReady = s.outReady := rfl
@[simp] theorem cRead_sched (a : BitVec 2) (s : State) : (cRead a s).sched = s.sched := rfl
@[simp] theorem cRead_choice (a : BitVec 2) (s : State) : (cRead a s).choice = s.choice := rfl
@[simp] theorem cRead_epoch (a : BitVec 2) (s : State) : (cRead a s).epoch = s.epoch := rfl
@[simp] theorem cRead_emitted (a : BitVec 2) (s : State) : (cRead a s).emitted = s.emitted := rfl
@[simp] theorem cRead_reads (a : BitVec 2) (s : State) : (cRead a s).reads = s.reads ++ [csr s a] := rfl
@[simp] theorem cRead_events (a : BitVec 2) (s : State) : (cRead a s).events = s.events := rfl
@[simp] theorem cRead_accepted (a : BitVec 2) (s : State) : (cRead a s).accepted = s.accepted := rfl
@[simp] theorem cRead_popped (a : BitVec 2) (s : State) : (cRead a s).popped = s.popped := rfl
@[simp] theorem cRead_cmdWritten (a : BitVec 2) (s : State) : (cRead a s).cmdWritten = s.cmdWritten := rfl
@[simp] theorem cRead_cmdApplied (a : BitVec 2) (s : State) : (cRead a s).cmdApplied = s.cmdApplied := rfl

@[simp] theorem syncWr_cfg (s : State) : (syncWr s).cfg = s.cfg := rfl
@[simp] theorem syncWr_voices (s : State) : (syncWr s).voices = s.voices := rfl
@[simp] theorem syncWr_norm (s : State) : (syncWr s).norm = s.norm := rfl
@[simp] theorem syncWr_mvol (s : State) : (syncWr s).mvol = s.mvol := rfl
@[simp] theorem syncWr_actNotes (s : State) : (syncWr s).actNotes = s.actNotes := rfl
@[simp] theorem syncWr_rd (s : State) : (syncWr s).rd = s.rd := rfl
@[simp] theorem syncWr_wrS (s : State) : (syncWr s).wrS = s.wr := rfl
@[simp] theorem syncWr_cr (s : State) : (syncWr s).cr = s.cr := rfl
@[simp] theorem syncWr_cwS (s : State) : (syncWr s).cwS = s.cwS := rfl
@[simp] theorem syncWr_wr (s : State) : (syncWr s).wr = s.wr := rfl
@[simp] theorem syncWr_rdS (s : State) : (syncWr s).rdS = s.rdS := rfl
@[simp] theorem syncWr_dupV (s : State) : (syncWr s).dupV = s.dupV := rfl
@[simp] theorem syncWr_dupX (s : State) : (syncWr s).dupX = s.dupX := rfl
@[simp] theorem syncWr_cw (s : State) : (syncWr s).cw = s.cw := rfl
@[simp] theorem syncWr_crS (s : State) : (syncWr s).crS = s.crS := rfl
@[simp] theorem syncWr_actS (s : State) : (syncWr s).actS = s.actS := rfl
@[simp] theorem syncWr_ring (s : State) : (syncWr s).ring = s.ring := rfl
@[simp] theorem syncWr_cmdq (s : State) : (syncWr s).cmdq = s.cmdq := rfl
@[simp] theorem syncWr_rstA (s : State) : (syncWr s).rstA = s.rstA := rfl
@[simp] theorem syncWr_rstW (s : State) : (syncWr s).rstW = s.rstW := rfl
@[simp] theorem syncWr_rstC (s : State) : (syncWr s).rstC = s.rstC := rfl
@[simp] theorem syncWr_cmdIn (s : State) : (syncWr s).cmdIn = s.cmdIn := rfl
@[simp] theorem syncWr_sampIn (s : State) : (syncWr s).sampIn = s.sampIn := rfl
@[simp] theorem syncWr_outReady (s : State) : (syncWr s).outReady = s.outReady := rfl
@[simp] theorem syncWr_sched (s : State) : (syncWr s).sched = s.sched := rfl
@[simp] theorem syncWr_choice (s : State) : (syncWr s).choice = s.choice := rfl
@[simp] theorem syncWr_epoch (s : State) : (syncWr s).epoch = s.epoch := rfl
@[simp] theorem syncWr_emitted (s : State) : (syncWr s).emitted = s.emitted := rfl
@[simp] theorem syncWr_reads (s : State) : (syncWr s).reads = s.reads := rfl
@[simp] theorem syncWr_events (s : State) : (syncWr s).events = s.events := rfl
@[simp] theorem syncWr_accepted (s : State) : (syncWr s).accepted = s.accepted := rfl
@[simp] theorem syncWr_popped (s : State) : (syncWr s).popped = s.popped := rfl
@[simp] theorem syncWr_cmdWritten (s : State) : (syncWr s).cmdWritten = s.cmdWritten := rfl
@[simp] theorem syncWr_cmdApplied (s : State) : (syncWr s).cmdApplied = s.cmdApplied := rfl

@[simp] theorem syncRd_cfg (s : State) : (syncRd s).cfg = s.cfg := rfl
@[simp] theorem syncRd_voices (s : State) : (syncRd s).voices = s.voices := rfl
@[simp] theorem syncRd_norm (s : State) : (syncRd s).norm = s.norm := rfl
@[simp] theorem syncRd_mvol (s : State) : (syncRd s).mvol = s.mvol := rfl
@[simp] theorem syncRd_actNotes (s : State) : (syncRd s).actNotes = s.actNotes := rfl
@[simp] theorem syncRd_rd (s : State) : (syncRd s).rd = s.rd := rfl
@[simp] theorem syncRd_wrS (s : State) : (syncRd s).wrS = s.wrS := rfl
@[simp] theorem syncRd_cr (s : State) : (syncRd s).cr = s.cr := rfl
@[simp] theorem syncRd_cwS (s : State) : (syncRd s).cwS = s.cwS := rfl
@[simp] theorem syncRd_wr (s : State) : (syncRd s).wr = s.wr := rfl
@[simp] theorem syncRd_rdS (s : State) : (syncRd s).rdS = s.rd := rfl
@[simp] theorem syncRd_dupV (s : State) : (syncRd s).dupV = s.dupV := rfl
@[simp] theorem syncRd_dupX (s : State) : (syncRd s).dupX = s.dupX := rfl
@[simp] theorem syncRd_cw (s : State) : (syncRd s).cw = s.cw := rfl
@[simp] theorem syncRd_crS (s : State) : (syncRd s).crS = s.crS := rfl
@[simp] theorem syncRd_actS (s : State) : (syncRd s).actS = s.actS := rfl
@[simp] theorem syncRd_ring (s : State) : (syncRd s).ring = s.ring := rfl
@[simp] theorem syncRd_cmdq (s : State) : (syncRd s).cmdq = s.cmdq := rfl
@[simp] theorem syncRd_rstA (s : State) : (syncRd s).rstA = s.rstA := rfl
@[simp] theorem syncRd_rstW (s : State) : (syncRd s).rstW = s.rstW := rfl
@[simp] theorem syncRd_rstC (s : State) : (syncRd s).rstC = s.rstC := rfl
@[simp] theorem syncRd_cmdIn (s : State) : (syncRd s).cmdIn = s.cmdIn := rfl
@[simp] theorem syncRd_sampIn (s : State) : (syncRd s).sampIn = s.sampIn := rfl
@[simp] theorem syncRd_outReady (s : State) : (syncRd s).outReady = s.outReady := rfl
@[simp] theorem syncRd_sched (s : State) : (syncRd s).sched = s.sched := rfl
@[simp] theorem syncRd_choice (s : State) : (syncRd s).choice = s.choice := rfl
@[simp] theorem syncRd_epoch (s : State) : (syncRd s).epoch = s.epoch := rfl
@[simp] theorem syncRd_emitted (s : State) : (syncRd s).emitted = s.emitted := rfl
@[simp] theorem syncRd_reads (s : State) : (syncRd s).reads = s.reads := rfl
@[simp] theorem syncRd_events (s : State) : (syncRd s).events = s.events := rfl
@[simp] theorem syncRd_accepted (s : State) : (syncRd s).accepted = s.accepted := rfl
@[simp] theorem syncRd_popped (s : State) : (syncRd s).popped = s.popped := rfl
@[simp] theorem syncRd_cmdWritten (s : State) : (syncRd s).cmdWritten = s.cmdWritten := rfl
@[simp] theorem syncRd_cmdApplied (s : State) : (syncRd s).cmdApplied = s.cmdApplied := rfl

@[simp] theorem syncCw_cfg (s : State) : (syncCw s).cfg = s.cfg := rfl
@[simp] theorem syncCw_voices (s : State) : (syncCw s).voices = s.voices := rfl
@[simp] theorem syncCw_norm (s : State) : (syncCw s).norm = s.norm := rfl
@[simp] theorem syncCw_mvol (s : State) : (syncCw s).mvol = s.mvol := rfl
@[simp] theorem syncCw_actNotes (s : State) : (syncCw s).actNotes = s.actNotes := rfl
@[simp] theorem syncCw_rd (s : State) : (syncCw s).rd = s.rd := rfl
@[simp] theorem syncCw_wrS (s : State) : (syncCw s).wrS = s.wrS := rfl
@[simp] theorem syncCw_cr (s : State) : (syncCw s).cr = s.cr := rfl
@[simp] theorem syncCw_cwS (s : State) : (syncCw s).cwS = s.cw := rfl
@[simp] theorem syncCw_wr (s : State) : (syncCw s).wr = s.wr := rfl
@[simp] theorem syncCw_rdS (s : State) : (syncCw s).rdS = s.rdS := rfl
@[simp] theorem syncCw_dupV (s : State) : (syncCw s).dupV = s.dupV := rfl
@[simp] theorem syncCw_dupX (s : State) : (syncCw s).dupX = s.dupX := rfl
@[simp] theorem syncCw_cw (s : State) : (syncCw s).cw = s.cw := rfl
@[simp] theorem syncCw_crS (s : State) : (syncCw s).crS = s.crS := rfl
@[simp] theorem syncCw_actS (s : State) : (syncCw s).actS = s.actS := rfl
@[simp] theorem syncCw_ring (s : State) : (syncCw s).ring = s.ring := rfl
@[simp] theorem syncCw_cmdq (s : State) : (syncCw s).cmdq = s.cmdq := rfl
@[simp] theorem syncCw_rstA (s : State) : (syncCw s).rstA = s.rstA := rfl
@[simp] theorem syncCw_rstW (s : State) : (syncCw s).rstW = s.rstW := rfl
@[simp] theorem syncCw_rstC (s : State) : (syncCw s).rstC = s.rstC := rfl
@[simp] theorem syncCw_cmdIn (s : State) : (syncCw s).cmdIn = s.cmdIn := rfl
@[simp] theorem syncCw_sampIn (s : State) : (syncCw s).sampIn = s.sampIn := rfl
@[simp] theorem syncCw_outReady (s : State) : (syncCw s).outReady = s.outReady := rfl
@[simp] theorem syncCw_sched (s : State) : (syncCw s).sched = s.sched := rfl
@[simp] theorem syncCw_choice (s : State) : (syncCw s).choice = s.choice := rfl
@[simp] theorem syncCw_epoch (s : State) : (syncCw s).epoch = s.epoch := rfl
@[simp] theorem syncCw_emitted (s : State) : (syncCw s).emitted = s.emitted := rfl
@[simp] theorem syncCw_reads (s : State) : (syncCw s).reads = s.reads := rfl
@[simp] theorem syncCw_events (s : State) : (syncCw s).events = s.events := rfl
@[simp] theorem syncCw_accepted (s : State) : (syncCw s).accepted = s.accepted := rfl
@[simp] theorem syncCw_popped (s : State) : (syncCw s).popped = s.popped := rfl
@[simp] theorem syncCw_cmdWritten (s : State) : (syncCw s).cmdWritten = s.cmdWritten := rfl
@[simp] theorem syncCw_cmdApplied (s : State) : (syncCw s).cmdApplied = s.cmdApplied := rfl

@[simp] theorem syncCr_cfg (s : State) : (syncCr s).cfg = s.cfg := rfl
@[simp] theorem syncCr_voices (s : State) : (syncCr s).voices = s.voices := rfl
@[simp] theorem syncCr_norm (s : State) : (syncCr s).norm = s.norm := rfl
@[simp] theorem syncCr_mvol (s : State) : (syncCr s).mvol = s.mvol := rfl
@[simp] theorem syncCr_actNotes (s : State) : (syncCr s).actNotes = s.actNotes := rfl
@[simp] theorem syncCr_rd (s : State) : (syncCr s).rd = s.rd := rfl
@[simp] theorem syncCr_wrS (s : State) : (syncCr s).wrS = s.wrS := rfl
@[simp] theorem syncCr_cr (s : State) : (syncCr s).cr = s.cr := rfl
@[simp] theorem syncCr_cwS (s : State) : (syncCr s).cwS = s.cwS := rfl
@[simp] theorem syncCr_wr (s : State) : (syncCr s).wr = s.wr := rfl
@[simp] theorem syncCr_rdS (s : State) : (syncCr s).rdS = s.rdS := rfl
@[simp] theorem syncCr_dupV (s : State) : (syncCr s).dupV = s.dupV := rfl
@[simp] theorem syncCr_dupX (s : State) : (syncCr s).dupX = s.dupX := rfl
@[simp] theorem syncCr_cw (s : State) : (syncCr s).cw = s.cw := rfl
@[simp] theorem syncCr_crS (s : State) : (syncCr s).crS = s.cr := rfl
@[simp] theorem syncCr_actS (s : State) : (syncCr s).actS = s.actS := rfl
@[simp] theorem syncCr_ring (s : State) : (syncCr s).ring = s.ring := rfl
@[simp] theorem syncCr_cmdq (s : State) : (syncCr s).cmdq = s.cmdq := rfl
@[simp] theorem syncCr_rstA (s : State) : (syncCr s).rstA = s.rstA := rfl
@[simp] theorem syncCr_rstW (s : State) : (syncCr s).rstW = s.rstW := rfl
@[simp] theorem syncCr_rstC (s : State) : (syncCr s).rstC = s.rstC := rfl
@[simp] theorem syncCr_cmdIn (s : State) : (syncCr s).cmdIn = s.cmdIn := rfl
@[simp] theorem syncCr_sampIn (s : State) : (syncCr s).sampIn = s.sampIn := rfl
@[simp] theorem syncCr_outReady (s : State) : (syncCr s).outReady = s.outReady := rfl
@[simp] theorem syncCr_sched (s : State) : (syncCr s).sched = s.sched := rfl
@[simp] theorem syncCr_choice (s : State) : (syncCr s).choice = s.choice := rfl
@[simp] theorem syncCr_epoch (s : State) : (syncCr s).epoch = s.epoch := rfl
@[simp] theorem syncCr_emitted (s : State) : (syncCr s).emitted = s.emitted := rfl
@[simp] theorem syncCr_reads (s : State) : (syncCr s).reads = s.reads := rfl
@[simp] theorem syncCr_events (s : State) : (syncCr s).events = s.events := rfl
@[simp] theorem syncCr_accepted (s : State) : (syncCr s).accepted = s.accepted := rfl
@[simp] theorem syncCr_popped (s : State) : (syncCr s).popped = s.popped := rfl
@[simp] theorem syncCr_cmdWritten (s : State) : (syncCr s).cmdWritten = s.cmdWritten := rfl
@[simp] theorem syncCr_cmdApplied (s : State) : (syncCr s).cmdApplied = s.cmdApplied := rfl

@[simp] theorem syncAct_cfg (s : State) : (syncAct s).cfg = s.cfg := rfl
@[simp] theorem syncAct_voices (s : State) : (syncAct s).voices = s.voices := rfl
@[simp] theorem syncAct_norm (s : State) : (syncAct s).norm = s.norm := rfl
@[simp] theorem syncAct_mvol (s : State) : (syncAct s).mvol = s.mvol := rfl
@[simp] theorem syncAct_actNotes (s : State) : (syncAct s).actNotes = s.actNotes := rfl
@[simp] theorem syncAct_rd (s : State) : (syncAct s).rd = s.rd := rfl
@[simp] theorem syncAct_wrS (s : State) : (syncAct s).wrS = s.wrS := rfl
@[simp] theorem syncAct_cr (s : State) : (syncAct s).cr = s.cr := rfl
@[simp] theorem syncAct_cwS (s : State) : (syncAct s).cwS = s.cwS := rfl
@[simp] theorem syncAct_wr (s : State) : (syncAct s).wr = s.wr := rfl
@[simp] theorem syncAct_rdS (s : State) : (syncAct s).rdS = s.rdS := rfl
@[simp] theorem syncAct_dupV (s : State) : (syncAct s).dupV = s.dupV := rfl
@[simp] theorem syncAct_dupX (s : State) : (syncAct s).dupX = s.dupX := rfl
@[simp] theorem syncAct_cw (s : State) : (syncAct s).cw = s.cw := rfl
@[simp] theorem syncAct_crS (s : State) : (syncAct s).crS = s.crS := rfl
@[simp] theorem syncAct_actS (s : State) : (syncAct s).actS = s.actNotes := rfl
@[simp] theorem syncAct_ring (s : State) : (syncAct s).ring = s.ring := rfl
@[simp] theorem syncAct_cmdq (s : State) : (syncAct s).cmdq = s.cmdq := rfl
@[simp] theorem syncAct_rstA (s : State) : (syncAct s).rstA = s.rstA := rfl
@[simp] theorem syncAct_rstW (s : State) : (syncAct s).rstW = s.rstW := rfl
@[simp] theorem syncAct_rstC (s : State) : (syncAct s).rstC = s.rstC := rfl
@[simp] theorem syncAct_cmdIn (s : State) : (syncAct s).cmdIn = s.cmdIn := rfl
@[simp] theorem syncAct_sampIn (s : State) : (syncAct s).sampIn = s.sampIn := rfl
@[simp] theorem syncAct_outReady (s : State) : (syncAct s).outReady = s.outReady := rfl
@[simp] theorem syncAct_sched (s : State) : (syncAct s).sched = s.sched := rfl
@[simp] theorem syncAct_choice (s : State) : (syncAct s).choice = s.choice := rfl
@[simp] theorem syncAct_epoch (s : State) : (syncAct s).epoch = s.epoch := rfl
@[simp] theorem syncAct_emitted (s : State) : (syncAct s).emitted = s.emitted := rfl
@[simp] theorem syncAct_reads (s : State) : (syncAct s).reads = s.reads := rfl
@[simp] theorem syncAct_events (s : State) : (syncAct s).events = s.events := rfl
@[simp] theorem syncAct_accepted (s : State) : (syncAct s).accepted = s.accepted := rfl
@[simp] theorem syncAct_popped (s : State) : (syncAct s).popped = s.popped := rfl
@[simp] theorem syncAct_cmdWritten (s : State) : (syncAct s).cmdWritten = s.cmdWritten := rfl
@[simp] theorem syncAct_cmdApplied (s : State) : (syncAct s).cmdApplied = s.cmdApplied := rfl

end Sys2Proof.Machine
end

