-- ==== Sys2Proof/Laws/Bridge.lean ====
section
/-! SUPPORT. What the bridge's operations can do (43_stream_bridge.md R195 to R198). -/

namespace Sys2Proof.Machine

/-- The bridge part of the invariant (20_memory.md R71). -/
def BridgeOk (s : State) : Prop :=
  FifoOk s.cfg.ringCap s.wr s.rd s.wrS s.rdS s.ring s.accepted s.popped

theorem fullW_iff (s : State) : fullW s = true ↔ (s.wr + 1) % s.cfg.ringCap = s.rdS := by simp [fullW]

theorem emptyA_iff (s : State) : emptyA s = true ↔ s.rd = s.wrS := by simp [emptyA]

/-- What an element write can do (R195). -/
theorem elemWrite_cases (x : Word) (s : State) :
    ((s.wr + 1) % s.cfg.ringCap = s.rdS ∧ elemWrite x s = logEvent s (.ringFull x)) ∨
    ((s.wr + 1) % s.cfg.ringCap ≠ s.rdS ∧
      elemWrite x s = { s with
        ring := memPut s.ring s.wr x, wr := (s.wr + 1) % s.cfg.ringCap, accepted := s.accepted ++ [x] }) := by
  unfold elemWrite
  split
  · rename_i h; exact .inl ⟨(fullW_iff s).1 h, rfl⟩
  · rename_i h; exact .inr ⟨fun he => h ((fullW_iff s).2 he), rfl⟩

/-- An element write keeps the bridge sound and `RING` in canonical form. -/
theorem elemWrite_ok {s : State} (h : BridgeOk s) (hc : 0 < s.cfg.ringCap) (hm : MemoryFits s.cfg.ringCap s.ring)
    (x : Word) : BridgeOk (elemWrite x s) ∧ MemoryFits s.cfg.ringCap (elemWrite x s).ring := by
  rcases elemWrite_cases x s with ⟨-, he⟩ | ⟨hf, he⟩
  · rw [he]; exact ⟨h, hm⟩
  · rw [he]
    refine ⟨h.write hf x, memPut_wf hm.1 _ _, fun e he => ?_⟩
    rcases mem_memPut he with rfl | he
    · exact (h.cursors_lt hc).1
    · exact hm.2 e he

/-- What a pop can do (R198). -/
theorem pop_cases (s : State) :
    (s.rd = s.wrS ∧ pop s = (0, logEvent s .ringEmpty)) ∨
    (s.rd ≠ s.wrS ∧ pop s = (ringRead s s.rd,
      { s with rd := (s.rd + 1) % s.cfg.ringCap, popped := s.popped ++ [ringRead s s.rd] })) := by
  unfold pop
  split
  · rename_i h; exact .inl ⟨(emptyA_iff s).1 h, rfl⟩
  · rename_i h; exact .inr ⟨fun he => h ((emptyA_iff s).2 he), rfl⟩

/-- A pop writes the read cursor, the event history and the history of pops, nothing else. -/
theorem pop_frame (s : State) : ∃ rd ev po, (pop s).2 = { s with rd := rd, events := ev, popped := po } := by
  rcases pop_cases s with ⟨-, h⟩ | ⟨-, h⟩ <;> rw [h] <;> exact ⟨_, _, _, rfl⟩

/-- A pop keeps the bridge sound. -/
theorem pop_ok {s : State} (h : BridgeOk s) : BridgeOk (pop s).2 := by
  rcases pop_cases s with ⟨-, he⟩ | ⟨hne, he⟩
  · rw [he]; exact h
  · rw [he]
    obtain ⟨x, hx, -, hf⟩ := h.take hne
    have hread : ringRead s s.rd = x := by rw [ringRead, hx]; rfl
    rw [hread]
    exact hf

end Sys2Proof.Machine
end

