-- ==== Sys2Proof/Laws/Config.lean ====
section
/-! SUPPORT. What a well-formed configuration says, field by field (00_scope.md R7, R8). -/

namespace Sys2Proof

/-- The ranges of R7 and the conditions of R8, named. -/
structure Cfg.Facts (c : Cfg) : Prop where
  voices_pos : 1 ≤ c.nVoices
  voices_le : c.nVoices ≤ 16
  attack_pos : 1 ≤ c.attack
  attack_lt : c.attack < 2 ^ 24
  decay_pos : 1 ≤ c.decay
  decay_lt : c.decay < 2 ^ 24
  release_pos : 1 ≤ c.release
  release_lt : c.release < 2 ^ 24
  sus_le : c.sus ≤ 32768
  wt_pos : 1 ≤ c.wtLen
  wt_le : c.wtLen ≤ 65536
  inc_length : c.noteInc.length = 13
  press_length : c.pressCode.length = 13
  press_clear : ∀ k ∈ c.pressCode, k &&& c.releaseMask = 0
  mask : oneBit c.releaseMask = true
  alpha_le : c.alpha ≤ 65536
  lut_length : c.normLut.length = c.nVoices
  lut_le : ∀ t ∈ c.normLut, t.toNat ≤ 2 ^ 24
  ring_ge : 2 ≤ c.ringCap
  ring_le : c.ringCap ≤ 65536
  ring_pow : c.ringCap = 2 ^ c.ringCap.log2
  cmd_ge : 2 ≤ c.cmdDepth
  cmd_le : c.cmdDepth ≤ 256
  cmd_pow : c.cmdDepth = 2 ^ c.cmdDepth.log2
  bgm_le : c.bgmGain ≤ 32768
  mvol_le : c.mvolReset ≤ 100

/-- A well-formed configuration has the facts of R7 and R8. -/
theorem Cfg.facts {c : Cfg} (h : c.wf = true) : c.Facts := by
  simp only [Cfg.wf, inRange, isPow2, Bool.and_eq_true, decide_eq_true_eq, List.all_eq_true, beq_iff_eq] at h
  constructor <;> first | omega | tauto

/-- The normalisation targets of a well-formed configuration do not pass 1.0 (R7). -/
theorem Cfg.Facts.target_le {c : Cfg} (h : c.Facts) (n : Nat) : (c.normLut.getD n 0).toNat ≤ 2 ^ 24 := by
  rw [List.getD_eq_getElem?_getD]
  cases hn : c.normLut[n]? with
  | none => simp
  | some t => exact h.lut_le t (List.mem_of_getElem? hn)

/-- The default configuration is well formed. -/
theorem defaultCfg_wf : defaultCfg.wf = true := by decide +kernel

end Sys2Proof
end

