-- ==== Sys2Proof/Laws/Envelope.lean ====
section
/-! SUPPORT. The envelope levels and steps (41_voice_pool_adsr.md R150 to R158): their bounds, their end points, and
what each envelope step can do. -/

namespace Sys2Proof.Machine

variable {c : Cfg} {v v' : Voice} {k : Nat}

theorem attackLevel_bounds (hc : c.Facts) (hk : k ≤ c.attack) : 0 ≤ attackLevel c k ∧ attackLevel c k ≤ 32768 := by
  have hA : (0 : Int) < c.attack := by have := hc.attack_pos; omega
  refine ⟨fdiv_nonneg (by unfold levelOne; positivity) hA, fdiv_le_of_le_mul hA ?_⟩
  unfold levelOne
  have : (k : Int) ≤ c.attack := by exact_mod_cast hk
  nlinarith

theorem decayLevel_bounds (hc : c.Facts) (hk : k ≤ c.decay) :
    c.sus ≤ decayLevel c k ∧ decayLevel c k ≤ 32768 := by
  have hD : (0 : Int) < c.decay := by have := hc.decay_pos; omega
  have hS : (c.sus : Int) ≤ 32768 := by exact_mod_cast hc.sus_le
  have hk' : (k : Int) ≤ c.decay := by exact_mod_cast hk
  have h0 : 0 ≤ fdiv ((levelOne - c.sus) * k) c.decay :=
    fdiv_nonneg (mul_nonneg (by unfold levelOne; omega) (by positivity)) hD
  have h1 : fdiv ((levelOne - c.sus) * k) c.decay ≤ levelOne - c.sus :=
    fdiv_le_of_le_mul hD (mul_le_mul_of_nonneg_left hk' (by unfold levelOne; omega))
  unfold decayLevel
  unfold levelOne at *
  omega

theorem releaseLevel_bounds (hc : c.Facts) (hk : k ≤ c.release) :
    0 ≤ releaseLevel c k ∧ releaseLevel c k ≤ c.sus := by
  have hR : (0 : Int) < c.release := by have := hc.release_pos; omega
  have hk' : (k : Int) ≤ c.release := by exact_mod_cast hk
  have h0 : 0 ≤ fdiv (c.sus * k) c.release := fdiv_nonneg (by positivity) hR
  have h1 : fdiv (c.sus * k) c.release ≤ c.sus :=
    fdiv_le_of_le_mul hR (mul_le_mul_of_nonneg_left hk' (by positivity))
  unfold releaseLevel
  omega

@[simp] theorem attackLevel_zero (c : Cfg) : attackLevel c 0 = 0 := by simp [attackLevel]

@[simp] theorem decayLevel_zero (c : Cfg) : decayLevel c 0 = 32768 := by simp [decayLevel, levelOne]

@[simp] theorem releaseLevel_zero (c : Cfg) : releaseLevel c 0 = c.sus := by simp [releaseLevel]

/-- Attack ends at level 1.0 exactly (R150). -/
theorem attackLevel_end (hc : c.Facts) : attackLevel c c.attack = 32768 := by
  have hA : (0 : Int) < c.attack := by have := hc.attack_pos; omega
  rw [attackLevel, mul_comm, mul_fdiv_cancel hA]; rfl

/-- Decay ends at the sustain level exactly (R151). -/
theorem decayLevel_end (hc : c.Facts) : decayLevel c c.decay = c.sus := by
  have hD : (0 : Int) < c.decay := by have := hc.decay_pos; omega
  rw [decayLevel, mul_fdiv_cancel hD]; ring

/-- Release ends at level 0 exactly (R154). -/
theorem releaseLevel_end (hc : c.Facts) : releaseLevel c c.release = 0 := by
  have hR : (0 : Int) < c.release := by have := hc.release_pos; omega
  rw [releaseLevel, mul_fdiv_cancel hR]; ring

theorem attackLevel_mono (hc : c.Facts) {j : Nat} (h : j ≤ k) : attackLevel c j ≤ attackLevel c k := by
  have hA : (0 : Int) < c.attack := by have := hc.attack_pos; omega
  exact fdiv_mono hA (mul_le_mul_of_nonneg_right (by exact_mod_cast h) (by decide))

theorem decayLevel_anti (hc : c.Facts) {j : Nat} (h : j ≤ k) : decayLevel c k ≤ decayLevel c j := by
  have hD : (0 : Int) < c.decay := by have := hc.decay_pos; omega
  have hS : (c.sus : Int) ≤ 32768 := by exact_mod_cast hc.sus_le
  have := fdiv_mono (a := (levelOne - c.sus) * j) (a' := (levelOne - c.sus) * k) hD
    (mul_le_mul_of_nonneg_left (by exact_mod_cast h) (by unfold levelOne; omega))
  unfold decayLevel; omega

theorem releaseLevel_anti (hc : c.Facts) {j : Nat} (h : j ≤ k) : releaseLevel c k ≤ releaseLevel c j := by
  have hR : (0 : Int) < c.release := by have := hc.release_pos; omega
  have := fdiv_mono (a := (c.sus : Int) * j) (a' := c.sus * k) hR
    (mul_le_mul_of_nonneg_left (by exact_mod_cast h) (by positivity))
  unfold releaseLevel; omega

/-- What an attack step does when the timer is inside the segment (R150). -/
theorem attackStep_ok (hc : c.Facts) (hk : v.tmr.toNat < c.attack) :
    ∃ lev : BitVec 16, ∃ tmr : BitVec 24, (lev.toNat : Int) = attackLevel c (v.tmr.toNat + 1) ∧
      tmr.toNat = v.tmr.toNat + 1 ∧
      attackStep c v = .ok (if v.tmr.toNat + 1 = c.attack then { v with lev := lev, st := .decay, tmr := 0 }
        else { v with lev := lev, tmr := tmr }) := by
  have hl := hc.attack_lt
  have hb := attackLevel_bounds hc (k := v.tmr.toNat + 1) hk
  obtain ⟨tmr, ht1, ht2⟩ := fitU_of_fits (w := 24) (r := .tmr) (x := ((v.tmr.toNat + 1 : Nat) : Int))
    (by positivity) (by exact_mod_cast (by omega : v.tmr.toNat + 1 < 2 ^ 24))
  obtain ⟨lev, hl1, hl2⟩ := fitU_of_fits (w := 16) (r := .lev) hb.1 (by omega)
  refine ⟨lev, tmr, hl2, by exact_mod_cast ht2, ?_⟩
  simp only [attackStep, ht1, hl1]
  split <;> rfl

/-- What a decay step does when the timer is inside the segment (R151). -/
theorem decayStep_ok (hc : c.Facts) (hk : v.tmr.toNat < c.decay) :
    ∃ lev : BitVec 16, ∃ tmr : BitVec 24, (lev.toNat : Int) = decayLevel c (v.tmr.toNat + 1) ∧
      tmr.toNat = v.tmr.toNat + 1 ∧
      decayStep c v = .ok (if v.tmr.toNat + 1 = c.decay then { v with lev := lev, st := .sustain, tmr := 0 }
        else { v with lev := lev, tmr := tmr }) := by
  have hl := hc.decay_lt
  have hb := decayLevel_bounds hc (k := v.tmr.toNat + 1) hk
  obtain ⟨tmr, ht1, ht2⟩ := fitU_of_fits (w := 24) (r := .tmr) (x := ((v.tmr.toNat + 1 : Nat) : Int))
    (by positivity) (by exact_mod_cast (by omega : v.tmr.toNat + 1 < 2 ^ 24))
  obtain ⟨lev, hl1, hl2⟩ := fitU_of_fits (w := 16) (r := .lev) (x := decayLevel c (v.tmr.toNat + 1))
    (by omega) (by omega)
  refine ⟨lev, tmr, hl2, by exact_mod_cast ht2, ?_⟩
  simp only [decayStep, ht1, hl1]
  split <;> rfl

/-- What a release step does when the timer is inside the segment (R154). -/
theorem releaseStep_ok (hc : c.Facts) (hk : v.tmr.toNat < c.release) :
    ∃ lev : BitVec 16, ∃ tmr : BitVec 24, (lev.toNat : Int) = releaseLevel c (v.tmr.toNat + 1) ∧
      tmr.toNat = v.tmr.toNat + 1 ∧
      releaseStep c v = .ok (if v.tmr.toNat + 1 = c.release
        then { v with lev := 0, note := none, st := .idle, tmr := 0 }
        else { v with lev := lev, tmr := tmr }) := by
  have hl := hc.release_lt
  have hb := releaseLevel_bounds hc (k := v.tmr.toNat + 1) hk
  have hs := hc.sus_le
  obtain ⟨tmr, ht1, ht2⟩ := fitU_of_fits (w := 24) (r := .tmr) (x := ((v.tmr.toNat + 1 : Nat) : Int))
    (by positivity) (by exact_mod_cast (by omega : v.tmr.toNat + 1 < 2 ^ 24))
  obtain ⟨lev, hl1, hl2⟩ := fitU_of_fits (w := 16) (r := .lev) hb.1 (by omega)
  refine ⟨lev, tmr, hl2, by exact_mod_cast ht2, ?_⟩
  simp only [releaseStep, ht1, hl1]
  split <;> rfl

/-- What a sustain step does with the key held (R152). -/
theorem sustainStep_held (hc : c.Facts) (hh : v.held = true) :
    ∃ lev : BitVec 16, lev.toNat = c.sus ∧ sustainStep c v = .ok { v with lev := lev } := by
  have hs := hc.sus_le
  obtain ⟨lev, hl1, hl2⟩ := fitU_of_fits (w := 16) (r := .lev) (x := (c.sus : Int)) (by positivity) (by omega)
  refine ⟨lev, by exact_mod_cast hl2, ?_⟩
  simp only [sustainStep, hh, if_true, hl1]

/-- What a sustain step does with the key released: the first release step (R153). -/
theorem sustainStep_released (c : Cfg) (hh : v.held = false) :
    sustainStep c v = releaseStep c { v with st := .release, tmr := 0 } := by
  simp [sustainStep, hh]

/-- An envelope step of a sound voice completes and leaves it sound; its phase, its increment and its `held` are
kept, and its note too unless it ends (R150 to R154, R158). -/
theorem envStep_keeps_ok (hc : c.Facts) (h : VoiceOk c v) :
    ∃ v', envStep c v = .ok v' ∧ VoiceOk c v' ∧ v'.pos = v.pos ∧ v'.inc = v.inc ∧ v'.held = v.held ∧
      (v'.note = v.note ∨ v'.note = none) := by
  obtain ⟨h1, h2, h3, h4, h5, h6⟩ := h
  unfold envStep
  cases hst : v.st with
  | idle => exact ⟨v, rfl, ⟨h1, h2, h3, h4, h5, h6⟩, rfl, rfl, rfl, .inl rfl⟩
  | attack =>
    rw [hst] at h4
    obtain ⟨lev, tmr, hl, ht, he⟩ := attackStep_ok (v := v) hc h4
    have hb := attackLevel_bounds hc (k := v.tmr.toNat + 1) h4
    refine ⟨_, he, ?_⟩
    split
    · rename_i hk
      rw [hk, attackLevel_end hc] at hl
      refine ⟨⟨by simpa [hst] using h1, by simpa [levelAt] using hl, by simp; omega, ?_, by simp, h6⟩, rfl, rfl, rfl, .inl rfl⟩
      have := hc.decay_pos; simp [segmentLength]; omega
    · rename_i hk
      refine ⟨⟨by simpa [hst] using h1, ?_, by simp; omega, ?_, by simp [hst], h6⟩, rfl, rfl, rfl, .inl rfl⟩
      · simp only [hst, levelAt, ht]; exact hl
      · simp only [hst, segmentLength] at h4 ⊢; omega
  | decay =>
    rw [hst] at h4
    obtain ⟨lev, tmr, hl, ht, he⟩ := decayStep_ok (v := v) hc h4
    have hb := decayLevel_bounds hc (k := v.tmr.toNat + 1) h4
    refine ⟨_, he, ?_⟩
    split
    · rename_i hk
      rw [hk, decayLevel_end hc] at hl
      refine ⟨⟨by simpa [hst] using h1, by simpa [levelAt] using hl, ?_, ?_, by simp, h6⟩, rfl, rfl, rfl, .inl rfl⟩
      · have := hc.sus_le; simp; omega
      · simp [segmentLength]
    · rename_i hk
      refine ⟨⟨by simpa [hst] using h1, ?_, by simp; omega, ?_, by simp [hst], h6⟩, rfl, rfl, rfl, .inl rfl⟩
      · simp only [hst, levelAt, ht]; exact hl
      · simp only [hst, segmentLength] at h4 ⊢; omega
  | sustain =>
    have hs := hc.sus_le
    cases hh : v.held with
    | true =>
      obtain ⟨lev, hl, he⟩ := sustainStep_held hc hh
      refine ⟨_, he, ⟨h1, ?_, by simp; omega, h4, h5, h6⟩, rfl, rfl, hh, .inl rfl⟩
      simp [hst, levelAt, hl]
    | false =>
      have h0 : (⟨v.note, .release, v.lev, 0, v.pos, v.inc, v.held⟩ : Voice).tmr.toNat < c.release := hc.release_pos
      obtain ⟨lev, tmr, hl, ht, he⟩ := releaseStep_ok hc h0
      have hb := releaseLevel_bounds hc (k := 0 + 1) hc.release_pos
      refine ⟨_, (sustainStep_released c hh).trans he, ?_⟩
      split
      · refine ⟨⟨by simp, by simp [levelAt], by simp, by simp [segmentLength], by simpa using hh, h6⟩, rfl, rfl, hh, .inr rfl⟩
      · rename_i hk
        refine ⟨⟨by simpa [hst] using h1, ?_, ?_, ?_, by simpa using hh, h6⟩, rfl, rfl, hh, .inl rfl⟩
        · simp only [levelAt, ht]; exact hl
        · simp only [Nat.zero_add] at hb
          simp at hl ⊢; omega
        · have := hc.release_pos
          simp only [segmentLength, ht] at hk ⊢
          simp at hk ⊢; omega
  | release =>
    rw [hst] at h4
    have hh : v.held = false := h5 (.inr hst)
    have hs := hc.sus_le
    obtain ⟨lev, tmr, hl, ht, he⟩ := releaseStep_ok (v := v) hc h4
    have hb := releaseLevel_bounds hc (k := v.tmr.toNat + 1) h4
    refine ⟨_, he, ?_⟩
    split
    · refine ⟨⟨by simp, by simp [levelAt], by simp, by simp [segmentLength], by simpa using hh, h6⟩, rfl, rfl, rfl, .inr rfl⟩
    · rename_i hk
      refine ⟨⟨by simpa [hst] using h1, ?_, by simp; omega, ?_, by simpa [hst] using h5, h6⟩, rfl, rfl, rfl, .inl rfl⟩
      · simp only [hst, levelAt, ht]; exact hl
      · simp only [hst, segmentLength] at h4 ⊢; omega

end Sys2Proof.Machine
end

