-- ==== Sys2Proof/Laws/Pool.lean ====
section
/-! SUPPORT. The voice pool: what `find` and the Idle search answer, and that the note commands keep the pool sound
(10_state.md R29; 41_voice_pool_adsr.md R140 to R147). -/

namespace Sys2Proof.Machine

variable {c : Cfg} {vs : List Voice} {n : Note} {i : Nat}

/-- `find(n)` answers the least voice that holds `n` (R147). -/
theorem findVoice_some (h : findVoice vs n = some i) :
    ∃ v, vs[i]? = some v ∧ v.note = some n ∧ ∀ j < i, ∀ w, vs[j]? = some w → w.note ≠ some n := by
  obtain ⟨hi, h1, h2⟩ := List.findIdx?_eq_some_iff_getElem.1 h
  refine ⟨vs[i], List.getElem?_eq_getElem hi, by simpa using h1, fun j hj w hw => ?_⟩
  have := h2 j hj
  obtain ⟨hj', rfl⟩ := List.getElem?_eq_some_iff.1 hw
  simpa using this

theorem findVoice_none : findVoice vs n = none ↔ ∀ v ∈ vs, v.note ≠ some n := by
  simp [findVoice, List.findIdx?_eq_none_iff]

/-- The Idle search answers the least Idle voice (R140, R142). -/
theorem firstIdle_some (h : firstIdle vs = some i) :
    ∃ v, vs[i]? = some v ∧ v.st = .idle ∧ ∀ j < i, ∀ w, vs[j]? = some w → w.st ≠ .idle := by
  obtain ⟨hi, h1, h2⟩ := List.findIdx?_eq_some_iff_getElem.1 h
  refine ⟨vs[i], List.getElem?_eq_getElem hi, by simpa using h1, fun j hj w hw => ?_⟩
  have := h2 j hj
  obtain ⟨hj', rfl⟩ := List.getElem?_eq_some_iff.1 hw
  simpa using this

theorem firstIdle_none : firstIdle vs = none ↔ ∀ v ∈ vs, v.st ≠ .idle := by
  simp [firstIdle, List.findIdx?_eq_none_iff]

/-- The fresh voice of an allocation and of a retrigger is sound. -/
theorem allocate_ok (hc : c.Facts) (n : Note) (v : Voice) : VoiceOk c (allocate c n v) := by
  have h1 := hc.attack_pos
  have h2 := hc.wt_pos
  refine ⟨by simp [allocate], by simp [allocate, levelAt], by simp [allocate], ?_, by simp [allocate], ?_⟩
  · simp [allocate, segmentLength]; omega
  · simp [allocate]; omega

theorem retrigger_ok (hc : c.Facts) {v : Voice} (hn : v.note ≠ none) : VoiceOk c (retrigger v) := by
  have h1 := hc.attack_pos
  have h2 := hc.wt_pos
  refine ⟨by simp [retrigger, hn], by simp [retrigger, levelAt], by simp [retrigger], ?_, by simp [retrigger], ?_⟩
  · simp [retrigger, segmentLength]; omega
  · simp [retrigger]; omega

theorem letGo_ok {v : Voice} (h : VoiceOk c v) : VoiceOk c (letGo v) :=
  ⟨h.1, h.2.1, h.2.2.1, h.2.2.2.1, fun _ => rfl, h.2.2.2.2.2⟩

/-- Changing one voice keeps a property of every voice that the change keeps. -/
theorem forall_mem_modify {P : Voice → Prop} {f : Voice → Voice} (h : ∀ v ∈ vs, P v)
    (hf : ∀ v, vs[i]? = some v → P (f v)) : ∀ v ∈ vs.modify i f, P v := by
  intro v hv
  obtain ⟨j, hj⟩ := List.mem_iff_getElem?.1 hv
  rw [List.getElem?_modify] at hj
  obtain ⟨w, hw, rfl⟩ := Option.map_eq_some_iff.1 hj
  split
  · rename_i he; subst he; exact hf w hw
  · exact h w (List.mem_of_getElem? hw)

/-- A change that keeps every note keeps the notes distinct. -/
theorem notes_modify {f : Voice → Voice} (hf : ∀ v, (f v).note = v.note) :
    (vs.modify i f).map Voice.note = vs.map Voice.note := by
  apply List.ext_getElem?
  intro j
  simp only [List.getElem?_map, List.getElem?_modify]
  cases vs[j]? with
  | none => rfl
  | some v => simp only [Option.map_some]; split <;> simp [hf]

/-- Notes are distinct in a pool as soon as they are in one with the same notes. -/
theorem distinct_of_notes {ws : List Voice} (h : ws.map Voice.note = vs.map Voice.note)
    (hd : vs.Pairwise (fun v w => v.note = none ∨ v.note ≠ w.note)) :
    ws.Pairwise (fun v w => v.note = none ∨ v.note ≠ w.note) := by
  have h1 := List.pairwise_map (f := Voice.note) (R := fun a b : Option Note => a = none ∨ a ≠ b) (l := vs)
  have h2 := List.pairwise_map (f := Voice.note) (R := fun a b : Option Note => a = none ∨ a ≠ b) (l := ws)
  exact h2.1 (h ▸ h1.2 hd)

/-- Setting one voice to hold a note that no voice holds keeps the notes distinct. -/
theorem distinct_modify_new {f : Voice → Voice} (hf : ∀ v, (f v).note = some n) (hnew : ∀ v ∈ vs, v.note ≠ some n)
    (hd : vs.Pairwise (fun v w => v.note = none ∨ v.note ≠ w.note)) :
    (vs.modify i f).Pairwise (fun v w => v.note = none ∨ v.note ≠ w.note) := by
  induction vs generalizing i with
  | nil => simp
  | cons v vs ih =>
    obtain ⟨h1, h2⟩ := List.pairwise_cons.1 hd
    have hnew' : ∀ v ∈ vs, v.note ≠ some n := fun w hw => hnew w (List.mem_cons_of_mem _ hw)
    cases i with
    | zero =>
      simp only [List.modify_zero_cons]
      exact List.pairwise_cons.2 ⟨fun w hw => .inr (by rw [hf]; exact (hnew' w hw).symm), h2⟩
    | succ i =>
      simp only [List.modify_succ_cons]
      refine List.pairwise_cons.2 ⟨?_, ih hnew' h2⟩
      refine forall_mem_modify h1 (fun w _ => .inr ?_)
      rw [hf]
      exact hnew v List.mem_cons_self

/-- `NOTE_ON` keeps the pool sound (10_state.md R29). -/
theorem noteOnIndex_pool (hc : c.Facts) {s : State} (hs : s.cfg = c) (h : PoolOk c s.voices) (cmd : Word) (n : Note) :
    PoolOk c (noteOnIndex cmd n s).voices := by
  obtain ⟨h1, h2, h3⟩ := h
  unfold noteOnIndex
  split
  · rename_i i hi
    obtain ⟨v, hv, hvn, -⟩ := findVoice_some hi
    refine ⟨by simpa using h1, forall_mem_modify h2 (fun w hw => ?_), distinct_of_notes (notes_modify fun _ => rfl) h3⟩
    rw [hv] at hw; cases hw
    exact retrigger_ok hc (by simp [hvn])
  · rename_i hnone
    split
    · rename_i i hi
      refine ⟨by simpa using h1, forall_mem_modify h2 (fun w _ => hs ▸ allocate_ok (hs ▸ hc) n w), ?_⟩
      exact distinct_modify_new (fun _ => rfl) (findVoice_none.1 hnone) h3
    · exact ⟨h1, h2, h3⟩

/-- `NOTE_OFF` keeps the pool sound (10_state.md R29). -/
theorem noteOffIndex_pool {s : State} (h : PoolOk c s.voices) (cmd : Word) (n : Note) :
    PoolOk c (noteOffIndex cmd n s).voices := by
  obtain ⟨h1, h2, h3⟩ := h
  unfold noteOffIndex
  split
  · rename_i i hi
    exact ⟨by simpa using h1,
      forall_mem_modify h2 (fun w hw => letGo_ok (h2 w (List.mem_of_getElem? hw))),
      distinct_of_notes (notes_modify fun _ => rfl) h3⟩
  · exact ⟨h1, h2, h3⟩

/-- The pool after reset is sound (10_state.md R29, R40). -/
theorem reset_pool (hc : c.Facts) : PoolOk c (State.resetWith c).voices := by
  have h2 := hc.wt_pos
  refine ⟨by simp [State.resetWith], fun v hv => ?_, ?_⟩
  · rw [List.eq_of_mem_replicate hv]
    refine ⟨by simp [Voice.reset], by simp [Voice.reset, levelAt], by simp [Voice.reset],
      by simp [Voice.reset, segmentLength], by simp [Voice.reset], by simp [Voice.reset]; omega⟩
  · exact List.pairwise_replicate.2 (.inr (.inl rfl))

end Sys2Proof.Machine
end

