-- ==== Sys2Proof/Laws/Exec.lean ====
section
/-! SUPPORT. What a command can do (45_control_port.md R243, R272): it completes, changes at most the voices, `MVOL`
and the event history, and keeps the pool and `MVOL` sound. -/

namespace Sys2Proof.Machine

/-- `NOTE_ON` of a note in range writes the voices and the event history, nothing else. -/
theorem noteOnIndex_frame (cmd : Word) (n : Note) (s : State) :
    ∃ vs ev, noteOnIndex cmd n s = { s with voices := vs, events := ev } := by
  unfold noteOnIndex
  split
  · exact ⟨_, _, rfl⟩
  · split <;> exact ⟨_, _, rfl⟩

/-- `NOTE_OFF` of a note in range writes the voices and the event history, nothing else. -/
theorem noteOffIndex_frame (cmd : Word) (n : Note) (s : State) :
    ∃ vs ev, noteOffIndex cmd n s = { s with voices := vs, events := ev } := by
  unfold noteOffIndex
  split <;> exact ⟨_, _, rfl⟩

/-- Every command completes; it writes the voices, `MVOL` and the event history, nothing else, and keeps a sound
pool and a sound `MVOL` sound. -/
theorem exec_frame (i : Instr) (s : State) :
    ∃ vs mv ev, exec i s = .next { s with voices := vs, mvol := mv, events := ev } ∧
      (s.cfg.Facts → PoolOk s.cfg s.voices → PoolOk s.cfg vs) ∧ (s.mvol.toNat ≤ 100 → mv.toNat ≤ 100) := by
  have on (cmd : Word) (n : Note) : ∃ vs mv ev,
      Host.Outcome.next (φ := Fault) (ρ := Refusal) (noteOnIndex cmd n s) =
        .next { s with voices := vs, mvol := mv, events := ev } ∧
      (s.cfg.Facts → PoolOk s.cfg s.voices → PoolOk s.cfg vs) ∧ (s.mvol.toNat ≤ 100 → mv.toNat ≤ 100) := by
    obtain ⟨vs, ev, h⟩ := noteOnIndex_frame cmd n s
    exact ⟨vs, s.mvol, ev, by rw [h], fun hc hp => by simpa [h] using noteOnIndex_pool hc rfl hp cmd n, id⟩
  have off (cmd : Word) (n : Note) : ∃ vs mv ev,
      Host.Outcome.next (φ := Fault) (ρ := Refusal) (noteOffIndex cmd n s) =
        .next { s with voices := vs, mvol := mv, events := ev } ∧
      (s.cfg.Facts → PoolOk s.cfg s.voices → PoolOk s.cfg vs) ∧ (s.mvol.toNat ≤ 100 → mv.toNat ≤ 100) := by
    obtain ⟨vs, ev, h⟩ := noteOffIndex_frame cmd n s
    exact ⟨vs, s.mvol, ev, by rw [h], fun _ hp => by simpa [h] using noteOffIndex_pool hp cmd n, id⟩
  cases i with
  | noteOn n =>
    simp only [exec, execNoteOn]
    split
    · exact ⟨_, _, _, rfl, fun _ h => h, id⟩
    · exact on _ _
  | noteOff n =>
    simp only [exec, execNoteOff]
    split
    · exact ⟨_, _, _, rfl, fun _ h => h, id⟩
    · exact off _ _
  | key k =>
    simp only [exec, execKey]
    split
    · exact ⟨_, _, _, rfl, fun _ h => h, id⟩
    · split
      · exact off _ _
      · exact on _ _
  | setMvol v =>
    simp only [exec, execSetMvol, volumeOperand]
    split_ifs with hv
    · refine ⟨_, _, _, rfl, fun _ h => h, fun _ => ?_⟩
      rw [BitVec.toNat_setWidth]
      exact le_trans (Nat.mod_le _ _) hv
    · exact ⟨_, _, _, rfl, fun _ h => h, id⟩
  | _ => exact ⟨_, _, _, rfl, fun _ h => h, id⟩

end Sys2Proof.Machine
end

