-- ==== Sys2Proof/Laws/Drain.lean ====
section
/-! SUPPORT. The drain (45_control_port.md R242): it completes, empties the inbox as far as A can see, and keeps
what is sound sound. -/

namespace Sys2Proof.Machine

/-- How many commands stand between `cr` and `cw_s`. -/
def visible (s : State) : Nat := (s.cwS + s.cfg.cmdDepth - s.cr) % s.cfg.cmdDepth

/-- What the drain needs and keeps: a well-formed configuration, a sound pool, `MVOL` and inbox. -/
structure DrainOk (s : State) : Prop where
  cfg : s.cfg.Facts
  pool : PoolOk s.cfg s.voices
  mvol : s.mvol.toNat ≤ 100
  inbox : FifoOk s.cfg.cmdDepth s.cw s.cr s.cwS s.crS s.cmdq s.cmdWritten s.cmdApplied

theorem inboxPending_iff (s : State) : inboxPending s = true ↔ s.cr ≠ s.cwS := by
  simp [inboxPending]

/-- Taking one command leaves one fewer visible. -/
theorem visible_advance {s t : State} (hQ : s.cfg.cmdDepth = t.cfg.cmdDepth) (hcw : t.cwS = s.cwS)
    (hcr : t.cr = (s.cr + 1) % s.cfg.cmdDepth) (h1 : s.cr < s.cfg.cmdDepth) (h2 : s.cwS < s.cfg.cmdDepth)
    (hne : s.cr ≠ s.cwS) : visible t + 1 = visible s := by
  unfold visible
  rw [← hQ, hcw, hcr]
  generalize s.cfg.cmdDepth = q at *
  have hm (a b : Nat) (ha : a < q) (hb : b < q) : (b + q - a) % q = if a ≤ b then b - a else b + q - a := by
    split
    · rw [show b + q - a = (b - a) + q by omega, Nat.add_mod_right, Nat.mod_eq_of_lt (by omega)]
    · rw [Nat.mod_eq_of_lt (by omega)]
  rw [hm _ _ (Nat.mod_lt _ (by omega)) h2, hm _ _ h1 h2]
  rcases Nat.lt_or_ge (s.cr + 1) q with h | h
  · rw [Nat.mod_eq_of_lt h]; split_ifs <;> omega
  · rw [show s.cr + 1 = q by omega, Nat.mod_self]; split_ifs <;> omega

/-- Setting `cr` to what it holds changes nothing. -/
theorem with_cr_self {s : State} {x : Nat} (h : s.cr = x) : { s with cr := x } = s := by subst h; rfl

/-- What the loop of the drain can do: it completes, changes only what commands change and the inbox read side,
and with enough rounds reaches `cw_s`. -/
theorem drainLoop_spec (k : Nat) (s : State) (hcr : s.cr < s.cfg.cmdDepth) (hcw : s.cwS < s.cfg.cmdDepth)
    (hk : visible s ≤ k) :
    ∃ vs mv ev ap, drainLoop k s =
        .next { s with voices := vs, mvol := mv, events := ev, cmdApplied := ap, cr := s.cwS } ∧
      (DrainOk s →
        DrainOk { s with voices := vs, mvol := mv, events := ev, cmdApplied := ap, cr := s.cwS }) := by
  induction k generalizing s with
  | zero =>
    have heq : s.cr = s.cwS := by
      by_contra hne
      have := visible_advance (s := s) (t := { s with cr := (s.cr + 1) % s.cfg.cmdDepth }) rfl rfl rfl hcr hcw hne
      omega
    refine ⟨s.voices, s.mvol, s.events, s.cmdApplied, ?_, fun h => ?_⟩
    · rw [drainLoop, with_cr_self heq]
    · rw [with_cr_self heq]; exact h
  | succ k ih =>
    unfold drainLoop
    split
    · rename_i hp
      rw [inboxPending_iff] at hp
      obtain ⟨vs, mv, ev, he, hpool, hmv⟩ := exec_frame (decode (cmdRead s s.cr)) s
      rw [he]
      simp only [andThen]
      have hpos : 0 < s.cfg.cmdDepth := by omega
      obtain ⟨vs', mv', ev', ap', h1, h2⟩ := ih
        (advanceCr (cmdRead s s.cr) { s with voices := vs, mvol := mv, events := ev })
        (Nat.mod_lt _ hpos) hcw
        (by
          have := visible_advance (s := s)
            (t := advanceCr (cmdRead s s.cr) { s with voices := vs, mvol := mv, events := ev })
            rfl rfl rfl hcr hcw hp
          omega)
      refine ⟨vs', mv', ev', ap', h1, fun hok => h2 ⟨hok.cfg, hpool hok.cfg hok.pool, hmv hok.mvol, ?_⟩⟩
      obtain ⟨x, hx, -, hf⟩ := hok.inbox.take hp
      have hread : cmdRead s s.cr = x := by rw [cmdRead, hx]; rfl
      rw [hread]
      exact hf
    · rename_i hp
      have heq : s.cr = s.cwS := by
        by_contra hne; exact hp ((inboxPending_iff s).2 hne)
      exact ⟨s.voices, s.mvol, s.events, s.cmdApplied, by rw [with_cr_self heq], fun h => by rw [with_cr_self heq]; exact h⟩

/-- What the drain can do (R242). -/
theorem drain_spec {s : State} (hcr : s.cr < s.cfg.cmdDepth) (hcw : s.cwS < s.cfg.cmdDepth) :
    ∃ vs mv ev ap, drain s =
        .next { s with voices := vs, mvol := mv, events := ev, cmdApplied := ap, cr := s.cwS } ∧
      (DrainOk s →
        DrainOk { s with voices := vs, mvol := mv, events := ev, cmdApplied := ap, cr := s.cwS }) :=
  drainLoop_spec _ s hcr hcw (Nat.le_of_lt (Nat.mod_lt _ (by omega)))

end Sys2Proof.Machine
end

