-- ==== Sys2Proof/Laws/Mix.lean ====
section
/-! SUPPORT. The oscillator, the per-voice loop and the normalisation (40_notetable_wavetable.md R127, R128;
42_synth_mix.md R170 to R176): each answers, and keeps what is sound sound. -/

namespace Sys2Proof.Machine

variable {c : Cfg} {v : Voice} {vs : List Voice}

/-- The phase advance answers, and the position stays below `WT_LEN * 2^16` (R172). -/
theorem advance_ok (hc : c.Facts) (v : Voice) :
    ∃ pos : BitVec 32, pos.toNat = (v.pos.toNat + v.inc.toNat) % (c.wtLen * 65536) ∧
      pos.toNat < c.wtLen * 65536 ∧ advance c v = .ok { v with pos := pos } := by
  have h1 := hc.wt_pos
  have h2 := hc.wt_le
  have hlt : (v.pos.toNat + v.inc.toNat) % (c.wtLen * 65536) < c.wtLen * 65536 := Nat.mod_lt _ (by omega)
  have hfit : (v.pos.toNat + v.inc.toNat) % (c.wtLen * 65536) < 2 ^ 32 := by
    have : c.wtLen * 65536 ≤ 2 ^ 32 := by
      calc c.wtLen * 65536 ≤ 65536 * 65536 := Nat.mul_le_mul_right _ h2
        _ = 2 ^ 32 := by norm_num
    exact lt_of_lt_of_le hlt this
  have hv : (BitVec.ofNat 32 ((v.pos.toNat + v.inc.toNat) % (c.wtLen * 65536))).toNat =
      (v.pos.toNat + v.inc.toNat) % (c.wtLen * 65536) := by
    rw [BitVec.toNat_ofNat, Nat.mod_eq_of_lt hfit]
  refine ⟨_, hv, hv.symm ▸ hlt, ?_⟩
  rw [advance, fitU_natCast hfit]

/-- One active voice in one sample: the steps of R173. -/
theorem renderVoice_ok (hc : c.Facts) (h : VoiceOk c v) :
    ∃ v1 w, envStep c v = .ok v1 ∧ advance c v1 = .ok w ∧ renderVoice c v = .ok (w, contribution c v1) ∧
      VoiceOk c w ∧ (w.note = v.note ∨ w.note = none) := by
  obtain ⟨v1, he, hok, hp, hi, hh, hn⟩ := envStep_keeps_ok hc h
  obtain ⟨pos, hpos, hlt, ha⟩ := advance_ok hc v1
  refine ⟨v1, _, he, ha, by simp only [renderVoice, he, ha], ?_, hn⟩
  exact ⟨hok.1, hok.2.1, hok.2.2.1, hok.2.2.2.1, hok.2.2.2.2.1, hlt⟩

/-- The per-voice loop answers on a sound pool: every voice stays sound, and holds its note or none. -/
theorem renderVoices_ok (hc : c.Facts) (h : ∀ v ∈ vs, VoiceOk c v) (acc : Int) :
    ∃ ws a, renderVoices c vs acc = .ok (ws, a) ∧ (∀ w ∈ ws, VoiceOk c w) ∧
      List.Forall₂ (fun v w : Voice => w.note = v.note ∨ w.note = none) vs ws := by
  induction vs generalizing acc with
  | nil => exact ⟨[], acc, rfl, by simp, .nil⟩
  | cons v vs ih =>
    have hv := h v List.mem_cons_self
    have hvs : ∀ v ∈ vs, VoiceOk c v := fun w hw => h w (List.mem_cons_of_mem _ hw)
    by_cases hst : v.st = .idle
    · obtain ⟨ws, a, h1, h2, h3⟩ := ih hvs acc
      exact ⟨v :: ws, a, by simp only [renderVoices, hst, if_true, h1],
        List.forall_mem_cons.2 ⟨hv, h2⟩, .cons (.inl rfl) h3⟩
    · obtain ⟨v1, w, -, -, h4, h5, h6⟩ := renderVoice_ok hc hv
      obtain ⟨ws, a, h1, h2, h3⟩ := ih hvs (acc + contribution c v1)
      exact ⟨w :: ws, a, by simp only [renderVoices, if_neg hst, h4, h1],
        List.forall_mem_cons.2 ⟨h5, h2⟩, .cons h6 h3⟩

/-- A voice keeps its note or loses it, so the notes stay distinct (10_state.md R29 item 2). -/
theorem distinct_forall₂ {ws : List Voice} (h : List.Forall₂ (fun v w : Voice => w.note = v.note ∨ w.note = none) vs ws)
    (hd : vs.Pairwise (fun v w => v.note = none ∨ v.note ≠ w.note)) :
    ws.Pairwise (fun v w => v.note = none ∨ v.note ≠ w.note) := by
  induction h with
  | nil => exact .nil
  | @cons v w vs ws hvw hrest ih =>
    obtain ⟨h1, h2⟩ := List.pairwise_cons.1 hd
    refine List.pairwise_cons.2 ⟨fun u hu => ?_, ih h2⟩
    obtain ⟨j, hj⟩ := List.mem_iff_getElem?.1 hu
    obtain ⟨x, hx, hxu⟩ : ∃ x ∈ vs, u.note = x.note ∨ u.note = none := by
      have hlen := hrest.length_eq
      obtain ⟨hj1, hj2⟩ := List.getElem?_eq_some_iff.1 hj
      have := List.forall₂_iff_get.1 hrest |>.2 j (by omega) hj1
      refine ⟨vs[j], List.getElem_mem _, ?_⟩
      simpa [hj2] using this
    rcases hvw with hvw | hvw
    · rcases h1 x hx with h | h
      · exact .inl (hvw.trans h)
      · rcases hxu with hxu | hxu
        · exact .inr (by rw [hvw, hxu]; exact h)
        · cases hv : v.note with
          | none => exact .inl (hvw.trans hv)
          | some k => exact .inr (by rw [hvw, hxu, hv]; simp)
    · exact .inl hvw

/-- The per-voice loop keeps the pool sound (10_state.md R29). -/
theorem renderVoices_pool (hc : c.Facts) (h : PoolOk c vs) (acc : Int) :
    ∃ ws a, renderVoices c vs acc = .ok (ws, a) ∧ PoolOk c ws := by
  obtain ⟨ws, a, h1, h2, h3⟩ := renderVoices_ok hc h.2.1 acc
  exact ⟨ws, a, h1, h3.length_eq ▸ h.1, h2, distinct_forall₂ h3 h.2.2⟩

/-- `tdiv` of a product with a factor of at most `b` lies between 0 and the other factor (R176 item 2). -/
theorem tdiv_mul_between {d : Int} {k b : Int} (hk0 : 0 ≤ k) (hkb : k ≤ b) (hb : 0 < b) :
    (0 ≤ d → 0 ≤ tdiv (d * k) b ∧ tdiv (d * k) b ≤ d) ∧ (d ≤ 0 → d ≤ tdiv (d * k) b ∧ tdiv (d * k) b ≤ 0) := by
  have key : ∀ d : Int, 0 ≤ d → 0 ≤ tdiv (d * k) b ∧ tdiv (d * k) b ≤ d := by
    intro d hd
    have h : 0 ≤ d * k := mul_nonneg hd hk0
    rw [tdiv_of_nonneg h]
    exact ⟨fdiv_nonneg h hb, fdiv_le_of_le_mul hb (mul_le_mul_of_nonneg_left hkb hd)⟩
  refine ⟨key d, fun hd => ?_⟩
  have := key (-d) (by omega)
  rw [neg_mul, tdiv_neg] at this
  omega

/-- The normalisation update answers with the value of R175, in 0..2^24 (R176 item 3). -/
theorem normUpdate_ok (hc : c.Facts) {norm : BitVec 25} (h : norm.toNat ≤ 2 ^ 24) (n : Nat) :
    ∃ norm', normUpdate c n norm = .ok norm' ∧ norm'.toNat ≤ 2 ^ 24 ∧
      (n = 0 → norm'.toNat = 2 ^ 24) ∧
      (n ≠ 0 → (norm'.toNat : Int) =
        norm.toNat + tdiv ((normTarget c n - norm.toNat) * c.alpha) 65536) := by
  unfold normUpdate
  split
  · exact ⟨_, rfl, by decide, fun _ => by decide, fun h => absurd ‹n = 0› h⟩
  · rename_i hn
    have ht : normTarget c n ≤ 2 ^ 24 := hc.target_le _
    have ha := hc.alpha_le
    have hb := tdiv_mul_between (d := (normTarget c n : Int) - norm.toNat) (k := c.alpha) (b := 65536)
      (by positivity) (by exact_mod_cast ha) (by norm_num)
    obtain ⟨v, hv1, hv2⟩ := fitU_of_fits (w := 25) (r := .norm)
      (x := norm.toNat + tdiv ((normTarget c n - norm.toNat) * c.alpha) 65536)
      (by rcases le_total 0 ((normTarget c n : Int) - norm.toNat) with hd | hd
          · have := hb.1 hd; omega
          · have := hb.2 hd; omega)
      (by rcases le_total 0 ((normTarget c n : Int) - norm.toNat) with hd | hd
          · have := hb.1 hd; omega
          · have := hb.2 hd; omega)
    refine ⟨v, hv1, ?_, fun h0 => absurd h0 hn, fun _ => hv2⟩
    rcases le_total 0 ((normTarget c n : Int) - norm.toNat) with hd | hd
    · have := hb.1 hd; omega
    · have := hb.2 hd; omega

/-- The bit that one voice sets (45_control_port.md R246). -/
theorem voiceMask_bit (v : Voice) (n : Note) :
    (voiceMask v).getLsbD n.val = true ↔ v.st ≠ .idle ∧ v.note = some n := by
  unfold voiceMask
  cases hn : v.note with
  | none => simp
  | some k =>
    have hk : k.val < 13 := k.isLt
    by_cases hst : v.st = .idle
    · simp [hst]
    · simp only [if_neg hst, BitVec.getLsbD_twoPow]
      simp [hst, hk, Fin.ext_iff]

/-- `act_mask()` bit by bit (45_control_port.md R246). -/
theorem actMask_bit (vs : List Voice) (n : Note) :
    (actMask vs).getLsbD n.val = true ↔ ∃ v ∈ vs, v.st ≠ .idle ∧ v.note = some n := by
  induction vs with
  | nil => simp [actMask]
  | cons v vs ih =>
    rw [actMask, BitVec.getLsbD_or, Bool.or_eq_true, voiceMask_bit, ih]
    simp

end Sys2Proof.Machine
end

