-- ==== Sys2Proof/Laws/Audio.lean ====
section
/-! SUPPORT. What the audio sample step can do (44_output_and_step.md R220): from a sound state it completes, emits
one pair, writes only what agent A owns (10_state.md R39), and leaves a sound state. -/

namespace Sys2Proof.Machine

/-- What stages 6 to 9 leave unchanged: they write the voices, `NORM`, `ACT_NOTES`, `rd` and the histories of
pairs, events and pops. -/
theorem output_frame (vs : List Voice) (norm : BitVec 25) (y : Int) (s : State) :
    ∃ m rd ev po, output vs norm y s = { s with
        voices := vs, norm := norm, actNotes := actMask vs, rd := rd, events := ev, popped := po,
        emitted := s.emitted ++ [pairWord m m] } ∧
      (pop s).2 = { s with rd := rd, events := ev, popped := po } := by
  obtain ⟨rd, ev, po, h⟩ := pop_frame s
  refine ⟨sample16 (combine s.cfg y (pop s).1), rd, ev, po, ?_, h⟩
  simp only [output, emit, h]

/-- Stages 2 to 9 on a sound pool: they complete, and the pool, `NORM` and `ACT_NOTES` are sound after them. -/
theorem render_spec {s : State} (hc : s.cfg.Facts) (hp : PoolOk s.cfg s.voices) (hn : s.norm.toNat ≤ 2 ^ 24) :
    ∃ vs norm m rd ev po, render s = .next { s with
        voices := vs, norm := norm, actNotes := actMask vs, rd := rd, events := ev, popped := po,
        emitted := s.emitted ++ [pairWord m m] } ∧
      PoolOk s.cfg vs ∧ norm.toNat ≤ 2 ^ 24 ∧
      (pop s).2 = { s with rd := rd, events := ev, popped := po } := by
  obtain ⟨vs, acc, h1, h2⟩ := renderVoices_pool hc hp 0
  obtain ⟨norm, h3, h4, -, -⟩ := normUpdate_ok hc hn (activeCount s.voices)
  obtain ⟨m, rd, ev, po, h5, h6⟩ := output_frame vs norm (synthOut acc norm s.mvol) s
  exact ⟨vs, norm, m, rd, ev, po, by simp only [render, h1, h3, h5], h2, h4, h6⟩

/-- What the sample step needs and keeps. -/
structure AudioOk (s : State) : Prop where
  drain : DrainOk s
  norm : s.norm.toNat ≤ 2 ^ 24
  bridge : BridgeOk s

/-- The sample step of a sound state completes; it writes only what agent A owns and the histories, and leaves a
sound state whose `ACT_NOTES` describes its voices (R220, 10_state.md R39). -/
theorem aStep_spec {s : State} (h : AudioOk s) :
    ∃ vs norm mv cr rd m ev po ap, aStep s = .next { s with
        voices := vs, norm := norm, mvol := mv, actNotes := actMask vs, rd := rd, cr := cr, events := ev,
        popped := po, cmdApplied := ap, emitted := s.emitted ++ [pairWord m m] } ∧
      cr = s.cwS ∧
      AudioOk { s with
        voices := vs, norm := norm, mvol := mv, actNotes := actMask vs, rd := rd, cr := cr, events := ev,
        popped := po, cmdApplied := ap, emitted := s.emitted ++ [pairWord m m] } := by
  have hq : 0 < s.cfg.cmdDepth := by have := h.drain.cfg.cmd_ge; omega
  obtain ⟨hw, hcr, hcw, -⟩ := h.drain.inbox.cursors_lt hq
  obtain ⟨vs1, mv, ev1, ap, h1, h2⟩ := drain_spec hcr hcw
  have hd := h2 h.drain
  obtain ⟨vs, norm, m, rd, ev, po, h3, h4, h5, h6⟩ := render_spec hd.cfg hd.pool h.norm
  have hb : BridgeOk { s with voices := vs1, mvol := mv, events := ev1, cmdApplied := ap, cr := s.cwS } := h.bridge
  have hb' := pop_ok hb
  rw [h6] at hb'
  refine ⟨vs, norm, mv, s.cwS, rd, m, ev, po, ap, ?_, rfl, ⟨hd.cfg, h4, hd.mvol, hd.inbox⟩, h5, hb'⟩
  rw [aStep, h1]
  exact h3

end Sys2Proof.Machine
end

