-- ==== Sys2Proof/Laws/Encoding.lean ====
section
/-! SUPPORT. The fields of a command word: a word is its three fields, and they read back (30_encoding.md R90). -/

namespace Sys2Proof

@[simp] theorem opField_mkWord (op r : BitVec 4) (a : Byte) : opField (mkWord op r a) = op := by
  ext i hi
  simp only [opField, mkWord, BitVec.getElem_extractLsb', BitVec.getLsbD_append]
  rw [if_neg (by omega), if_neg (by omega), ← BitVec.getLsbD_eq_getElem]
  congr 1; omega

@[simp] theorem rsvField_mkWord (op r : BitVec 4) (a : Byte) : rsvField (mkWord op r a) = r := by
  ext i hi
  simp only [rsvField, mkWord, BitVec.getElem_extractLsb', BitVec.getLsbD_append]
  rw [if_neg (by omega), if_pos (by omega), ← BitVec.getLsbD_eq_getElem]
  congr 1; omega

@[simp] theorem argField_mkWord (op r : BitVec 4) (a : Byte) : argField (mkWord op r a) = a := by
  ext i hi
  simp only [argField, mkWord, BitVec.getElem_extractLsb', BitVec.getLsbD_append]
  rw [if_pos (by omega), ← BitVec.getLsbD_eq_getElem]
  congr 1; omega

/-- A word is made of its three fields: no bit is outside them. -/
theorem mkWord_fields (w : Word) : mkWord (opField w) (rsvField w) (argField w) = w := by
  apply BitVec.eq_of_getLsbD_eq
  intro i hi
  simp only [mkWord, opField, rsvField, argField, BitVec.getLsbD_append, BitVec.getLsbD_extractLsb']
  split_ifs with h1 h2
  · simp [h1]
  · rw [decide_eq_true h2, Bool.true_and]; congr 1; omega
  · rw [decide_eq_true (by omega), Bool.true_and]; congr 1; omega

end Sys2Proof
end

