-- ==== Sys2Proof/Laws/PerInstr.lean ====
section
/-! SUPPORT. One statement for each constructor of `Instr`: the word of a well-formed instruction lies in its own row
of spec/opcode_table.json. -/

namespace Sys2Proof.Laws.TableRow

/-- The mask of an instruction's row in spec/opcode_table.json: the bits the row fixes. -/
def rowMask : Instr → Word
  | .nop _ _ => 0xF000
  | .noteOn _ => 0xFF00
  | .noteOff _ => 0xFF00
  | .setMvol _ => 0xFF00
  | .key _ => 0xFF00
  | .reservedOp1 _ _ => 0xF000
  | .reservedOp2 _ _ => 0xF000
  | .reservedOp3 _ _ => 0xF000
  | .reservedOp4 _ _ => 0xF000
  | .reservedOp5 _ _ => 0xF000
  | .reservedOp6to7 _ _ _ => 0xE000
  | .reservedOp8toF _ _ _ => 0x8000

/-- What the row fixes those bits at. -/
def rowMatch : Instr → Word
  | .nop _ _ => 0x0000
  | .noteOn _ => 0x1000
  | .noteOff _ => 0x2000
  | .setMvol _ => 0x3000
  | .key _ => 0x4000
  | .reservedOp1 _ _ => 0x1000
  | .reservedOp2 _ _ => 0x2000
  | .reservedOp3 _ _ => 0x3000
  | .reservedOp4 _ _ => 0x4000
  | .reservedOp5 _ _ => 0x5000
  | .reservedOp6to7 _ _ _ => 0x6000
  | .reservedOp8toF _ _ _ => 0x8000

/-- The row is one of those that 30_encoding.md R94 sets apart from a named command: RSV is not 0. -/
def rowExcludesZeroRsv : Instr → Bool
  | .nop _ _ => false
  | .noteOn _ => false
  | .noteOff _ => false
  | .setMvol _ => false
  | .key _ => false
  | .reservedOp1 _ _ => true
  | .reservedOp2 _ _ => true
  | .reservedOp3 _ _ => true
  | .reservedOp4 _ _ => true
  | .reservedOp5 _ _ => false
  | .reservedOp6to7 _ _ _ => false
  | .reservedOp8toF _ _ _ => false

/-- The word of a well-formed instruction has its row's bits, and RSV not 0 where the row says so (R92, R94). -/
def Statement (i : Instr) : Prop :=
  i.wf = true → encode i &&& rowMask i = rowMatch i ∧ (rowExcludesZeroRsv i = true → rsvField (encode i) ≠ 0)

/-- A mask acts on the three fields of a word, each for itself. -/
theorem mkWord_and (op rsv m r : BitVec 4) (arg a : Byte) :
    mkWord op rsv arg &&& mkWord m r a = mkWord (op &&& m) (rsv &&& r) (arg &&& a) := by
  apply BitVec.eq_of_getLsbD_eq
  intro i hi
  simp only [mkWord, BitVec.getLsbD_and, BitVec.getLsbD_append]
  split_ifs <;> rfl

/-- A row whose mask keeps some bits of OP and nothing else. -/
theorem mkWord_and_op (op rsv : BitVec 4) (arg : Byte) (m : BitVec 4) :
    mkWord op rsv arg &&& mkWord m 0 0 = mkWord (op &&& m) 0 0 := by
  simp [mkWord_and]

/-- A row whose mask keeps OP and RSV. -/
theorem mkWord_and_op_rsv (op rsv : BitVec 4) (arg : Byte) :
    mkWord op rsv arg &&& mkWord (BitVec.allOnes 4) (BitVec.allOnes 4) 0 = mkWord op rsv 0 := by
  rw [mkWord_and, BitVec.and_allOnes, BitVec.and_allOnes]
  simp

theorem nop (rsv : BitVec 4) (arg : Byte) : Statement (.nop rsv arg) :=
  fun _ => ⟨mkWord_and_op 0x0 rsv arg 0xF, nofun⟩

theorem noteOn (n : Byte) : Statement (.noteOn n) := fun _ => ⟨mkWord_and_op_rsv 0x1 0 n, nofun⟩

theorem noteOff (n : Byte) : Statement (.noteOff n) := fun _ => ⟨mkWord_and_op_rsv 0x2 0 n, nofun⟩

theorem setMvol (v : Byte) : Statement (.setMvol v) := fun _ => ⟨mkWord_and_op_rsv 0x3 0 v, nofun⟩

theorem key (c : Byte) : Statement (.key c) := fun _ => ⟨mkWord_and_op_rsv 0x4 0 c, nofun⟩

theorem reservedOp1 (rsv : BitVec 4) (arg : Byte) : Statement (.reservedOp1 rsv arg) :=
  fun h => ⟨mkWord_and_op 0x1 rsv arg 0xF, fun _ => by simpa [Instr.wf, encode] using h⟩

theorem reservedOp2 (rsv : BitVec 4) (arg : Byte) : Statement (.reservedOp2 rsv arg) :=
  fun h => ⟨mkWord_and_op 0x2 rsv arg 0xF, fun _ => by simpa [Instr.wf, encode] using h⟩

theorem reservedOp3 (rsv : BitVec 4) (arg : Byte) : Statement (.reservedOp3 rsv arg) :=
  fun h => ⟨mkWord_and_op 0x3 rsv arg 0xF, fun _ => by simpa [Instr.wf, encode] using h⟩

theorem reservedOp4 (rsv : BitVec 4) (arg : Byte) : Statement (.reservedOp4 rsv arg) :=
  fun h => ⟨mkWord_and_op 0x4 rsv arg 0xF, fun _ => by simpa [Instr.wf, encode] using h⟩

theorem reservedOp5 (rsv : BitVec 4) (arg : Byte) : Statement (.reservedOp5 rsv arg) :=
  fun _ => ⟨mkWord_and_op 0x5 rsv arg 0xF, nofun⟩

theorem reservedOp6to7 (op : BitVec 1) (rsv : BitVec 4) (arg : Byte) : Statement (.reservedOp6to7 op rsv arg) :=
  fun _ => ⟨by
    have h : ∀ o : BitVec 1, (((0x3 : BitVec 3) ++ o : BitVec (3 + 1)) &&& (0xE : BitVec 4)) = 0x6 := by decide
    exact (mkWord_and_op _ rsv arg 0xE).trans (congrArg (fun o => mkWord o 0 0) (h op)), nofun⟩

theorem reservedOp8toF (op : BitVec 3) (rsv : BitVec 4) (arg : Byte) : Statement (.reservedOp8toF op rsv arg) :=
  fun _ => ⟨by
    have h : ∀ o : BitVec 3, (((0x1 : BitVec 1) ++ o : BitVec (1 + 3)) &&& (0x8 : BitVec 4)) = 0x8 := by decide
    exact (mkWord_and_op _ rsv arg 0x8).trans (congrArg (fun o => mkWord o 0 0) (h op)), nofun⟩

end Sys2Proof.Laws.TableRow
end

