-- ==== Sys2Proof/Laws/Step.lean ====
section
/-! SUPPORT. What a step of each agent can write, from any state: the frames that the statements about the whole
machine cite (10_state.md R39). -/

namespace Sys2Proof.Machine

/-- The drain writes the voices, `MVOL`, the event history and the inbox read side, from any state. -/
theorem drainLoop_frame {k : Nat} {s t : State} (h : drainLoop k s = .next t) :
    ∃ vs mv ev cr ap, t = { s with voices := vs, mvol := mv, events := ev, cr := cr, cmdApplied := ap } := by
  induction k generalizing s with
  | zero => cases h; exact ⟨_, _, _, _, _, rfl⟩
  | succ k ih =>
    simp only [drainLoop] at h
    split at h
    · obtain ⟨vs, mv, ev, he, -⟩ := exec_frame (decode (cmdRead s s.cr)) s
      rw [he] at h
      obtain ⟨vs', mv', ev', cr', ap', rfl⟩ := ih h
      exact ⟨_, _, _, _, _, rfl⟩
    · cases h; exact ⟨_, _, _, _, _, rfl⟩

/-- The sample step writes only what agent A owns and the histories, from any state; it emits one pair of equal
samples, and `ACT_NOTES` describes the voices after it. -/
theorem aStep_frame {s t : State} (h : aStep s = .next t) :
    ∃ vs norm mv cr rd m ev po ap, t = { s with
      voices := vs, norm := norm, mvol := mv, actNotes := actMask vs, rd := rd, cr := cr, events := ev,
      popped := po, cmdApplied := ap, emitted := s.emitted ++ [pairWord m m] } := by
  unfold aStep at h
  cases hd : drain s with
  | next u =>
    rw [hd] at h
    obtain ⟨vs, mv, ev, cr, ap, rfl⟩ := drainLoop_frame hd
    simp only [andThen, render] at h
    split at h
    · cases h
    · split at h
      · cases h
      · rename_i ws acc _ _ norm _
        obtain ⟨m, rd, ev', po, ho, -⟩ := output_frame ws norm (synthOut acc norm mv)
          { s with voices := vs, mvol := mv, events := ev, cr := cr, cmdApplied := ap }
        cases h
        exact ⟨_, _, _, _, _, m, _, _, _, ho⟩
  | fault f => rw [hd] at h; cases h
  | refused r => rw [hd] at h; cases h

/-- An element write writes RING, its cursor and the histories. -/
theorem elemWrite_frame (x : Word) (s : State) :
    ∃ ring wr ev ac, elemWrite x s = { s with ring := ring, wr := wr, events := ev, accepted := ac } := by
  rcases elemWrite_cases x s with ⟨-, h⟩ | ⟨-, h⟩ <;> rw [h] <;> exact ⟨_, _, _, _, rfl⟩

/-- A step that is not enabled holds (60_exceptions.md R271). -/
theorem runAct_held {a : Act} {s : State} (h : enabled a s = false) : runAct a s = .next s := by
  simp [runAct, h]

theorem runAct_enabled {a : Act} {s : State} (h : enabled a s = true) : runAct a s = perform a s := by
  simp [runAct, h]

/-- Taking a turn off the schedule writes the schedule or the choice counter, nothing else. -/
theorem takeTurn_frame (s : State) : ∃ sched choice, takeTurn s = { s with sched := sched, choice := choice } := by
  unfold takeTurn
  split <;> exact ⟨_, _, rfl⟩

end Sys2Proof.Machine
end

