-- ==== Sys2Proof/Machine/Script.lean ====
section
/-! DEFINITION. The notations of 30_encoding.md: assembler syntax and macros (R101, R102), and scripts, which fix
one schedule (R103). -/

namespace Sys2Proof.Machine

/-- A blank: space or tab (log 23). -/
def isBlank (c : Char) : Bool := c == ' ' || c == '\t'

/-- The text of a line before its comment (R101). -/
def dropComment (cs : List Char) : List Char := cs.takeWhile (fun c => c != ';')

/-- The words of a line; `cur` is the word being read, last character first. -/
def lineWords : List Char → List Char → List (List Char)
  | [], cur => if cur.isEmpty then [] else [cur.reverse]
  | c :: cs, cur =>
    if isBlank c then (if cur.isEmpty then lineWords cs [] else cur.reverse :: lineWords cs [])
    else lineWords cs (c :: cur)

/-- The value of a decimal or hexadecimal digit. -/
def digitValue (c : Char) : Option Nat :=
  if '0' ≤ c ∧ c ≤ '9' then some (c.toNat - '0'.toNat)
  else if 'a' ≤ c ∧ c ≤ 'f' then some (c.toNat - 'a'.toNat + 10)
  else if 'A' ≤ c ∧ c ≤ 'F' then some (c.toNat - 'A'.toNat + 10)
  else none

/-- The number that digits stand for in a base, continuing from `acc`. -/
def digitsValue (base : Nat) : List Char → Nat → Option Nat
  | [], acc => some acc
  | c :: cs, acc =>
    match digitValue c with
    | some d => if d < base then digitsValue base cs (acc * base + d) else none
    | none => none

/-- A number, decimal or hexadecimal (R101). -/
def numberValue : List Char → Option Nat
  | [] => none
  | ['0', 'x'] => none
  | '0' :: 'x' :: cs => digitsValue 16 cs 0
  | cs => digitsValue 10 cs 0

/-- An operand: a number in 0..255 (R101). -/
def operandValue (cs : List Char) : Option Byte :=
  match numberValue cs with
  | some n => if n < 256 then some (BitVec.ofNat 8 n) else none
  | none => none

/-- The word of `.word 0xHHHH` (R101). -/
def rawWordValue : List Char → Option Word
  | ['0', 'x', a, b, c, d] => (digitsValue 16 [a, b, c, d] 0).map (BitVec.ofNat 16)
  | _ => none

/-- The macro `ALL_OFF` (R102). -/
def allOff : List Word := allNotes.map (fun n => encode (.noteOff (BitVec.ofNat 8 n.val)))

/-- The macro `MUTE` (R102). -/
def mute : List Word := [encode (.setMvol 0)]

/-- The words of one line of assembler text, or none where it is no line of the syntax (R101, R102). -/
def assembleLine (line : List Char) : Option (List Word) :=
  match lineWords (dropComment line) [] with
  | [] => some []
  | [m] =>
    if m = ['N', 'O', 'P'] then some [0x0000]
    else if m = ['A', 'L', 'L', '_', 'O', 'F', 'F'] then some allOff
    else if m = ['M', 'U', 'T', 'E'] then some mute
    else none
  | [m, x] =>
    if m = ['N', 'O', 'T', 'E', '_', 'O', 'N'] then (operandValue x).map (fun n => [encode (.noteOn n)])
    else if m = ['N', 'O', 'T', 'E', '_', 'O', 'F', 'F'] then (operandValue x).map (fun n => [encode (.noteOff n)])
    else if m = ['S', 'E', 'T', '_', 'M', 'V', 'O', 'L'] then (operandValue x).map (fun v => [encode (.setMvol v)])
    else if m = ['K', 'E', 'Y'] then (operandValue x).map (fun c => [encode (.key c)])
    else if m = ['.', 'w', 'o', 'r', 'd'] then (rawWordValue x).map (fun w => [w])
    else none
  | _ => none

/-- One line of a script (R103). -/
inductive ScriptLine where
  | write (w : Word)
  | read (a : BitVec 2)
  | push (x : Word)
  | dup
  | syncCw
  | syncCr
  | syncWr
  | syncRd
  | syncAct
  /-- `A STEP*n`. -/
  | steps (n : Nat)
  deriving DecidableEq, Repr

/-- The turns of a script line: one for each step it names (R103). -/
def lineTurns : ScriptLine → List Turn
  | .write _ => [.act .cWrite]
  | .read a => [.act (.cRead a)]
  | .push _ => [.act .wPush]
  | .dup => [.act .wDup]
  | .syncCw => [.act .syncCw]
  | .syncCr => [.act .syncCr]
  | .syncWr => [.act .syncWr]
  | .syncRd => [.act .syncRd]
  | .syncAct => [.act .syncAct]
  | .steps n => List.replicate n (.act .aStep)

/-- The command words that the control plane presents for a script line. -/
def lineCommands : ScriptLine → List Word
  | .write w => [w]
  | _ => []

/-- The samples that the producer presents for a script line. -/
def lineSamples : ScriptLine → List Word
  | .push x => [x]
  | _ => []

/-- The state with a script as its schedule: the host presents the script's words and samples in order, and each
step of the script is one turn (R103). -/
def withScript (lines : List ScriptLine) (s : State) : State :=
  { s with
    sched := s.sched ++ lines.flatMap lineTurns
    cmdIn := s.cmdIn ++ lines.flatMap lineCommands
    sampIn := s.sampIn ++ lines.flatMap lineSamples }

end Sys2Proof.Machine
end

