-- ==== Sys2Proof/Tests/Slice0.lean ====
section
/-! SUPPORT. The model's own tests. The expected results are those of spec/95_test_vectors.md and of the rules named,
and a witness for the hypotheses of every statement. -/

namespace Sys2Proof.Tests

open Sys2Proof.Machine

/-! ## Small states -/

/-- A field of the next state, where there is one. -/
def after {α : Type} (o : Host.Outcome State Fault Refusal) (f : State → α) : Option α :=
  match o with
  | .next t => some (f t)
  | .fault _ => none
  | .refused _ => none

/-- A field of a voice, where it steps. -/
def ofVoice {α : Type} (r : Except Fault Voice) (f : Voice → α) : Option α :=
  match r with
  | .ok v => some (f v)
  | .error _ => none

/-- TC-A of 95_test_vectors.md section 0. -/
def tcA : Cfg :=
  { defaultCfg with
    nVoices := 2
    attack := 4
    decay := 4
    release := 4
    sus := 16384
    wt := [16384, 16384, 16384, 16384]
    noteInc := List.replicate 13 0x10000
    normLut := [16777216, 11863283]
    ringCap := 8
    cmdDepth := 8 }

/-- TC-A at the release of reset. -/
def resetA : State := State.resetWith tcA

/-- A voice that sounds a note at full phase increment. -/
def sounding (n : Note) (st : EnvState) (lev : BitVec 16) (tmr : BitVec 24) (held : Bool) : Voice :=
  { note := some n, st := st, lev := lev, tmr := tmr, pos := 0x10000, inc := 0x10000, held := held }

/-- TC-A with voice 0 on note 0 and voice 1 on note 1: a full pool. -/
def fullPool : State :=
  { resetA with voices := [sounding 0 .release 8192 2 false, sounding 1 .attack 8192 1 true] }

/-- TC-A in the middle of a run: a note sounds, one command waits, one sample waits, an `A STEP` is next. -/
def busy : State :=
  { resetA with
    voices := [sounding 0 .attack 8192 1 true, Voice.reset]
    actNotes := 1
    cmdq := [(0, 0x1000), (1, 0x1001)]
    cmdWritten := [0x1000, 0x1001]
    cmdApplied := [0x1000]
    cr := 1
    cw := 2
    cwS := 2
    ring := [(0, 100), (1, 100)]
    accepted := [100, 100]
    popped := [100]
    rd := 1
    wr := 2
    wrS := 2
    emitted := [0]
    cmdIn := [0x2000]
    sampIn := [300]
    sched := [.act .aStep] }

/-- TC-A with all three resets asserted. -/
def held : State := assertReset resetA

/-! ## Well-formedness -/

theorem test_wf_refuses_named_rsv :
    (Instr.reservedOp1 0 0).wf = false ∧ (Instr.reservedOp2 0 7).wf = false ∧
    (Instr.reservedOp3 0 0xFF).wf = false ∧ (Instr.reservedOp4 0 1).wf = false := by decide

theorem test_wf_accepts_reserved_rsv :
    (Instr.reservedOp1 1 0).wf = true ∧ (Instr.reservedOp2 0xF 7).wf = true ∧
    (Instr.reservedOp3 8 0xFF).wf = true ∧ (Instr.reservedOp4 0xF 0x1E).wf = true := by decide

theorem test_wf_accepts_manual_configurations : tcA.wf = true ∧ defaultCfg.wf = true := by decide +kernel

/-- Each configuration breaks one line of 00_scope.md R7 or R8: the counts and times. -/
def badCounts : List Cfg :=
  [ { tcA with nVoices := 0, normLut := [] },
    { tcA with nVoices := 17, normLut := List.replicate 17 0 },
    { tcA with fs := 0 },
    { tcA with fs := 2 ^ 20 + 1 },
    { tcA with attack := 0 },
    { tcA with attack := 2 ^ 24 },
    { tcA with decay := 0 },
    { tcA with decay := 2 ^ 24 },
    { tcA with release := 0 },
    { tcA with release := 2 ^ 24 },
    { tcA with sus := 32769 } ]

/-- The tables and the key codes. -/
def badTables : List Cfg :=
  [ { tcA with wt := [] },
    { tcA with noteInc := List.replicate 12 1 },
    { tcA with pressCode := List.replicate 12 1 },
    { tcA with pressCode := List.replicate 13 0x81 },
    { tcA with releaseMask := 0 },
    { tcA with releaseMask := 0xC0, pressCode := List.replicate 13 1 },
    { tcA with alpha := 65537 },
    { tcA with normLut := [16777216] },
    { tcA with normLut := [16777216, 16777217] } ]

/-- The memories and the gains. -/
def badSizes : List Cfg :=
  [ { tcA with ringCap := 1 },
    { tcA with ringCap := 7 },
    { tcA with ringCap := 131072 },
    { tcA with cmdDepth := 1 },
    { tcA with cmdDepth := 12 },
    { tcA with cmdDepth := 512 },
    { tcA with bgmGain := 32769 },
    { tcA with mvolReset := 101 },
    { tcA with syncStages := 1 } ]

theorem test_wf_refuses_bad_counts : badCounts.all (fun c => !c.wf) = true := by decide +kernel

theorem test_wf_refuses_bad_tables : badTables.all (fun c => !c.wf) = true := by decide +kernel

theorem test_wf_refuses_bad_sizes : badSizes.all (fun c => !c.wf) = true := by decide +kernel

theorem test_wf_refuses_long_wavetable :
    ({ tcA with wt := List.replicate 65537 0 } : Cfg).wf = false := by
  have h : inRange 1 65536 65537 = false := by decide
  simp only [Cfg.wf, Cfg.wtLen, List.length_replicate, h, Bool.and_false, Bool.false_and]

theorem test_boot_refuses_ill_formed :
    boot { tcA with ringCap := 7 } = .refused .illFormedConfig := by rfl

/-! ## Decoding: words written out from 30_encoding.md R90 and R92, OP then RSV then ARG -/

theorem test_decode_nop : decode 0b0000_1010_10111100 = .nop 0b1010 0b10111100 := by decide

theorem test_decode_noteOn : decode 0b0001_0000_00001100 = .noteOn 12 := by decide

theorem test_decode_noteOff : decode 0b0010_0000_00001001 = .noteOff 9 := by decide

theorem test_decode_setMvol : decode 0b0011_0000_00110010 = .setMvol 50 := by decide

theorem test_decode_key : decode 0b0100_0000_10011110 = .key 0x9E := by decide

theorem test_decode_reservedOp1 : decode 0b0001_0001_00000000 = .reservedOp1 1 0 := by decide

theorem test_decode_reservedOp2 : decode 0b0010_1000_00000101 = .reservedOp2 8 5 := by decide

theorem test_decode_reservedOp3 : decode 0b0011_0010_11111111 = .reservedOp3 2 255 := by decide

theorem test_decode_reservedOp4 : decode 0b0100_1111_00011110 = .reservedOp4 0xF 0x1E := by decide

theorem test_decode_reservedOp5 : decode 0b0101_0000_00000001 = .reservedOp5 0 1 := by decide

theorem test_decode_reservedOp6 : decode 0b0110_0000_00000010 = .reservedOp6to7 0 0 2 := by decide

theorem test_decode_reservedOp7 : decode 0b0111_1001_00000011 = .reservedOp6to7 1 9 3 := by decide

theorem test_decode_reservedOp8 : decode 0b1000_0000_00000100 = .reservedOp8toF 0 0 4 := by decide

theorem test_decode_reservedOpF : decode 0b1111_0110_00000111 = .reservedOp8toF 7 6 7 := by decide

theorem test_table_word : decodeTableWord 16 0x200C = some (.noteOff 12) ∧ decodeTableWord 24 0x200C = none := by
  decide

/-! ## Assembler text (30_encoding.md R101, R102) -/

theorem test_assemble_manual_lines :
    assembleLine "NOTE_ON 5".toList = some [0x1005] ∧ assembleLine "NOTE_OFF 12".toList = some [0x200C] ∧
    assembleLine "SET_MVOL 50 ; half".toList = some [0x3032] ∧ assembleLine "KEY 0x9E".toList = some [0x409E] ∧
    assembleLine ".word 0x5000".toList = some [0x5000] := by decide

theorem test_assemble_refuses :
    assembleLine "NOTE_ON 256".toList = none ∧ assembleLine "NOTE_ON".toList = none ∧
    assembleLine "NOP 1".toList = none ∧ assembleLine "; only a comment".toList = some [] := by decide

theorem test_macros : allOff.length = 13 ∧ allOff.head? = some 0x2000 ∧ allOff.getLast? = some 0x200C ∧
    mute = [0x3000] := by decide

/-! ## The commands (95_test_vectors.md 2.2, 2.3, 2.7) -/

theorem test_nop : after (exec (.nop 0xA 0xBC) busy) id = some busy := by rfl

theorem test_noteOn_allocates : after (exec (.noteOn 0) resetA) State.voices =
    some [⟨some 0, .attack, 0, 0, 0, 0x10000, true⟩, Voice.reset] := by decide +kernel

theorem test_noteOn_retriggers_in_a_full_pool : after (exec (.noteOn 0) fullPool) (fun t => (t.voices.head?, t.events)) =
    some (some ⟨some 0, .attack, 0, 0, 0, 0x10000, true⟩, []) := by decide +kernel

theorem test_noteOff_clears_held : after (exec (.noteOff 1) fullPool) State.voices =
    some [sounding 0 .release 8192 2 false, sounding 1 .attack 8192 1 false] := by decide +kernel

theorem test_noteOff_not_sounding : after (exec (.noteOff 5) resetA) (fun t => t.events.map eventCode) =
    some [3] := by decide +kernel

theorem test_setMvol : after (exec (.setMvol 50) resetA) State.mvol = some 50 := by decide +kernel

theorem test_setMvol_out_of_range : after (exec (.setMvol 101) resetA) (fun t => (t.mvol, t.events)) =
    some (100, [.mvolRange 0x3065]) := by decide +kernel

theorem test_key_release : after (exec (.key 0x9E) fullPool) (fun t => (t.voices, t.events)) =
    some (fullPool.voices, []) := by decide +kernel

theorem test_key_press_and_unmapped :
    after (exec (.key 0x25) resetA) (fun t => t.voices.head?.map Voice.note) = some (some (some 12)) ∧
    after (exec (.key 0x80) resetA) State.events = some [.keyUnmapped 0x4080] := by decide +kernel

theorem test_reserved_low :
    after (exec (.reservedOp1 1 0) busy) State.events = some [.rsvdCmd 0x1100] ∧
    after (exec (.reservedOp2 8 5) busy) State.events = some [.rsvdCmd 0x2805] ∧
    after (exec (.reservedOp3 2 255) busy) State.events = some [.rsvdCmd 0x32FF] ∧
    after (exec (.reservedOp4 0xF 0x1E) busy) State.events = some [.rsvdCmd 0x4F1E] := by decide +kernel

theorem test_reserved_high :
    after (exec (.reservedOp5 0 0) busy) State.events = some [.rsvdCmd 0x5000] ∧
    after (exec (.reservedOp6to7 1 9 3) busy) State.events = some [.rsvdCmd 0x7903] ∧
    after (exec (.reservedOp8toF 7 0xF 0xFF) busy) State.events = some [.rsvdCmd 0xFFFF] := by decide +kernel

/-! ## The oscillator, the envelope, the mix (95_test_vectors.md 2.4 to 2.8) -/

theorem test_envelope_levels :
    [1, 2, 110, 219, 220].map (attackLevel defaultCfg) = [148, 297, 16384, 32619, 32768] ∧
    [1, 2, 2205, 4409, 4410].map (decayLevel defaultCfg) = [32766, 32764, 27853, 22941, 22938] ∧
    [1, 2, 4410, 8819, 8820].map (releaseLevel defaultCfg) = [22936, 22933, 11469, 3, 0] := by decide +kernel

/-- The vectors of 2.5; the last is R127 worked by hand, where R128's last sentence disagrees (log 28): `i = 127`,
`WT[i] = 804`, `WT[j] = 0`, `804 + floor(-804 * 65535 / 65536) = 0`. -/
theorem test_interpolation :
    [0x8000, 0x18000, 0x4C000, 0x40C000, 0xC4000, 0xC40000, 0xFF8000, 0xFFFFFF, 0x7FFFFF].map (wtSample defaultCfg) =
      [402, 1206, 3811, 32759, 9703, -32609, -402, -1, 0] := by decide +kernel

theorem test_phase_wrap : ofVoice (advance defaultCfg { sounding 0 .attack 0 0 true with pos := 0xFFFF00, inc := 0x184CC })
    Voice.pos = some 0x183CC := by decide +kernel

theorem test_normalisation :
    (normUpdate tcA 2 16777216).toOption = some 16728104 ∧
    (normUpdate defaultCfg 3 16777216).toOption = some 16706347 ∧
    (normUpdate tcA 2 11863383).toOption = some 11863383 ∧
    (normUpdate tcA 0 11863383).toOption = some 16777216 := by decide +kernel

theorem test_synthesizer_output :
    synthOut (-3) 16777216 50 = -1 ∧ synthOut (-199) 16777216 1 = -1 ∧ synthOut 12345 16777216 0 = 0 ∧
    synthOut 65534 16728104 100 = 32767 ∧ normalised (-100000) 11863283 = -70711 := by decide

theorem test_combine :
    bgmScaled defaultCfg (BitVec.ofInt 16 (-5)) = -3 ∧ bgmScaled defaultCfg 32767 = 16383 ∧
    combine defaultCfg 20000 32767 = 32767 ∧ combine defaultCfg (-32768) 0x8000 = -32768 := by decide +kernel

theorem test_pair_word : pairWord (BitVec.ofInt 16 (-100)) (BitVec.ofInt 16 (-100)) = 0xFF9CFF9C := by decide

theorem test_default_tables : defaultCfg.wtLen = 256 ∧ defaultNoteInc.length = 13 ∧
    segmentSamples 5 1000 44100 = 220 ∧ releaseCode defaultCfg 0 = 0x9E ∧ defaultBlack 1 = true ∧
    defaultBlack 2 = false := by decide +kernel

/-! ## The bridge, the control port and one step (95_test_vectors.md 2.9 to 2.11) -/

theorem test_push_and_dup :
    after (.next (wPush 100 resetA)) (fun t => (t.ring, t.wr, t.dupV, t.dupX)) = some ([(0, 100)], 1, true, 100) ∧
    after (.next (wDup (wPush 100 resetA))) (fun t => (t.ring, t.wr, t.dupV)) =
      some ([(0, 100), (1, 100)], 2, false) := by decide +kernel

theorem test_push_on_full : (elemWrite 9 { resetA with wr := 7 }).events = [.ringFull 9] ∧
    (elemWrite 9 { resetA with wr := 7, rdS := 7 }).wr = 0 := by decide +kernel

theorem test_pop_wraps : (pop { resetA with rd := 7, ring := [(7, 5)] }).1 = 5 ∧
    (pop { resetA with rd := 7, ring := [(7, 5)] }).2.rd = 0 := by decide +kernel

theorem test_cmd_ready :
    cmdReady { resetA with cw := 6 } = true ∧ cmdReady { resetA with cw := 7 } = false ∧
    cmdReady { resetA with cw := 2, crS := 3 } = false ∧ inReady { resetA with dupV := true } = false := by
  decide +kernel

theorem test_status_read : csr { resetA with actS := 0b1_0000_0000_0011 } 0 = 0x1003 ∧
    csr { resetA with actS := 0b1_0000_0000_0011 } 3 = 0 := by decide +kernel

theorem test_drain_wraps :
    after (drain { resetA with cr := 6, cwS := 1, cmdq := [(0, 0x3003), (6, 0x3001), (7, 0x3002)] })
      (fun t => (t.cr, t.mvol, t.cmdApplied)) = some (1, 3, [0x3001, 0x3002, 0x3003]) := by decide +kernel

theorem test_sample_step : after (step busy) (fun t => (t.voices.map Voice.note, t.norm, t.rd, t.cr, t.actNotes)) =
    some ([some 0, some 1], 16728104, 2, 2, 3) := by decide +kernel

/-- The worked example of 44_output_and_step.md R228. -/
theorem test_worked_sample_step :
    after (aStep { resetA with cmdq := [(0, 0x1000)], cw := 1, cwS := 1 })
      (fun t => (t.voices.head?, t.norm, t.mvol, t.actNotes, t.emitted)) =
    some (some (sounding 0 .attack 8192 1 true), 16777216, 100, 1, [0x10001000]) := by decide +kernel

theorem test_fetch_word_runs : after (step (State.reset.withFetchWord 16 0x3032))
    (fun t => (t.mvol, t.cr, t.emitted, t.cmdApplied)) = some (50, 1, [0], [0x3032]) := by decide +kernel

theorem test_fetch_word_from_reset_input : after (step (held.withFetchWord 16 0x1005))
    (fun t => t.voices.map Voice.note) = some [some 5, none] := by decide +kernel

theorem test_script_schedules : after (step (withScript [.write 0x1000, .syncCw, .steps 2] resetA))
    (fun t => (t.cmdq, t.cw, t.sched.length)) = some ([(0, 0x1000)], 1, 3) := by decide +kernel

/-! ## Witnesses: the hypotheses of the statements are met, at the boundaries of their clauses -/

theorem witness_DecodeAndEncodeAgree :
    (Instr.reservedOp1 1 0).wf = true ∧ (Instr.reservedOp8toF 7 0xF 0xFF).wf = true := by decide

theorem witness_DecodeFollowsTheOperationMap :
    (0x0FFF : Word).toNat / 4096 = 0 ∧ (0x5000 : Word).toNat / 4096 > 4 ∧
    ((0x1100 : Word).toNat / 4096 ≠ 0 ∧ (0x1100 : Word).toNat / 256 % 16 ≠ 0) ∧
    (0x10FF : Word).toNat / 256 = 0x10 ∧ (0x2000 : Word).toNat / 256 = 0x20 ∧
    (0x30FF : Word).toNat / 256 = 0x30 ∧ (0x4000 : Word).toNat / 256 = 0x40 := by decide

/-- The state with a word as the next command A sees. -/
def waiting (w : Word) : State := { resetA with cmdq := [(0, w)], cw := 1, cwS := 1 }

theorem witness_NopOnlyAdvancesTheInbox : (0x0FFF : Word).toNat ≤ 0x0FFF ∧
    (waiting 0x0FFF).cr ≠ (waiting 0x0FFF).cwS ∧ cmdRead (waiting 0x0FFF) (waiting 0x0FFF).cr = 0x0FFF := by
  decide +kernel

theorem witness_ReservedWordIsConsumed : isReserved (.reservedOp5 0 0) = true ∧
    isReserved (decode 0x1100) = true ∧ (waiting 0x1100).cr ≠ (waiting 0x1100).cwS ∧
    cmdRead (waiting 0x1100) (waiting 0x1100).cr = 0x1100 ∧ isReserved (decode 0xFFFF) = true := by decide +kernel

theorem witness_NoteIndexOutOfRangeIsANoOp : 13 ≤ (13 : Byte).toNat ∧ 13 ≤ (255 : Byte).toNat := by decide

theorem witness_NoteOnRetriggersTheVoiceOfItsNote : ((1 : Byte).toNat = (1 : Note).val) ∧
    fullPool.voices[1]? = some (sounding 1 .attack 8192 1 true) ∧ (sounding 1 .attack 8192 1 true).note = some 1 ∧
    ∀ j < 1, ∀ w ∈ fullPool.voices[j]?, w.note ≠ some 1 := by decide +kernel

theorem witness_NoteOnAllocatesTheLeastIdleVoice : ((12 : Byte).toNat = (12 : Note).val) ∧
    (∀ w ∈ busy.voices, w.note ≠ some 12) ∧ busy.voices[1]? = some Voice.reset ∧ Voice.reset.st = .idle ∧
    (∀ j < 1, ∀ w ∈ busy.voices[j]?, w.st ≠ .idle) ∧ busy.cfg.noteInc[12]? = some 0x10000 := by decide +kernel

theorem witness_NoteOnIsDroppedWhenThePoolIsFull : ((2 : Byte).toNat = (2 : Note).val) ∧
    (∀ w ∈ fullPool.voices, w.note ≠ some 2) ∧ (∀ w ∈ fullPool.voices, w.st ≠ .idle) := by decide +kernel

theorem witness_NoteOffClearsHeldOfItsVoice : 13 ≤ (13 : Byte).toNat ∧ ((12 : Byte).toNat = (12 : Note).val) ∧
    (∀ w ∈ fullPool.voices, w.note ≠ some 12) ∧ ((0 : Byte).toNat = (0 : Note).val) ∧
    fullPool.voices[0]? = some (sounding 0 .release 8192 2 false) ∧
    (sounding 0 .release 8192 2 false).note = some 0 ∧ (∀ j < 0, ∀ w ∈ fullPool.voices[j]?, w.note ≠ some 0) := by
  decide +kernel

theorem witness_KeyAppliesTheNoteOfItsCode : lookup resetA.cfg 0x80 = none ∧
    (lookup resetA.cfg 0xA5 = some 12 ∧ (0xA5 : Byte) &&& resetA.cfg.releaseMask ≠ 0) ∧
    (lookup resetA.cfg 0x1E = some 0 ∧ (0x1E : Byte) &&& resetA.cfg.releaseMask = 0) := by decide +kernel

theorem witness_LookupAnswersTheFirstMatch : lookup defaultCfg 0x9E = some 0 ∧ lookup defaultCfg 0x25 = some 12 ∧
    lookup defaultCfg 0x30 = none := by decide +kernel

theorem witness_ReleaseCodeFindsTheNoteOfItsPressCode :
    tcA.wf = true ∧ tcA.pressCode[(12 : Note).val]? = some 0x25 := by decide +kernel

theorem witness_SetMvolSetsAVolumeInRange : (0 : Byte).toNat ≤ 100 ∧ (100 : Byte).toNat ≤ 100 ∧
    101 ≤ (101 : Byte).toNat := by decide

theorem witness_DrainAppliesTheVisibleCommandsInOrder : busy.cr < busy.cfg.cmdDepth ∧ busy.cwS < busy.cfg.cmdDepth ∧
    visibleWords busy = [0x1001] := by decide +kernel

theorem witness_StepTakesTheNextTurn : busy.sched = .act .aStep :: [] ∧ resetA.sched = [] := by decide +kernel

theorem witness_SampleStepRunsTheDecodedCommand : busy.sched = .act .aStep :: [] ∧ inReset busy = false ∧
    busy.outReady = true ∧ busy.cr ≠ busy.cwS ∧ 1 ≤ busy.cfg.cmdDepth ∧
    decode (cmdRead busy busy.cr) = .noteOn 1 := by decide +kernel

theorem witness_AttackStepRampsToFullLevel : tcA.wf = true ∧
    (sounding 0 .attack 0 0 true).st = .attack ∧ (sounding 0 .attack 0 0 true).tmr.toNat < tcA.attack ∧
    (sounding 0 .attack 0 3 true).st = .attack ∧ (sounding 0 .attack 0 3 true).tmr.toNat + 1 = tcA.attack := by
  decide +kernel

theorem witness_DecayStepLandsOnTheSustainLevel : tcA.wf = true ∧
    (sounding 0 .decay 0 0 true).st = .decay ∧ (sounding 0 .decay 0 0 true).tmr.toNat < tcA.decay ∧
    (sounding 0 .decay 0 3 true).st = .decay ∧ (sounding 0 .decay 0 3 true).tmr.toNat + 1 = tcA.decay := by
  decide +kernel

theorem witness_SustainStepHoldsOrReleases : tcA.wf = true ∧ (sounding 0 .sustain 16384 0 true).st = .sustain ∧
    (sounding 0 .sustain 16384 0 true).held = true ∧ (sounding 0 .sustain 16384 0 false).held = false ∧
    tcA.release ≠ 1 := by decide +kernel

theorem witness_ReleaseStepFreesTheVoice : tcA.wf = true ∧
    (sounding 0 .release 0 0 true).st = .release ∧ (sounding 0 .release 0 0 true).tmr.toNat < tcA.release ∧
    (sounding 0 .release 0 3 true).st = .release ∧ (sounding 0 .release 0 3 true).tmr.toNat + 1 = tcA.release := by
  decide +kernel

theorem witness_EnvelopeMakesNoOtherTransition :
    ofVoice (envStep tcA (sounding 0 .attack 24576 3 true)) Voice.st = some .decay ∧
    ofVoice (envStep tcA (sounding 0 .decay 20480 3 true)) Voice.st = some .sustain ∧
    ofVoice (envStep tcA (sounding 0 .sustain 16384 0 false)) Voice.st = some .release ∧
    ofVoice (envStep { tcA with release := 1 } (sounding 0 .sustain 16384 0 false)) Voice.st = some .idle ∧
    ofVoice (envStep tcA (sounding 0 .release 4096 3 false)) Voice.st = some .idle := by decide +kernel

theorem witness_EnvelopeLevelStaysInRange : tcA.wf = true ∧
    VoiceOk tcA (sounding 0 .attack 24576 3 true) ∧
    ofVoice (envStep tcA (sounding 0 .attack 24576 3 true)) Voice.lev = some 32768 ∧
    VoiceOk tcA (sounding 0 .release 4096 3 false) ∧
    ofVoice (envStep tcA (sounding 0 .release 4096 3 false)) Voice.lev = some 0 := by decide +kernel

theorem witness_EnvelopeTimelineOfANote : tcA.wf = true ∧
    (retrigger (sounding 0 .attack 0 0 true)).st = .attack ∧ (retrigger (sounding 0 .attack 0 0 true)).tmr = 0 ∧
    (retrigger (sounding 0 .attack 0 0 true)).held = true ∧
    9 = max 1 (tcA.attack + tcA.decay + 1) ∧
    ∀ k ∈ [1, 3, 4, 5, 7, 8, 9, 11, 12], 1 ≤ k ∧ k ≤ 9 + tcA.release - 1 := by decide +kernel

theorem witness_InterpolationStaysBetweenItsEntries : defaultCfg.wf = true ∧
    (0x00FFFFFF : BitVec 32).toNat < defaultCfg.wtLen * 65536 ∧ (0x00FF0000 : BitVec 32).toNat % 65536 = 0 := by
  decide +kernel

theorem witness_ContributionIsNoLargerThanItsSample : (sounding 0 .decay 32768 0 true).lev.toNat ≤ 32768 ∧
    (sounding 0 .decay 32768 0 true).lev.toNat = 32768 ∧
    ofVoice (envStep tcA (sounding 0 .attack 24576 3 true)) id = some (sounding 0 .decay 32768 0 true) ∧
    ofVoice (advance tcA (sounding 0 .decay 32768 0 true)) Voice.pos = some 0x20000 := by decide +kernel

theorem witness_VoiceLoopStepsEveryActiveVoice :
    (renderVoices tcA busy.voices 0).toOption =
      some ([{ sounding 0 .attack 16384 2 true with pos := 0x20000 }, Voice.reset], 8192) ∧
    busy.voices[0]? = some (sounding 0 .attack 8192 1 true) ∧ busy.voices[1]? = some Voice.reset := by decide +kernel

theorem witness_AccumulatorStaysInRange : tcA.wf = true ∧ PoolOk tcA busy.voices ∧
    (renderVoices tcA busy.voices 0).toOption.map Prod.snd = some 8192 := by decide +kernel

theorem witness_NormalisationStepsTowardItsTarget : tcA.wf = true ∧
    (16777216 : BitVec 25).toNat ≤ 2 ^ 24 ∧ 1 ≤ 2 ∧ tcA.normLut[2 - 1]? = some 11863283 ∧
    |((11863283 : BitVec 25).toNat : Int) - (11863383 : BitVec 25).toNat| * tcA.alpha < 65536 ∧
    tcA.alpha = 655 := by decide +kernel

theorem witness_MasterVolumeNeverAmplifies : (16777216 : BitVec 25).toNat ≤ 2 ^ 24 ∧ (100 : BitVec 7).toNat ≤ 100 ∧
    (0 : BitVec 7).toNat = 0 ∧ scaled (normalised (-32769) 16777216) 100 < -32768 ∧
    scaled (normalised (-32768) 16777216) 100 = -32768 ∧ scaled (normalised 32767 16777216) 100 = 32767 ∧
    32767 < scaled (normalised 32768 16777216) 100 := by decide

theorem witness_CombineScalesAndSaturates : defaultCfg.wf = true ∧
    (-32768) + bgmScaled defaultCfg 0xFFFF < -32768 ∧ (-32767) + bgmScaled defaultCfg 0xFFFF = -32768 ∧
    32766 + bgmScaled defaultCfg 2 = 32767 ∧ 32767 < 32767 + bgmScaled defaultCfg 2 := by decide +kernel

theorem witness_SampleStepIsItsStagesInOrder :
    after (drain busy) (fun t => ((renderVoices t.cfg t.voices 0).toOption.map Prod.snd,
      (normUpdate t.cfg (activeCount t.voices) t.norm).toOption)) = some (some 12288, some 16728104) := by
  decide +kernel

theorem witness_ActNotesDescribesTheVoicesAfterTheStep :
    after (aStep busy) (fun t => (t.actNotes.getLsbD 1, t.actNotes.getLsbD 12)) = some (true, false) := by
  decide +kernel

/-- A well-formed configuration, for the statements that ask for no more: `PhaseAdvanceWraps`,
`ResetStateIsSound`, `ResetValuesOfTheManual`. -/
theorem witness_PhaseAdvanceWraps_ResetStateIsSound_ResetValuesOfTheManual :
    tcA.wf = true := by decide +kernel

/-- A command and a sample are written and not yet visible to A. -/
def writtenUnseen : List Act := [.presentCmd 0x1000, .cWrite, .presentSample 5, .wPush]

theorem witness_FirstPairAfterResetIsSilent : tcA.wf = true ∧ (∀ a ∈ writtenUnseen, a ≠ .aStep ∧ a ≠ .assertReset) ∧
    after (runActs writtenUnseen resetA) (fun s => (s.cmdq, s.ring, inboxPending s, emptyA s)) =
      some ([(0, 0x1000)], [(0, 5)], false, true) ∧
    (let s := { busy with voices := [Voice.reset], cwS := 1, wrS := 1, norm := 0 }
     (∀ v ∈ s.voices, v.st = .idle) ∧ inboxPending s = false ∧ emptyA s = true) := by decide +kernel

theorem witness_PushWritesTheFirstCopy : inReset busy = false ∧ busy.dupV = false ∧ busy.sampIn = 300 :: [] ∧
    (busy.wr + 1) % busy.cfg.ringCap ≠ busy.rdS ∧
    (let s := { busy with wr := 7 }
     inReset s = false ∧ s.dupV = false ∧ s.sampIn = 300 :: [] ∧ (s.wr + 1) % s.cfg.ringCap = s.rdS) := by
  decide +kernel

theorem witness_DupWritesTheSecondCopy :
    (let s := wPush 9 resetA
     inReset s = false ∧ s.dupV = true ∧ (s.wr + 1) % s.cfg.ringCap ≠ s.rdS) ∧
    (let s := wPush 9 { resetA with cfg := { tcA with ringCap := 2 } }
     inReset s = false ∧ s.dupV = true ∧ (s.wr + 1) % s.cfg.ringCap = s.rdS) := by decide +kernel

theorem witness_PopReturnsTheEntryOrSilence : resetA.rd = resetA.wrS ∧ busy.rd ≠ busy.wrS := by decide +kernel

/-- The invariant holds in a state where every part of it says something. -/
theorem busy_inv : Inv busy where
  cfg := by decide +kernel
  pool := by decide +kernel
  norm := by decide +kernel
  mvol := by decide +kernel
  actNotes := by decide +kernel
  bridge := by
    refine ⟨2, 0, by decide +kernel, by decide +kernel, by decide +kernel, by decide +kernel, by decide +kernel,
      by decide +kernel, by decide +kernel, by decide +kernel, by decide +kernel, fun k h1 h2 => ?_⟩
    obtain rfl : k = 1 := by have : k < 2 := h2; have : 1 ≤ k := h1; omega
    decide +kernel
  inbox := by
    refine ⟨2, 0, by decide +kernel, by decide +kernel, by decide +kernel, by decide +kernel, by decide +kernel,
      by decide +kernel, by decide +kernel, by decide +kernel, by decide +kernel, fun k h1 h2 => ?_⟩
    obtain rfl : k = 1 := by have : k < 2 := h2; have : 1 ≤ k := h1; omega
    decide +kernel
  ring := by decide +kernel
  cmdq := by decide +kernel
  heldInReset := fun h => absurd h (by decide +kernel)

/-- A sound state, a step of it and a step that is no reset: for `EveryStepKeepsTheStateSound`,
`BridgeNeverOverwritesUnreadData`, `CommandsAreAppliedOnceInOrder` and `NoActStopsASoundMachine`. -/
theorem witness_of_a_sound_step : Inv busy ∧ isAct (nextTurn busy) = true ∧
    after (step busy) (fun t => (t.epoch, t.accepted, t.popped, t.cmdWritten, t.cmdApplied)) =
      some (busy.epoch, [100, 100], [100, 100], [0x1000, 0x1001], [0x1000, 0x1001]) ∧
    1 ≤ busy.popped.length ∧ busy.popped.length < busy.accepted.length :=
  ⟨busy_inv, by decide +kernel, by decide +kernel, by decide +kernel, by decide +kernel⟩

/-- A sound state outside reset with the sink ready: for `SampleStepEmitsOnePair` and
`CommandsAreAppliedAfterACopyAndAStep`. -/
theorem witness_of_a_ready_sample_step : Inv busy ∧ inReset busy = false ∧ busy.outReady = true :=
  ⟨busy_inv, by decide +kernel, by decide +kernel⟩

theorem witness_RingReturnsWhatItAcceptedInOrder :
    (let s := { resetA with wr := 7, rd := 7, rdS := 7 }
     s.cfg.wf = true ∧ s.wr < s.cfg.ringCap ∧ s.rd = s.wr ∧ s.rdS = s.wr) ∧
    6 < [1, 2, 3, 4, 5, 6, 7, (8 : Word)].length ∧ 6 < resetA.cfg.ringCap - 1 ∧
    [1, 2, 3, 4, 5, 6, (7 : Word)].length ≤ resetA.cfg.ringCap - 1 := by decide +kernel

theorem witness_CommandWriteStoresTheWord : inReset busy = false ∧
    (busy.cw + 1) % busy.cfg.cmdDepth ≠ busy.crS ∧ busy.cmdIn = 0x2000 :: [] := by decide +kernel

/-- Outside reset: for `StatusReadReturnsTheSnapshot` and `CopyStepsCopyTheirSource`. -/
theorem witness_StatusReadReturnsTheSnapshot_CopyStepsCopyTheirSource : inReset busy = false := by decide +kernel

theorem witness_HeldStepsChangeNothing :
    (let s := { busy with cw := 7 }
     (s.cw + 1) % s.cfg.cmdDepth = s.crS) ∧
    ({ busy with dupV := true } : State).dupV = true ∧ ({ busy with outReady := false } : State).outReady = false := by
  decide +kernel

/-- A fair schedule: the five copy steps and a sample step, round after round. -/
def rounds (n : Nat) : Turn :=
  .act ([.syncWr, .syncRd, .syncCw, .syncCr, .syncAct, .aStep].getD (n % 6) .aStep)

/-- TC-A after `k` silent sample steps. -/
def silent (k : Nat) : State :=
  { resetA with emitted := List.replicate k 0, events := List.replicate k .ringEmpty }

theorem silent_step (k : Nat) : runTurn (.act .aStep) (silent k) = .next (silent (k + 1)) := by
  have h (e : List Pair) (v : List Event) : aStep { resetA with emitted := e, events := v } =
      .next { resetA with emitted := e ++ [0], events := v ++ [.ringEmpty] } := by
    have h1 : renderVoices resetA.cfg resetA.voices 0 = .ok (resetA.voices, 0) := by rfl
    have h2 : normUpdate resetA.cfg (activeCount resetA.voices) resetA.norm = .ok resetA.norm := by rfl
    have h3 : combine resetA.cfg (synthOut 0 resetA.norm resetA.mvol) 0 = 0 := by decide +kernel
    have h4 : drain { resetA with emitted := e, events := v } = .next { resetA with emitted := e, events := v } := by rfl
    have h5 : pop { resetA with emitted := e, events := v } =
        (0, { resetA with emitted := e, events := v ++ [.ringEmpty] }) := by rfl
    rw [aStep, h4]
    simp only [andThen, render, h1, h2, output, h5, h3]
    rfl
  exact (h _ _).trans (by rw [silent, List.replicate_succ', List.replicate_succ'])

theorem silent_run : IsRun rounds (fun n => silent (n / 6)) := by
  intro n
  have h6 : n % 6 < 6 := Nat.mod_lt _ (by decide)
  show runTurn (rounds n) (silent (n / 6)) = .next (silent ((n + 1) / 6))
  rcases Nat.lt_or_ge (n % 6) 5 with h | h
  · rw [show (n + 1) / 6 = n / 6 by omega, rounds]
    generalize n % 6 = k at h
    rcases k with _ | _ | _ | _ | _ | k
    all_goals first | rfl | omega
  · rw [show (n + 1) / 6 = n / 6 + 1 by omega, rounds, show n % 6 = 5 by omega]
    exact silent_step _

theorem rounds_hit (k n : Nat) (h : k < 6) : ∃ m, n ≤ m ∧ m % 6 = k := ⟨n * 6 + k, by omega, by omega⟩

theorem resetA_inv : Inv resetA where
  cfg := by decide +kernel
  pool := by decide +kernel
  norm := by decide +kernel
  mvol := by decide +kernel
  actNotes := by decide +kernel
  bridge := ⟨0, 0, rfl, rfl, rfl, rfl, le_refl _, le_refl _, le_refl _, by decide +kernel, List.prefix_rfl,
    fun _ _ h => absurd h (Nat.not_lt_zero _)⟩
  inbox := ⟨0, 0, rfl, rfl, rfl, rfl, le_refl _, le_refl _, le_refl _, by decide +kernel, List.prefix_rfl,
    fun _ _ h => absurd h (Nat.not_lt_zero _)⟩
  ring := by decide +kernel
  cmdq := by decide +kernel
  heldInReset := fun h => absurd h (by decide +kernel)

theorem witness_WhatIsWrittenIsSeenAtLast : ∃ τ r, IsRun τ r ∧ Fair τ r ∧ Inv (r 0) ∧ (∀ n, inReset (r n) = false) ∧
    ∀ n, ∃ m, n ≤ m ∧ (r m).outReady = true := by
  refine ⟨rounds, fun n => silent (n / 6), silent_run, ⟨fun a ha n => ?_, fun _ n => ?_⟩, resetA_inv, fun _ => rfl,
    fun n => ⟨n, le_refl _, rfl⟩⟩
  · have hk : ∃ k < 6, [Act.syncWr, .syncRd, .syncCw, .syncCr, .syncAct, .aStep].getD k .aStep = a := by
      revert a; decide
    obtain ⟨k, hk, rfl⟩ := hk
    obtain ⟨m, h1, h2⟩ := rounds_hit k n hk
    exact ⟨m, h1, by rw [rounds, h2]⟩
  · obtain ⟨m, h1, h2⟩ := rounds_hit 5 n (by decide)
    exact ⟨m, h1, by rw [rounds, h2]; rfl, rfl⟩

theorem witness_EachAgentWritesOnlyItsOwn :
    after (runAct .wPush busy) State.dupX = some 300 ∧ Act.wPush ≠ .assertReset ∧ Act.wPush ≠ .aStep ∧
    Act.wPush ≠ .cWrite ∧ after (runAct .cWrite busy) State.cw = some 3 ∧ Act.cWrite ≠ .assertReset ∧
    Act.cWrite ≠ .wPush ∧ Act.cWrite ≠ .wDup ∧ Act.cWrite ≠ .syncWr ∧ Act.cWrite ≠ .syncRd ∧
    Act.cWrite ≠ .syncCw ∧ Act.cWrite ≠ .syncCr ∧ Act.cWrite ≠ .syncAct := by decide +kernel

theorem witness_ConfigurationIsReadOnly : after (step busy) State.cr = some 2 ∧
    changesConfig (nextTurn busy) = false ∧ (busy.rstA && busy.rstW && busy.rstC) = false := by decide +kernel

theorem witness_HistoriesAreNeverRead : forgetHistories busy = forgetHistories { busy with events := [.ringEmpty] } ∧
    busy ≠ { busy with events := [.ringEmpty] } := by decide +kernel

theorem witness_IdlePendingSampleIsUnobservable : sameButIdleDup busy { busy with dupX := 5 } ∧
    busy ≠ { busy with dupX := 5 } := ⟨⟨rfl, fun h => absurd h (by decide +kernel)⟩, by decide +kernel⟩

theorem witness_ResetRestartsTheBlock :
    [Domain.control, .audio, .producer].Perm [.audio, .producer, .control] := by decide

theorem witness_NoAgentStepsDuringReset : inReset held = true ∧ isAgentAct .aStep = true ∧
    isAgentAct (.cRead 3) = true := by decide +kernel

theorem witness_RefusedRunsOfTheManual : ({ tcA with ringCap := 7 } : Cfg).wf = false ∧
    Domain.producer ≠ .audio ∧ rstLine busy .producer = false := by decide +kernel

end Sys2Proof.Tests
end

section
/-! PROOFS. The statements of 10_state.md: who writes which state (R39), and the reset values (R40). -/

namespace Sys2Proof.Machine

/-- `W PUSH` writes what the producer domain owns and the histories, nothing else. -/
theorem wPush_frame (x : Word) (s : State) : ∃ ring wr ev ac,
    wPush x s = { s with ring := ring, wr := wr, dupX := x, dupV := true, events := ev, accepted := ac } := by
  obtain ⟨ring, wr, ev, ac, h⟩ := elemWrite_frame x s
  exact ⟨ring, wr, ev, ac, by rw [wPush, h]⟩

/-- `W DUP` writes what the producer domain owns and the histories, nothing else. -/
theorem wDup_frame (s : State) : ∃ ring wr ev ac,
    wDup s = { s with ring := ring, wr := wr, dupV := false, events := ev, accepted := ac } := by
  obtain ⟨ring, wr, ev, ac, h⟩ := elemWrite_frame s.dupX s
  exact ⟨ring, wr, ev, ac, by rw [wDup, h]⟩

/-- The act `W PUSH` writes what `wPush` writes and takes samples off the producer's input. -/
theorem perform_wPush_frame {s t : State} (h : perform .wPush s = .next t) : ∃ ring wr x v ev ac inp,
    t = { s with ring := ring, wr := wr, dupX := x, dupV := v, events := ev, accepted := ac, sampIn := inp } := by
  simp only [perform] at h
  split at h
  · cases h
    exact ⟨_, _, _, _, _, _, _, rfl⟩
  · rename_i x rest _
    obtain ⟨ring, wr, ev, ac, hp⟩ := wPush_frame x { s with sampIn := rest }
    cases h
    exact ⟨_, _, _, _, _, _, _, hp⟩

/-- The act `C <command>` writes CMDQ, `cw`, the history of the words written and the control plane's input. -/
theorem perform_cWrite_frame {s t : State} (h : perform .cWrite s = .next t) : ∃ cmdq cw written inp,
    t = { s with cmdq := cmdq, cw := cw, cmdWritten := written, cmdIn := inp } := by
  simp only [perform] at h
  split at h <;> cases h <;> exact ⟨_, _, _, _, rfl⟩

/-- Setting a reset input writes the three reset inputs, nothing else. -/
theorem setRstLine_frame (d : Domain) (b : Bool) (s : State) :
    ∃ ra rw rc, setRstLine d b s = { s with rstA := ra, rstW := rw, rstC := rc } := by
  cases d <;> exact ⟨_, _, _, rfl⟩

/-- An act that answers a next state has held, or has been performed. -/
theorem runAct_next {a : Act} {s t : State} (h : runAct a s = .next t) : t = s ∨ perform a s = .next t := by
  unfold runAct at h
  split at h
  · exact .inr h
  · exact .inl (by cases h; rfl)

/-- Settles O50: a held act changes nothing, and each performed act has a frame that lists what it writes. -/
theorem eachAgentWritesOnlyItsOwn : Obligations.EachAgentWritesOnlyItsOwn := by
  unfold Obligations.EachAgentWritesOnlyItsOwn
  intro a s t h hreset
  rcases runAct_next h with rfl | h
  · simp
  cases a with
  | aStep =>
    obtain ⟨vs, norm, mv, cr, rd, m, ev, po, ap, rfl⟩ := aStep_frame h
    simp
  | wPush =>
    obtain ⟨ring, wr, x, v, ev, ac, inp, rfl⟩ := perform_wPush_frame h
    simp
  | wDup =>
    obtain ⟨ring, wr, ev, ac, hd⟩ := wDup_frame s
    cases h
    simp [hd]
  | cWrite =>
    obtain ⟨cmdq, cw, written, inp, rfl⟩ := perform_cWrite_frame h
    simp
  | releaseReset d =>
    obtain ⟨ra, rw, rc, hd⟩ := setRstLine_frame d false s
    cases h
    simp [hd]
  | assertReset => exact absurd rfl hreset
  | cRead | syncWr | syncRd | syncCw | syncCr | syncAct | presentCmd | presentSample | sinkReady =>
    cases h
    simp

/-- Every voice after reset is the reset voice (10_state.md R40). -/
theorem eq_reset_of_mem_resetWith {c : Cfg} {v : Voice} (h : v ∈ (State.resetWith c).voices) : v = Voice.reset :=
  List.eq_of_mem_replicate h

/-- `MVOL_RESET` fits its register, so `MVOL` holds it unchanged after reset. -/
theorem resetWith_mvol_toNat {c : Cfg} (hc : c.Facts) : (State.resetWith c).mvol.toNat = c.mvolReset := by
  have hm := hc.mvol_le
  exact Nat.mod_eq_of_lt (by omega)

/-- Settles O57: the pool is `N_VOICES` copies of the reset voice, `MVOL_RESET` fits `MVOL`, and every other register
holds a literal. -/
theorem resetValuesOfTheManual : Obligations.ResetValuesOfTheManual := by
  unfold Obligations.ResetValuesOfTheManual
  intro c hwf
  refine ⟨List.length_replicate, fun v hv => ?_, rfl, resetWith_mvol_toNat (Cfg.facts hwf), ?_⟩
  · rw [eq_reset_of_mem_resetWith hv]
    decide
  · exact ⟨rfl, rfl, rfl, rfl, rfl, rfl, rfl, rfl, rfl, rfl, rfl⟩

end Sys2Proof.Machine
end

section
/-! PROOFS. The statements of 30_encoding.md: the decode function (R96) and the status read (R100). -/

namespace Sys2Proof.Machine

/-- OP as a number is the word over 2^12 (R90). -/
theorem opField_toNat (w : Word) : (opField w).toNat = w.toNat / 4096 := by
  have hw := w.isLt
  rw [opField, BitVec.extractLsb'_toNat, Nat.shiftRight_eq_div_pow]
  omega

/-- RSV as a number is the low nibble of the high byte (R90). -/
theorem rsvField_toNat (w : Word) : (rsvField w).toNat = w.toNat / 256 % 16 := by
  rw [rsvField, BitVec.extractLsb'_toNat, Nat.shiftRight_eq_div_pow]

/-- ARG is the low byte (R90). -/
theorem argField_eq_setWidth (w : Word) : argField w = w.setWidth 8 :=
  (BitVec.setWidth_eq_extractLsb' (by decide)).symm

theorem opField_eq_zero_iff {w : Word} : opField w = 0 ↔ w.toNat / 4096 = 0 := by
  rw [← opField_toNat]
  exact BitVec.toNat_inj.symm

theorem rsvField_eq_zero_iff {w : Word} : rsvField w = 0 ↔ w.toNat / 256 % 16 = 0 := by
  rw [← rsvField_toNat]
  exact BitVec.toNat_inj.symm

/-- The high byte of a word fixes OP and RSV; here RSV is 0, as in every named command but `NOP` (R92). -/
theorem op_rsv_of_high_byte {w : Word} (op : BitVec 4) (h : w.toNat / 256 = 16 * op.toNat) :
    opField w = op ∧ rsvField w = 0 := by
  refine ⟨BitVec.eq_of_toNat_eq ?_, rsvField_eq_zero_iff.mpr (by omega)⟩
  rw [opField_toNat]
  omega

/-- OP 0 is `NOP`, whatever RSV and ARG are (R94). -/
theorem decode_of_op_zero {w : Word} (h : opField w = 0) : decode w = .nop (rsvField w) (argField w) := by
  simp [decode, h]

/-- OP 1 is `NOTE_ON` where RSV is 0 (R92, R94). -/
theorem decode_of_op_one {w : Word} (h : opField w = 1) : decode w =
    if rsvField w = 0 then .noteOn (argField w) else .reservedOp1 (rsvField w) (argField w) := by
  simp [decode, h]

/-- OP 2 is `NOTE_OFF` where RSV is 0 (R92, R94). -/
theorem decode_of_op_two {w : Word} (h : opField w = 2) : decode w =
    if rsvField w = 0 then .noteOff (argField w) else .reservedOp2 (rsvField w) (argField w) := by
  simp [decode, h]

/-- OP 3 is `SET_MVOL` where RSV is 0 (R92, R94). -/
theorem decode_of_op_three {w : Word} (h : opField w = 3) : decode w =
    if rsvField w = 0 then .setMvol (argField w) else .reservedOp3 (rsvField w) (argField w) := by
  simp [decode, h]

/-- OP 4 is `KEY` where RSV is 0 (R92, R94). -/
theorem decode_of_op_four {w : Word} (h : opField w = 4) : decode w =
    if rsvField w = 0 then .key (argField w) else .reservedOp4 (rsvField w) (argField w) := by
  simp [decode, h]

/-- Every OP above 4 is reserved, whatever RSV is (R95). -/
theorem isReserved_decode_of_op_gt_four {w : Word} (h : 4 < (opField w).toNat) : isReserved (decode w) = true := by
  have named : ∀ op : BitVec 4, 4 < op.toNat → op ≠ 0 ∧ op ≠ 1 ∧ op ≠ 2 ∧ op ≠ 3 ∧ op ≠ 4 := by decide
  obtain ⟨h0, h1, h2, h3, h4⟩ := named _ h
  simp only [decode, if_neg h0, if_neg h1, if_neg h2, if_neg h3, if_neg h4]
  split_ifs <;> rfl

/-- Where RSV tells a reserved row from a named one, the choice is reserved iff RSV is not 0 (R94). -/
theorem isReserved_rsv_choice_iff {rsv : BitVec 4} {named reserved : Instr} (hn : isReserved named = false)
    (hr : isReserved reserved = true) :
    isReserved (if rsv = 0 then named else reserved) = true ↔ rsv ≠ 0 := by
  split_ifs with h
  · exact iff_of_false (by simp [hn]) (not_not_intro h)
  · exact iff_of_true hr h

/-- The decoded word is reserved iff OP is above 4, or OP is not 0 and RSV is not 0 (R94, R95). -/
theorem isReserved_decode_iff (w : Word) :
    isReserved (decode w) = true ↔ 4 < (opField w).toNat ∨ (opField w ≠ 0 ∧ rsvField w ≠ 0) := by
  have ops : ∀ op : BitVec 4, op = 0 ∨ op = 1 ∨ op = 2 ∨ op = 3 ∨ op = 4 ∨ 4 < op.toNat := by decide
  rcases ops (opField w) with h | h | h | h | h | h
  · simp [decode_of_op_zero h, isReserved, h]
  · rw [decode_of_op_one h, isReserved_rsv_choice_iff rfl rfl]
    simp [h]
  · rw [decode_of_op_two h, isReserved_rsv_choice_iff rfl rfl]
    simp [h]
  · rw [decode_of_op_three h, isReserved_rsv_choice_iff rfl rfl]
    simp [h]
  · rw [decode_of_op_four h, isReserved_rsv_choice_iff rfl rfl]
    simp [h]
  · exact iff_of_true (isReserved_decode_of_op_gt_four h) (.inl h)

/-- Settles O2: `decode` splits on OP and RSV, and these fields are the quotients that R96 names. -/
theorem decodeFollowsTheOperationMap : Obligations.DecodeFollowsTheOperationMap := by
  unfold Obligations.DecodeFollowsTheOperationMap
  intro w
  rw [← argField_eq_setWidth]
  refine ⟨fun h => ⟨_, _, decode_of_op_zero (opField_eq_zero_iff.mpr h)⟩, fun h => ?_,
    fun h => ?_, fun h => ?_, fun h => ?_, fun h => ?_⟩
  · rwa [isReserved_decode_iff, opField_toNat, ne_eq, opField_eq_zero_iff, ne_eq, rsvField_eq_zero_iff]
  · obtain ⟨hop, hrsv⟩ := op_rsv_of_high_byte 1 h
    rw [decode_of_op_one hop, if_pos hrsv]
  · obtain ⟨hop, hrsv⟩ := op_rsv_of_high_byte 2 h
    rw [decode_of_op_two hop, if_pos hrsv]
  · obtain ⟨hop, hrsv⟩ := op_rsv_of_high_byte 3 h
    rw [decode_of_op_three hop, if_pos hrsv]
  · obtain ⟨hop, hrsv⟩ := op_rsv_of_high_byte 4 h
    rw [decode_of_op_four hop, if_pos hrsv]

/-- Address 0 reads the thirteen bits of `ACT_S`, and bits 15 to 13 are zero (R100). -/
theorem csr_zero_toNat (s : State) : (csr s 0).toNat = s.actS.toNat := by
  rw [csr, if_pos rfl]
  exact BitVec.toNat_setWidth_of_le (by decide)

/-- Addresses 1 to 3 read 0 (R100). -/
theorem csr_of_ne_zero (s : State) {a : BitVec 2} (h : a ≠ 0) : csr s a = 0 := if_neg h

/-- Out of reset a status read is enabled, and it appends `csr s a` to the reads (R247). -/
theorem runAct_cRead {s : State} (a : BitVec 2) (h : inReset s = false) :
    runAct (.cRead a) s = .next { s with reads := s.reads ++ [csr s a] } :=
  runAct_enabled (by simp [enabled, h])

/-- Settles O44: the value returned is `csr s a`, whose value at each address is R100's. -/
theorem statusReadReturnsTheSnapshot : Obligations.StatusReadReturnsTheSnapshot := by
  unfold Obligations.StatusReadReturnsTheSnapshot
  intro s a h
  refine ⟨csr s a, runAct_cRead a h, ?_, csr_of_ne_zero s⟩
  rintro rfl
  exact csr_zero_toNat s

end Sys2Proof.Machine
end

section
/-! PROOFS. The statements of 40_notetable_wavetable.md: the key lookup (R121, R122), `KEY` (R123) and the interpolated
wavetable read (R127). -/

namespace Sys2Proof.Machine

/-! ### The key lookup -/

/-- The lookup scans all notes in index order (R122). -/
theorem lookup_eq_find? (c : Cfg) (code : Byte) :
    lookup c code = Fin.find? (fun n : Note => c.pressCode[n.val]? == some (pressOf c code)) :=
  Fin.find?_eq_find?_finRange.symm

/-- The lookup answers the least note with the press code, and no other (R122). -/
theorem lookup_eq_some_iff {c : Cfg} {code : Byte} {n : Note} :
    lookup c code = some n ↔ c.pressCode[n.val]? = some (pressOf c code) ∧
      ∀ m < n, c.pressCode[m.val]? ≠ some (pressOf c code) := by
  rw [lookup_eq_find?, Fin.find?_eq_some_iff]
  simp

/-- The lookup answers not found exactly where no note has the press code (R122). -/
theorem lookup_eq_none_iff {c : Cfg} {code : Byte} :
    lookup c code = none ↔ ∀ n : Note, c.pressCode[n.val]? ≠ some (pressOf c code) := by
  rw [lookup_eq_find?, Fin.find?_eq_none_iff]
  simp

/-- Settles O12: the lookup is the library's search for the least index, whose answers are known. -/
theorem lookupAnswersTheFirstMatch : Obligations.LookupAnswersTheFirstMatch := by
  unfold Obligations.LookupAnswersTheFirstMatch
  exact fun c code => ⟨fun n => lookup_eq_some_iff, lookup_eq_none_iff⟩

/-! ### The release code -/

/-- The lookup depends on the code with the release bit stripped alone (R122). -/
theorem lookup_congr {c : Cfg} {a b : Byte} (h : pressOf c a = pressOf c b) : lookup c a = lookup c b := by
  rw [lookup, lookup, h]

/-- Setting the release bit is undone by stripping it (30_encoding.md R97). -/
theorem pressOf_or_releaseMask (c : Cfg) (p : Byte) : pressOf c (p ||| c.releaseMask) = pressOf c p := by
  simp [pressOf, BitVec.and_or_distrib_right]

/-- OR and XOR agree on words with no bit in common. -/
theorem or_eq_xor_of_and_eq_zero {w : Nat} {x y : BitVec w} (h : x &&& y = 0) : x ||| y = x ^^^ y := by
  ext i hi
  have hbit : (x[i] && y[i]) = false := by
    rw [← BitVec.getElem_and, h]
    exact BitVec.getElem_zero hi
  simp only [BitVec.getElem_or, BitVec.getElem_xor]
  revert hbit
  cases x[i] <;> cases y[i] <;> decide

/-- A mask of exactly one bit is not 0 (00_scope.md R8). -/
theorem ne_zero_of_oneBit {m : Byte} (h : oneBit m = true) : m ≠ 0 := by
  rintro rfl
  exact absurd h (by decide)

/-- Settles O13: every press code has the release bit clear, so OR and XOR agree, and the lookup strips the bit. -/
theorem releaseCodeFindsTheNoteOfItsPressCode : Obligations.ReleaseCodeFindsTheNoteOfItsPressCode := by
  unfold Obligations.ReleaseCodeFindsTheNoteOfItsPressCode
  intro c n p hwf hp
  have hc := Cfg.facts hwf
  have hclear : p &&& c.releaseMask = 0 := hc.press_clear p (List.mem_of_getElem? hp)
  have hset : (p ||| c.releaseMask) &&& c.releaseMask ≠ 0 := by
    rw [BitVec.and_or_distrib_right, hclear, BitVec.and_self]
    simpa using ne_zero_of_oneBit hc.mask
  exact ⟨or_eq_xor_of_and_eq_zero hclear, lookup_congr (pressOf_or_releaseMask c p), hset, hclear⟩

/-! ### `KEY` -/

/-- A word with RSV 0 is OP over the low twelve bits, with ARG in the low byte (30_encoding.md R90). -/
theorem mkWord_rsv_zero (op : BitVec 4) (arg : Byte) :
    mkWord op 0 arg = op.setWidth 16 <<< 12 ||| arg.setWidth 16 := by
  apply BitVec.eq_of_getLsbD_eq
  intro i hi
  simp only [mkWord, BitVec.getLsbD_append, BitVec.getLsbD_or, BitVec.getLsbD_shiftLeft, BitVec.getLsbD_setWidth]
  split_ifs with hlow hmid
  · have hop : i < 12 := by omega
    simp [hi, hop]
  · have hop : i < 12 := by omega
    simp [hi, hop, BitVec.getLsbD_of_ge arg i (by omega)]
  · have hop : ¬i < 12 := by omega
    have hlt : i - 12 < 16 := by omega
    simp [hi, hop, hlt, BitVec.getLsbD_of_ge arg i (by omega), Nat.sub_sub]

/-- The word of `KEY c` is `0x4000 | c` (R123). -/
theorem encode_key (c : Byte) : encode (.key c) = 0x4000 ||| c.setWidth 16 := mkWord_rsv_zero 0x4 c

/-- The operand of a note index is that index (30_encoding.md R93). -/
@[simp] theorem noteOperand_ofNat (n : Note) : noteOperand (BitVec.ofNat 8 n.val) = some n := by
  revert n
  decide

/-- `NOTE_ON` of a note index acts on that note (41_voice_pool_adsr.md R140). -/
theorem exec_noteOn_ofNat (n : Note) (s : State) : exec (.noteOn (BitVec.ofNat 8 n.val)) s =
    .next (noteOnIndex (encode (.noteOn (BitVec.ofNat 8 n.val))) n s) := by
  rw [exec, execNoteOn, noteOperand_ofNat]

/-- `NOTE_OFF` of a note index acts on that note (41_voice_pool_adsr.md R145). -/
theorem exec_noteOff_ofNat (n : Note) (s : State) : exec (.noteOff (BitVec.ofNat 8 n.val)) s =
    .next (noteOffIndex (encode (.noteOff (BitVec.ofNat 8 n.val))) n s) := by
  rw [exec, execNoteOff, noteOperand_ofNat]

/-- A code is a release exactly where the release bit is set in it (30_encoding.md R97). -/
theorem isRelease_iff {c : Cfg} {code : Byte} : isRelease c code = true ↔ code &&& c.releaseMask ≠ 0 :=
  bne_iff_ne

/-- An unmapped code only records `E_KEY_UNMAPPED` (R123). -/
theorem exec_key_of_unmapped {c : Byte} {s : State} (h : lookup s.cfg c = none) :
    exec (.key c) s = .next (logEvent s (.keyUnmapped (encode (.key c)))) := by
  rw [exec, execKey, h]

/-- A mapped code with the release bit set acts as the note's release (R123). -/
theorem exec_key_of_release {c : Byte} {s : State} {n : Note} (h : lookup s.cfg c = some n)
    (hr : c &&& s.cfg.releaseMask ≠ 0) : exec (.key c) s = .next (noteOffIndex (encode (.key c)) n s) := by
  simp only [exec, execKey, h, if_pos (isRelease_iff.2 hr)]

/-- A mapped code with the release bit clear acts as the note's press (R123). -/
theorem exec_key_of_press {c : Byte} {s : State} {n : Note} (h : lookup s.cfg c = some n)
    (hr : c &&& s.cfg.releaseMask = 0) : exec (.key c) s = .next (noteOnIndex (encode (.key c)) n s) := by
  simp only [exec, execKey, h, if_neg (mt isRelease_iff.1 (not_not_intro hr))]

/-- The command word of a press is seen in its events alone, and not in their codes (log 11). -/
theorem noteOnIndex_word (w w' : Word) (n : Note) (s : State) :
    noteOnIndex w n s = { noteOnIndex w' n s with events := (noteOnIndex w n s).events } ∧
      (noteOnIndex w n s).events.map eventCode = (noteOnIndex w' n s).events.map eventCode := by
  unfold noteOnIndex
  split
  · exact ⟨rfl, rfl⟩
  · split
    · exact ⟨rfl, rfl⟩
    · exact ⟨rfl, by simp [eventCode]⟩

/-- The command word of a release is seen in its events alone, and not in their codes (log 11). -/
theorem noteOffIndex_word (w w' : Word) (n : Note) (s : State) :
    noteOffIndex w n s = { noteOffIndex w' n s with events := (noteOffIndex w n s).events } ∧
      (noteOffIndex w n s).events.map eventCode = (noteOffIndex w' n s).events.map eventCode := by
  unfold noteOffIndex
  split
  · exact ⟨rfl, rfl⟩
  · exact ⟨rfl, by simp [eventCode]⟩

/-- Settles O11: `KEY` runs the press or the release of its note with its own word, which only the events carry. -/
theorem keyAppliesTheNoteOfItsCode : Obligations.KeyAppliesTheNoteOfItsCode := by
  unfold Obligations.KeyAppliesTheNoteOfItsCode
  intro c s
  refine ⟨fun h => ?_, fun n h hr => ?_, fun n h hr => ?_⟩
  · rw [exec_key_of_unmapped h, encode_key, logEvent]
  · exact ⟨_, _, exec_key_of_release h hr, exec_noteOff_ofNat n s, noteOffIndex_word _ _ n s⟩
  · exact ⟨_, _, exec_key_of_press h hr, exec_noteOn_ofNat n s, noteOnIndex_word _ _ n s⟩

/-! ### The interpolated read -/

/-- The floor of a fraction `k / b` of `d`, with `0 ≤ k ≤ b`, lies between 0 and `d` (R128). -/
theorem fdiv_mul_between {d k b : Int} (hk : 0 ≤ k) (hkb : k ≤ b) (hb : 0 < b) :
    min 0 d ≤ fdiv (d * k) b ∧ fdiv (d * k) b ≤ max 0 d := by
  rcases le_total 0 d with hd | hd
  · have hlo := fdiv_nonneg (mul_nonneg hd hk) hb
    have hhi := fdiv_le_of_le_mul hb (mul_le_mul_of_nonneg_left hkb hd)
    omega
  · have hlo := (le_fdiv_iff hb).2 (mul_le_mul_of_nonpos_left hkb hd)
    have hhi := fdiv_le_of_le_mul hb ((mul_nonpos_of_nonpos_of_nonneg hd hk).trans_eq (zero_mul b).symm)
    omega

/-- Every wavetable entry is a signed 16-bit value (R126). -/
theorem wtAt_bounds (c : Cfg) (i : Nat) : -32768 ≤ wtAt c i ∧ wtAt c i ≤ 32767 :=
  ⟨BitVec.le_toInt _, Int.le_of_lt_add_one BitVec.toInt_lt⟩

/-- In range the integer part of the position is not wrapped (R127). -/
theorem wtSample_of_lt {c : Cfg} {pos : BitVec 32} (h : pos.toNat < c.wtLen * 65536) :
    wtSample c pos = wtAt c (pos.toNat / 65536) +
      fdiv ((wtAt c ((pos.toNat / 65536 + 1) % c.wtLen) - wtAt c (pos.toNat / 65536)) * (pos.toNat % 65536 : Nat))
        65536 := by
  have hi : pos.toNat / 65536 % c.wtLen = pos.toNat / 65536 := Nat.mod_eq_of_lt (by omega)
  simp only [wtSample, asr, hi]
  rfl

/-- Settles O26: the read is its entry plus a floored fraction of the way to the successor, which lies between 0 and
the whole way. -/
theorem interpolationStaysBetweenItsEntries : Obligations.InterpolationStaysBetweenItsEntries := by
  unfold Obligations.InterpolationStaysBetweenItsEntries
  intro c pos _ hpos i j
  have hread : wtSample c pos = wtAt c i + fdiv ((wtAt c j - wtAt c i) * (pos.toNat % 65536 : Nat)) 65536 :=
    wtSample_of_lt hpos
  have hway := fdiv_mul_between (d := wtAt c j - wtAt c i) (k := (pos.toNat % 65536 : Nat)) (b := 65536)
    (by omega) (by omega) (by decide)
  have hwi := wtAt_bounds c i
  have hwj := wtAt_bounds c j
  refine ⟨hread, by omega, by omega, fun hfr => ?_, by omega, by omega⟩
  rw [hread, hfr, Nat.cast_zero, mul_zero, fdiv_zero, add_zero]

end Sys2Proof.Machine
end

section
/-! PROOFS. The statements of 41_voice_pool_adsr.md: the note commands (R140 to R147) and the envelope (R148 to R157). -/

namespace Sys2Proof.Machine

/-! ### The note commands -/

/-- The least voice that passes a test is the one the search answers (R140, R147). -/
theorem findIdx?_eq_some_of_least {p : Voice → Bool} {vs : List Voice} {i : Nat} {v : Voice} (hv : vs[i]? = some v)
    (hp : p v = true) (hleast : ∀ j < i, ∀ w, vs[j]? = some w → p w ≠ true) : vs.findIdx? p = some i := by
  obtain ⟨hi, rfl⟩ := List.getElem?_eq_some_iff.1 hv
  exact List.findIdx?_eq_some_iff_getElem.2
    ⟨hi, hp, fun j hj => hleast j hj _ (List.getElem?_eq_getElem (hj.trans hi))⟩

/-- The least voice that holds `n` is what `find(n)` answers (R147). -/
theorem findVoice_eq_some {vs : List Voice} {n : Note} {i : Nat} {v : Voice} (hv : vs[i]? = some v)
    (hn : v.note = some n) (hleast : ∀ j < i, ∀ w, vs[j]? = some w → w.note ≠ some n) : findVoice vs n = some i :=
  findIdx?_eq_some_of_least hv (beq_iff_eq.2 hn) fun j hj w hw => mt beq_iff_eq.1 (hleast j hj w hw)

/-- The least Idle voice is what the Idle search answers (R140). -/
theorem firstIdle_eq_some {vs : List Voice} {i : Nat} {v : Voice} (hv : vs[i]? = some v) (hst : v.st = .idle)
    (hleast : ∀ j < i, ∀ w, vs[j]? = some w → w.st ≠ .idle) : firstIdle vs = some i :=
  findIdx?_eq_some_of_least hv (beq_iff_eq.2 hst) fun j hj w hw => mt beq_iff_eq.1 (hleast j hj w hw)

/-- Changing the voice at an index is storing its changed value there. -/
theorem modify_voice_eq_set {vs : List Voice} {i : Nat} {v : Voice} (hv : vs[i]? = some v) (f : Voice → Voice) :
    vs.modify i f = vs.set i (f v) := by
  rw [List.modify_eq_set, hv, Option.getD_some]

/-- The word of `NOTE_ON n` is `0x1000 | n` (30_encoding.md R92). -/
theorem encode_noteOn (n : Byte) : encode (.noteOn n) = 0x1000 ||| n.setWidth 16 := mkWord_rsv_zero 0x1 n

/-- The word of `NOTE_OFF n` is `0x2000 | n` (30_encoding.md R92). -/
theorem encode_noteOff (n : Byte) : encode (.noteOff n) = 0x2000 ||| n.setWidth 16 := mkWord_rsv_zero 0x2 n

/-- An operand with the value of a note index is the byte of that index (30_encoding.md R93). -/
theorem eq_ofNat_of_toNat_eq {n : Byte} {k : Note} (h : n.toNat = k.val) : n = BitVec.ofNat 8 k.val := by
  rw [← h, BitVec.ofNat_toNat, BitVec.setWidth_eq]

/-- `NOTE_ON` of an operand in range acts on the note of that index (R140). -/
theorem exec_noteOn_of_index {n : Byte} {k : Note} (h : n.toNat = k.val) (s : State) :
    exec (.noteOn n) s = .next (noteOnIndex (0x1000 ||| n.setWidth 16) k s) := by
  rw [← encode_noteOn, eq_ofNat_of_toNat_eq h, exec_noteOn_ofNat]

/-- `NOTE_OFF` of an operand in range acts on the note of that index (R145). -/
theorem exec_noteOff_of_index {n : Byte} {k : Note} (h : n.toNat = k.val) (s : State) :
    exec (.noteOff n) s = .next (noteOffIndex (0x2000 ||| n.setWidth 16) k s) := by
  rw [← encode_noteOff, eq_ofNat_of_toNat_eq h, exec_noteOff_ofNat]

/-- An operand of 13..255 names no note (30_encoding.md R93). -/
theorem noteOperand_eq_none {n : Byte} (h : 13 ≤ n.toNat) : noteOperand n = none := dif_neg (by omega)

/-- `NOTE_OFF` of an operand of 13..255 only records `E_NOTE_RANGE` (R145). -/
theorem exec_noteOff_of_out_of_range {n : Byte} (h : 13 ≤ n.toNat) (s : State) :
    exec (.noteOff n) s = .next (logEvent s (.noteRange (0x2000 ||| n.setWidth 16))) := by
  rw [exec, execNoteOff, noteOperand_eq_none h, encode_noteOff]

section
variable {cmd : Word} {n : Note} {s : State} {i : Nat} {v : Voice}

/-- A press of a note that voice `i` is found to hold retriggers it (R141). -/
theorem noteOnIndex_of_found (hv : s.voices[i]? = some v) (hi : findVoice s.voices n = some i) :
    noteOnIndex cmd n s = { s with voices := s.voices.set i (retrigger v) } := by
  simp only [noteOnIndex, hi, modify_voice_eq_set hv]

/-- A press of a note that no voice holds allocates the first Idle voice `i` (R142). -/
theorem noteOnIndex_of_idle (hv : s.voices[i]? = some v) (hn : findVoice s.voices n = none)
    (hi : firstIdle s.voices = some i) :
    noteOnIndex cmd n s = { s with voices := s.voices.set i (allocate s.cfg n v) } := by
  simp only [noteOnIndex, hn, hi, modify_voice_eq_set hv]

/-- A press of a note that no voice holds is dropped where no voice is Idle (R143). -/
theorem noteOnIndex_of_full (hn : findVoice s.voices n = none) (hi : firstIdle s.voices = none) :
    noteOnIndex cmd n s = logEvent s (.poolFull cmd) := by
  simp only [noteOnIndex, hn, hi]

/-- A release of a note that voice `i` is found to hold lets it go (R145). -/
theorem noteOffIndex_of_found (hv : s.voices[i]? = some v) (hi : findVoice s.voices n = some i) :
    noteOffIndex cmd n s = { s with voices := s.voices.set i (letGo v) } := by
  simp only [noteOffIndex, hi, modify_voice_eq_set hv]

/-- A release of a note that no voice holds only records `E_NOTE_NOT_SOUNDING` (R145). -/
theorem noteOffIndex_of_not_found (hn : findVoice s.voices n = none) :
    noteOffIndex cmd n s = logEvent s (.noteNotSounding cmd) := by
  simp only [noteOffIndex, hn]

end

/-- Settles O7: `find` answers the least voice that holds the note, and that voice is retriggered. -/
theorem noteOnRetriggersTheVoiceOfItsNote : Obligations.NoteOnRetriggersTheVoiceOfItsNote := by
  unfold Obligations.NoteOnRetriggersTheVoiceOfItsNote
  intro n k s i v hn hv hk hleast
  rw [exec_noteOn_of_index hn, noteOnIndex_of_found hv (findVoice_eq_some hv hk hleast), retrigger]

/-- Settles O8: `find` answers not found, and the Idle search answers the least Idle voice, which is allocated. -/
theorem noteOnAllocatesTheLeastIdleVoice : Obligations.NoteOnAllocatesTheLeastIdleVoice := by
  unfold Obligations.NoteOnAllocatesTheLeastIdleVoice
  intro n k s i v inc hn hfree hv hst hleast hinc
  rw [exec_noteOn_of_index hn, noteOnIndex_of_idle hv (findVoice_none.2 hfree) (firstIdle_eq_some hv hst hleast),
    allocate, List.getD_eq_getElem?_getD, hinc, Option.getD_some]

/-- Settles O9: both searches answer not found, so only the event is recorded. -/
theorem noteOnIsDroppedWhenThePoolIsFull : Obligations.NoteOnIsDroppedWhenThePoolIsFull := by
  unfold Obligations.NoteOnIsDroppedWhenThePoolIsFull
  intro n k s hn hfree hbusy
  rw [exec_noteOn_of_index hn, noteOnIndex_of_full (findVoice_none.2 hfree) (firstIdle_none.2 hbusy), logEvent]

/-- Settles O10: the operand names no note, or `find` answers not found, or it answers the voice that is let go. -/
theorem noteOffClearsHeldOfItsVoice : Obligations.NoteOffClearsHeldOfItsVoice := by
  unfold Obligations.NoteOffClearsHeldOfItsVoice
  intro n s
  refine ⟨fun h => ?_, fun k hn hfree => ?_, fun k i v hn hv hk hleast => ?_⟩
  · rw [exec_noteOff_of_out_of_range h, logEvent]
  · rw [exec_noteOff_of_index hn, noteOffIndex_of_not_found (findVoice_none.2 hfree), logEvent]
  · rw [exec_noteOff_of_index hn, noteOffIndex_of_found hv (findVoice_eq_some hv hk hleast), letGo]

/-! ### The envelope levels as natural numbers -/

/-- On natural numbers `fdiv` is their division (00_scope.md R11). -/
theorem fdiv_natCast (a b : Nat) : fdiv a b = (a / b : Nat) := (Int.natCast_ediv a b).symm

/-- The Attack level is a natural number (R150). -/
theorem attackLevel_eq (c : Cfg) (k : Nat) : attackLevel c k = (k * 32768 / c.attack : Nat) := by
  rw [← fdiv_natCast, Nat.cast_mul]
  rfl

/-- The Decay level is a natural number (R151). -/
theorem decayLevel_eq {c : Cfg} (hc : c.Facts) {k : Nat} (hk : k ≤ c.decay) :
    decayLevel c k = (32768 - (32768 - c.sus) * k / c.decay : Nat) := by
  have hlevel : decayLevel c k = 32768 - ((32768 - c.sus) * k / c.decay : Nat) := by
    rw [← fdiv_natCast, Nat.cast_mul, Nat.cast_sub hc.sus_le]
    rfl
  have hb := decayLevel_bounds hc hk
  omega

/-- The Release level is a natural number (R154). -/
theorem releaseLevel_eq {c : Cfg} (hc : c.Facts) {k : Nat} (hk : k ≤ c.release) :
    releaseLevel c k = (c.sus - c.sus * k / c.release : Nat) := by
  have hlevel : releaseLevel c k = c.sus - (c.sus * k / c.release : Nat) := by
    rw [← fdiv_natCast, Nat.cast_mul]
    rfl
  have hb := releaseLevel_bounds hc hk
  omega

/-! ### The envelope steps -/

section
variable {c : Cfg} {v : Voice}

theorem envStep_of_attack (h : v.st = .attack) : envStep c v = attackStep c v := by rw [envStep, h]

theorem envStep_of_decay (h : v.st = .decay) : envStep c v = decayStep c v := by rw [envStep, h]

theorem envStep_of_sustain (h : v.st = .sustain) : envStep c v = sustainStep c v := by rw [envStep, h]

theorem envStep_of_release (h : v.st = .release) : envStep c v = releaseStep c v := by rw [envStep, h]

end

/-- Settles O19: at `k = A` the step goes to Decay at the end level of the ramp, before it only counts. -/
theorem attackStepRampsToFullLevel : Obligations.AttackStepRampsToFullLevel := by
  unfold Obligations.AttackStepRampsToFullLevel
  intro c v hwf hst hk
  have hc := Cfg.facts hwf
  obtain ⟨lev, tmr, hlev, htmr, he⟩ := attackStep_ok hc hk
  have hnat := hlev.trans (attackLevel_eq c _)
  rw [envStep_of_attack hst, he]
  split_ifs with hend
  · rw [hend, attackLevel_end hc] at hlev
    exact ⟨_, rfl, Int.ofNat_inj.1 hnat, fun _ => ⟨rfl, Int.ofNat_inj.1 hlev⟩, fun h => absurd hend h⟩
  · exact ⟨_, rfl, Int.ofNat_inj.1 hnat, fun h => absurd h hend, fun _ => ⟨rfl, htmr⟩⟩

/-- Settles O20: at `k = D` the step goes to Sustain at the end level of the ramp, before it only counts. -/
theorem decayStepLandsOnTheSustainLevel : Obligations.DecayStepLandsOnTheSustainLevel := by
  unfold Obligations.DecayStepLandsOnTheSustainLevel
  intro c v hwf hst hk
  have hc := Cfg.facts hwf
  obtain ⟨lev, tmr, hlev, htmr, he⟩ := decayStep_ok hc hk
  have hnat := hlev.trans (decayLevel_eq hc hk)
  have hsus : c.sus ≤ lev.toNat := Int.ofNat_le.1 ((decayLevel_bounds hc hk).1.trans_eq hlev.symm)
  rw [envStep_of_decay hst, he]
  split_ifs with hend
  · rw [hend, decayLevel_end hc] at hlev
    exact ⟨_, rfl, Int.ofNat_inj.1 hnat, hsus, fun _ => ⟨rfl, Int.ofNat_inj.1 hlev⟩, fun h => absurd hend h⟩
  · exact ⟨_, rfl, Int.ofNat_inj.1 hnat, hsus, fun h => absurd h hend, fun _ => ⟨rfl, htmr⟩⟩

/-- Settles O22: at `k = R`, where the ramp ends at 0, the step frees the slot; before it only counts. -/
theorem releaseStepFreesTheVoice : Obligations.ReleaseStepFreesTheVoice := by
  unfold Obligations.ReleaseStepFreesTheVoice
  intro c v hwf hst hk
  have hc := Cfg.facts hwf
  obtain ⟨lev, tmr, hlev, htmr, he⟩ := releaseStep_ok hc hk
  have hnat := hlev.trans (releaseLevel_eq hc hk)
  rw [envStep_of_release hst, he]
  split_ifs with hend
  · rw [hend, releaseLevel_end hc] at hlev
    rw [hlev] at hnat
    exact ⟨_, rfl, Int.ofNat_inj.1 hnat, fun _ => rfl, fun h => absurd hend h⟩
  · exact ⟨_, rfl, Int.ofNat_inj.1 hnat, fun h => absurd h hend, fun _ => ⟨rfl, htmr⟩⟩

/-- Settles O21: with the key released a Sustain step is the Release step (O22) from the timer 0. -/
theorem sustainStepHoldsOrReleases : Obligations.SustainStepHoldsOrReleases := by
  unfold Obligations.SustainStepHoldsOrReleases
  intro c v hwf hst
  have hc := Cfg.facts hwf
  rw [envStep_of_sustain hst]
  refine ⟨fun hheld => ?_, fun hheld => ?_⟩
  · obtain ⟨lev, hlev, he⟩ := sustainStep_held hc hheld
    exact ⟨_, he, rfl, hlev⟩
  · obtain ⟨v', he, hlev, -, hinside⟩ := releaseStepFreesTheVoice c { v with st := .release, tmr := 0 } hwf rfl
      hc.release_pos
    have heq : sustainStep c v = envStep c { v with st := .release, tmr := 0 } :=
      (sustainStep_released c hheld).trans (envStep_of_release rfl).symm
    refine ⟨heq, v', heq.trans he, by simpa using hlev, fun hR => ?_⟩
    obtain ⟨hv', htmr⟩ := hinside (Ne.symm hR)
    exact ⟨congrArg Voice.st hv', htmr, (congrArg Voice.note hv' :)⟩

/-! ### The envelope timeline -/

/-- Where the timeline of R157 has a voice after step `k`, with its release starting at step `r`: the segment, the
timer in it and the level. The level before the first step is any. -/
inductive OnTimeline (c : Cfg) (r k : Nat) (u : Voice) : Prop
  | attack (st : u.st = .attack) (before : k < c.attack) (tmr : u.tmr.toNat = k)
      (lev : 1 ≤ k → u.lev.toNat = k * 32768 / c.attack)
  | decay (st : u.st = .decay) (before : k < c.attack + c.decay) (tmr : c.attack + u.tmr.toNat = k)
      (lev : u.lev.toNat = 32768 - (32768 - c.sus) * u.tmr.toNat / c.decay)
  | sustain (st : u.st = .sustain) (since : c.attack + c.decay ≤ k) (before : k < r) (lev : u.lev.toNat = c.sus)
  | release (st : u.st = .release) (since : r ≤ k) (before : k + 1 < r + c.release) (tmr : r + u.tmr.toNat = k + 1)
      (lev : u.lev.toNat = c.sus - c.sus * u.tmr.toNat / c.release)
  | idle (st : u.st = .idle) (last : k + 1 = r + c.release) (lev : u.lev = 0) (note : u.note = none)

section
variable {c : Cfg} {v : Voice} {m r k : Nat}

/-- An Attack step follows the timeline: to the next step of Attack, or from its end to Decay. -/
theorem envStep_attack_onTimeline (hwf : c.wf = true) (hst : v.st = .attack) (hk : k < c.attack)
    (htmr : v.tmr.toNat = k) : ∃ v', envStep c v = .ok v' ∧ v'.held = v.held ∧ OnTimeline c r (k + 1) v' := by
  subst htmr
  obtain ⟨v', he, hlev, hend, hinside⟩ := attackStepRampsToFullLevel c v hwf hst hk
  refine ⟨v', he, ?_⟩
  by_cases h : v.tmr.toNat + 1 = c.attack
  · obtain ⟨hv', hone⟩ := hend h
    have htmr' : v'.tmr = 0 := congrArg Voice.tmr hv'
    have hD := (Cfg.facts hwf).decay_pos
    exact ⟨(congrArg Voice.held hv' :), .decay (congrArg Voice.st hv') (by omega) (by simpa [htmr'] using h.symm)
      (by simpa [htmr'] using hone)⟩
  · obtain ⟨hv', htmr'⟩ := hinside h
    exact ⟨(congrArg Voice.held hv' :), .attack ((congrArg Voice.st hv').trans hst) (by omega) htmr' fun _ => hlev⟩

/-- A Decay step follows the timeline: to the next step of Decay, or from its end to Sustain. -/
theorem envStep_decay_onTimeline (hwf : c.wf = true) (hr : c.attack + c.decay < r) (hst : v.st = .decay)
    (hk : k < c.attack + c.decay) (htmr : c.attack + v.tmr.toNat = k) :
    ∃ v', envStep c v = .ok v' ∧ v'.held = v.held ∧ OnTimeline c r (k + 1) v' := by
  obtain ⟨v', he, hlev, -, hend, hinside⟩ := decayStepLandsOnTheSustainLevel c v hwf hst (by omega)
  refine ⟨v', he, ?_⟩
  by_cases h : v.tmr.toNat + 1 = c.decay
  · obtain ⟨hv', hsus⟩ := hend h
    exact ⟨(congrArg Voice.held hv' :), .sustain (congrArg Voice.st hv') (by omega) (by omega) hsus⟩
  · obtain ⟨hv', htmr'⟩ := hinside h
    exact ⟨(congrArg Voice.held hv' :), .decay ((congrArg Voice.st hv').trans hst) (by omega) (by omega)
      (htmr' ▸ hlev)⟩

/-- A Release step follows the timeline: to the next step of Release, or from its end to Idle. It may be the first
one, step `r`, which the voice enters with the timer 0 (R153). -/
theorem envStep_release_onTimeline (hwf : c.wf = true) (hst : v.st = .release) (since : r ≤ k + 1)
    (hk : k + 1 < r + c.release) (htmr : r + v.tmr.toNat = k + 1) :
    ∃ v', envStep c v = .ok v' ∧ v'.held = v.held ∧ OnTimeline c r (k + 1) v' := by
  obtain ⟨v', he, hlev, hend, hinside⟩ := releaseStepFreesTheVoice c v hwf hst (by omega)
  refine ⟨v', he, ?_⟩
  by_cases h : v.tmr.toNat + 1 = c.release
  · have hv' := hend h
    exact ⟨(congrArg Voice.held hv' :), .idle (congrArg Voice.st hv') (by omega) (congrArg Voice.lev hv')
      (congrArg Voice.note hv')⟩
  · obtain ⟨hv', htmr'⟩ := hinside h
    exact ⟨(congrArg Voice.held hv' :), .release ((congrArg Voice.st hv').trans hst) since (by omega) (by omega)
      (htmr' ▸ hlev)⟩

/-- A Sustain step follows the timeline: the level holds until step `r`, which takes the first Release step. -/
theorem envStep_sustain_onTimeline (hwf : c.wf = true) (hr : r = max m (c.attack + c.decay + 1))
    (hheld : v.held = decide (k + 1 < m)) (hst : v.st = .sustain) (since : c.attack + c.decay ≤ k) (hk : k < r) :
    ∃ v', envStep c v = .ok v' ∧ v'.held = v.held ∧ OnTimeline c r (k + 1) v' := by
  obtain ⟨hhold, hleave⟩ := sustainStepHoldsOrReleases c v hwf hst
  by_cases h : k + 1 < m
  · obtain ⟨v', he, hv', hlev⟩ := hhold (hheld.trans (decide_eq_true h))
    exact ⟨v', he, (congrArg Voice.held hv' :),
      .sustain ((congrArg Voice.st hv').trans hst) (by omega) (by omega) hlev⟩
  · obtain ⟨heq, -⟩ := hleave (hheld.trans (decide_eq_false h))
    have hR := (Cfg.facts hwf).release_pos
    have hfirst : r = k + 1 := by omega
    rw [heq]
    exact envStep_release_onTimeline hwf (v := { v with st := .release, tmr := 0 }) rfl (by omega) (by omega)
      (by simpa using hfirst)

/-- Every envelope step before the end follows the timeline. -/
theorem envStep_onTimeline (hwf : c.wf = true) (hr : r = max m (c.attack + c.decay + 1))
    (hheld : v.held = decide (k + 1 < m)) (hk : k + 1 < r + c.release) (h : OnTimeline c r k v) :
    ∃ v', envStep c v = .ok v' ∧ v'.held = v.held ∧ OnTimeline c r (k + 1) v' := by
  cases h with
  | attack st before tmr _ => exact envStep_attack_onTimeline hwf st before tmr
  | decay st before tmr _ => exact envStep_decay_onTimeline hwf (by omega) st before tmr
  | sustain st since before _ => exact envStep_sustain_onTimeline hwf hr hheld st since before
  | release st since _ tmr _ => exact envStep_release_onTimeline hwf st (by omega) hk tmr
  | idle _ last _ _ => omega

/-- The place on the timeline does not depend on whether the key is held. -/
theorem onTimeline_letGo (h : OnTimeline c r k v) : OnTimeline c r k (letGo v) := by
  cases h with
  | attack st before tmr lev => exact .attack st before tmr lev
  | decay st before tmr lev => exact .decay st before tmr lev
  | sustain st since before lev => exact .sustain st since before lev
  | release st since before tmr lev => exact .release st since before tmr lev
  | idle st last lev note => exact .idle st last lev note

/-- The drain of step `m` clears `held` and moves no voice on the timeline. -/
theorem letGoAt_onTimeline (hheld : v.held = decide (k < m)) (h : OnTimeline c r k v) :
    (if k + 1 = m then letGo v else v).held = decide (k + 1 < m) ∧
      OnTimeline c r k (if k + 1 = m then letGo v else v) := by
  split_ifs with hm
  · exact ⟨(decide_eq_false (by omega)).symm, onTimeline_letGo h⟩
  · exact ⟨hheld.trans (decide_eq_decide.2 (by omega)), h⟩

/-- A voice just started runs through the timeline, up to the end of its release. -/
theorem envelopeAfter_onTimeline (hwf : c.wf = true) (hst : v.st = .attack) (htmr : v.tmr = 0)
    (hheld : v.held = true) (hm : 1 ≤ m) (hr : r = max m (c.attack + c.decay + 1)) (hk : k < r + c.release) :
    ∃ u, envelopeAfter c v m k = .ok u ∧ u.held = decide (k < m) ∧ OnTimeline c r k u := by
  induction k with
  | zero =>
    exact ⟨v, rfl, hheld.trans (decide_eq_true hm).symm,
      .attack hst (Cfg.facts hwf).attack_pos (congrArg BitVec.toNat htmr) (by omega)⟩
  | succ k ih =>
    obtain ⟨u, he, hu, hline⟩ := ih (by omega)
    obtain ⟨hheld', hline'⟩ := letGoAt_onTimeline hu hline
    obtain ⟨u', he', hkeep, hnext⟩ := envStep_onTimeline hwf hr hheld' hk hline'
    exact ⟨u', by rw [envelopeAfter, he]; exact he', hkeep.trans hheld', hnext⟩

end

/-- Settles O25: the voice is on the timeline after every step, and each clause is one of its segments. -/
theorem envelopeTimelineOfANote : Obligations.EnvelopeTimelineOfANote := by
  unfold Obligations.EnvelopeTimelineOfANote
  intro c v m r k hwf hst htmr hheld hm hr hk1 hk
  have hA := (Cfg.facts hwf).attack_pos
  have hD := (Cfg.facts hwf).decay_pos
  have hR := (Cfg.facts hwf).release_pos
  obtain ⟨u, he, -, hline⟩ := envelopeAfter_onTimeline hwf hst htmr hheld hm hr (by omega : k < r + c.release)
  refine ⟨u, he, ?_⟩
  cases hline with
  | attack st before _ lev => exact ⟨fun _ => ⟨st, lev hk1⟩, by omega, by omega, by omega, by omega, by omega⟩
  | decay st before tmr lev =>
    have hk' : k - c.attack = u.tmr.toNat := by omega
    refine ⟨by omega, fun h => ⟨st, ?_⟩, fun _ _ => ⟨st, hk' ▸ lev⟩, by omega, by omega, by omega⟩
    have h0 : u.tmr.toNat = 0 := by omega
    simpa [h0] using lev
  | sustain st since before lev => exact ⟨by omega, by omega, by omega, fun _ _ => ⟨st, lev⟩, by omega, by omega⟩
  | release st since before tmr lev =>
    have hk' : k + 1 - r = u.tmr.toNat := by omega
    exact ⟨by omega, by omega, by omega, by omega, fun _ _ => ⟨st, hk' ▸ lev⟩, by omega⟩
  | idle st last lev note => exact ⟨by omega, by omega, by omega, by omega, by omega, fun _ => ⟨st, lev, note⟩⟩

end Sys2Proof.Machine
end

section
/-! PROOFS. The statements of 42_synth_mix.md: the contribution of a voice (R171), the phase advance (R172), the
per-voice loop and its accumulator (R173, R174), the normalisation (R175, R176), and the master volume (R177 to R180). -/

namespace Sys2Proof.Machine

/-! ### Scaling by at most one -/

/-- What lies between 0 and `d` is no larger in size than `d`. -/
theorem abs_le_abs_of_between {x d : Int} (h : min 0 d ≤ x ∧ x ≤ max 0 d) : |x| ≤ |d| := by
  obtain ⟨hlo, hhi⟩ := h
  rcases le_total 0 d with hd | hd
  · rw [abs_of_nonneg hd, abs_le]
    omega
  · rw [abs_of_nonpos hd, abs_le]
    omega

/-- `tdiv` of a product with a factor of at most `b`, without regard to the sign (R176 item 2). -/
theorem tdiv_mul_within {d k b : Int} (hk : 0 ≤ k) (hkb : k ≤ b) (hb : 0 < b) :
    min 0 d ≤ tdiv (d * k) b ∧ tdiv (d * k) b ≤ max 0 d := by
  obtain ⟨hpos, hneg⟩ := tdiv_mul_between (d := d) hk hkb hb
  rcases le_total 0 d with hd | hd
  · have hq := hpos hd
    omega
  · have hq := hneg hd
    omega

/-- The truncated quotient is 0 exactly where the dividend is smaller in size than the divisor (R176 item 4). -/
theorem tdiv_eq_zero_iff {a b : Int} (hb : 0 < b) : tdiv a b = 0 ↔ |a| < b := by
  have hquot : (tdiv a b).natAbs = a.natAbs / b.natAbs := Int.natAbs_tdiv a b
  rw [← Int.natAbs_eq_zero, hquot, Nat.div_eq_zero_iff_lt (Int.natAbs_pos.2 hb.ne'), Int.abs_eq_natAbs]
  omega

/-! ### The contribution and the phase advance -/

/-- At every position the read is an entry plus a floored fraction of the way to another (R127). -/
theorem wtSample_eq (c : Cfg) (pos : BitVec 32) : ∃ i j, wtSample c pos =
    wtAt c i + fdiv ((wtAt c j - wtAt c i) * (pos.toNat % 65536 : Nat)) 65536 := ⟨_, _, rfl⟩

/-- The interpolated read is a 16-bit value at every position (R128). -/
theorem wtSample_bounds (c : Cfg) (pos : BitVec 32) : -32768 ≤ wtSample c pos ∧ wtSample c pos ≤ 32767 := by
  obtain ⟨i, j, hread⟩ := wtSample_eq c pos
  have hway := fdiv_mul_between (d := wtAt c j - wtAt c i) (k := (pos.toNat % 65536 : Nat)) (b := 65536)
    (by omega) (by omega) (by decide)
  have hwi := wtAt_bounds c i
  have hwj := wtAt_bounds c j
  omega

/-- The contribution as a floored fraction (R171). -/
theorem contribution_eq (c : Cfg) (v : Voice) :
    contribution c v = fdiv (wtSample c v.pos * v.lev.toNat) 32768 := rfl

/-- A contribution lies between 0 and its sample (R171). -/
theorem contribution_between (c : Cfg) {v : Voice} (h : v.lev.toNat ≤ 32768) :
    min 0 (wtSample c v.pos) ≤ contribution c v ∧ contribution c v ≤ max 0 (wtSample c v.pos) :=
  fdiv_mul_between (by omega) (by omega) (by decide)

/-- A contribution is a 16-bit value (R171). -/
theorem contribution_bounds (c : Cfg) {v : Voice} (h : v.lev.toNat ≤ 32768) :
    -32768 ≤ contribution c v ∧ contribution c v ≤ 32767 := by
  have hs := wtSample_bounds c v.pos
  have hb := contribution_between c h
  omega

/-- At full level the contribution is the sample (R171). -/
theorem contribution_of_full_level (c : Cfg) {v : Voice} (h : v.lev.toNat = 32768) :
    contribution c v = wtSample c v.pos := by
  rw [contribution_eq, h]
  exact mul_fdiv_cancel (by decide)

/-- One active voice in one sample: the envelope step, then the contribution, then the advance (R171, R173). -/
theorem renderVoice_eq_ok_iff {c : Cfg} {v w : Voice} {p : Int} : renderVoice c v = .ok (w, p) ↔
    ∃ v1, envStep c v = .ok v1 ∧ advance c v1 = .ok w ∧ contribution c v1 = p := by
  unfold renderVoice
  cases envStep c v with
  | error e => simp
  | ok v1 => cases h : advance c v1 <;> simp [h]

/-- Settles O27: the level is a factor of at most one, and `renderVoice` reads the voice between its two steps. -/
theorem contributionIsNoLargerThanItsSample : Obligations.ContributionIsNoLargerThanItsSample := by
  unfold Obligations.ContributionIsNoLargerThanItsSample
  intro c v hlev
  obtain ⟨hlo, hhi⟩ := contribution_bounds c hlev
  exact ⟨contribution_eq c v, abs_le_abs_of_between (contribution_between c hlev), contribution_of_full_level c, hlo, hhi,
    fun u w he ha => renderVoice_eq_ok_iff.2 ⟨v, he, ha, rfl⟩⟩

/-- Settles O28: the reduced sum fits the 32 bits of the position. -/
theorem phaseAdvanceWraps : Obligations.PhaseAdvanceWraps := by
  unfold Obligations.PhaseAdvanceWraps
  intro c v hwf
  obtain ⟨pos, hpos, -, ha⟩ := advance_ok (Cfg.facts hwf) v
  exact ⟨_, ha, rfl, hpos⟩

/-! ### The per-voice loop -/

/-- What the loop makes of one voice (R173): an Idle voice stays, every other one takes its two steps. -/
def LoopStep (c : Cfg) (v w : Voice) : Prop :=
  (v.st = .idle → w = v) ∧ (v.st ≠ .idle → ∃ v1, envStep c v = .ok v1 ∧ advance c v1 = .ok w)

section
variable {c : Cfg} {v v1 : Voice} {vs us : List Voice} {acc a : Int}

/-- The loop passes over an Idle voice (R155, R170). -/
theorem renderVoices_cons_of_idle (hst : v.st = .idle) (h : renderVoices c (v :: vs) acc = .ok (us, a)) :
    ∃ ws, us = v :: ws ∧ renderVoices c vs acc = .ok (ws, a) := by
  rw [renderVoices, if_pos hst] at h
  cases hrest : renderVoices c vs acc with
  | error e => simp [hrest] at h
  | ok r =>
    rw [hrest] at h
    cases h
    exact ⟨_, rfl, rfl⟩

/-- The loop renders a voice that is not Idle, then goes on with its contribution added (R173). -/
theorem renderVoices_cons_of_active (hst : v.st ≠ .idle) (h : renderVoices c (v :: vs) acc = .ok (us, a)) :
    ∃ w p ws, renderVoice c v = .ok (w, p) ∧ us = w :: ws ∧ renderVoices c vs (acc + p) = .ok (ws, a) := by
  rw [renderVoices, if_neg hst] at h
  cases hv : renderVoice c v with
  | error e => simp [hv] at h
  | ok r =>
    cases hrest : renderVoices c vs (acc + r.2) with
    | error e => simp [hv, hrest] at h
    | ok r' =>
      simp only [hv, hrest] at h
      cases h
      exact ⟨_, _, _, rfl, rfl, hrest⟩

/-- An Idle voice contributes nothing (R170). -/
theorem contributions_cons_of_idle (hst : v.st = .idle) : contributions c (v :: vs) = contributions c vs := by
  rw [contributions, List.filterMap_cons, if_pos hst, contributions]

/-- A voice that is not Idle contributes after its envelope step (R171). -/
theorem contributions_cons_of_active (hst : v.st ≠ .idle) (he : envStep c v = .ok v1) :
    contributions c (v :: vs) = contribution c v1 :: contributions c vs := by
  simp only [contributions, List.filterMap_cons, if_neg hst, he]

/-- Everything the loop does (R173, R174): its step on each voice, and the contributions added to the accumulator. -/
theorem renderVoices_spec (h : renderVoices c vs acc = .ok (us, a)) :
    List.Forall₂ (LoopStep c) vs us ∧ a = acc + (contributions c vs).sum := by
  induction vs generalizing acc us with
  | nil =>
    cases h
    exact ⟨.nil, (add_zero _).symm⟩
  | cons v vs ih =>
    by_cases hst : v.st = .idle
    · obtain ⟨ws, rfl, hrest⟩ := renderVoices_cons_of_idle hst h
      obtain ⟨hall, ha⟩ := ih hrest
      exact ⟨.cons ⟨fun _ => rfl, fun hne => absurd hst hne⟩ hall, by rw [contributions_cons_of_idle hst, ha]⟩
    · obtain ⟨w, p, ws, hv, rfl, hrest⟩ := renderVoices_cons_of_active hst h
      obtain ⟨v1, he, hadv, rfl⟩ := renderVoice_eq_ok_iff.1 hv
      obtain ⟨hall, ha⟩ := ih hrest
      refine ⟨.cons ⟨fun hidle => absurd hidle hst, fun _ => ⟨v1, he, hadv⟩⟩ hall, ?_⟩
      rw [contributions_cons_of_active hst he, List.sum_cons, ha, add_assoc]

/-- A contribution comes from the envelope step of one of the voices (R171). -/
theorem mem_contributions {p : Int} (h : p ∈ contributions c vs) :
    ∃ v ∈ vs, ∃ v1, envStep c v = .ok v1 ∧ contribution c v1 = p := by
  obtain ⟨v, hv, hp⟩ := List.mem_filterMap.1 h
  refine ⟨v, hv, ?_⟩
  split_ifs at hp
  cases he : envStep c v with
  | error e => simp [he] at hp
  | ok v1 => exact ⟨v1, rfl, by simpa [he] using hp⟩

/-- A sound voice contributes a 16-bit value (R171, R158). -/
theorem contributions_bounds (hc : c.Facts) (hvs : ∀ v ∈ vs, VoiceOk c v) {p : Int} (h : p ∈ contributions c vs) :
    -32768 ≤ p ∧ p ≤ 32767 := by
  obtain ⟨v, hv, v1, he, rfl⟩ := mem_contributions h
  obtain ⟨v', he', ⟨-, -, hlev, -⟩, -⟩ := envStep_keeps_ok hc (hvs v hv)
  obtain rfl : v1 = v' := Except.ok.inj (he.symm.trans he')
  exact contribution_bounds c hlev

/-- No more voices contribute than there are (R173). -/
theorem contributions_length_le (c : Cfg) (vs : List Voice) : (contributions c vs).length ≤ vs.length :=
  List.length_filterMap_le _ _

/-- The sum of the contributions of `n` sound voices lies in `-32768 n` to `32767 n` (R174). -/
theorem contributions_sum_bounds (hc : c.Facts) (hvs : ∀ v ∈ vs, VoiceOk c v) :
    -32768 * (vs.length : Int) ≤ (contributions c vs).sum ∧ (contributions c vs).sum ≤ 32767 * (vs.length : Int) := by
  have hlen := contributions_length_le c vs
  have hlo := List.card_nsmul_le_sum _ (-32768) fun p hp => (contributions_bounds hc hvs hp).1
  have hhi := List.sum_le_card_nsmul _ 32767 fun p hp => (contributions_bounds hc hvs hp).2
  rw [nsmul_eq_mul] at hlo hhi
  omega

end

/-- Settles O29: the loop relates the two lists voice by voice, and starts from the accumulator 0. -/
theorem voiceLoopStepsEveryActiveVoice : Obligations.VoiceLoopStepsEveryActiveVoice := by
  unfold Obligations.VoiceLoopStepsEveryActiveVoice
  intro c vs ws a h
  obtain ⟨hall, ha⟩ := renderVoices_spec h
  have hlen := hall.length_eq
  refine ⟨hlen.symm, ha.trans (zero_add _), fun i v hv => ?_⟩
  obtain ⟨hi, rfl⟩ := List.getElem?_eq_some_iff.1 hv
  obtain ⟨hidle, hactive⟩ : LoopStep c vs[i] ws[i] := hall.get hi (hlen ▸ hi)
  rw [List.getElem?_eq_getElem (hlen ▸ hi)]
  refine ⟨fun hst => congrArg some (hidle hst), fun hst => ?_⟩
  obtain ⟨v1, he, hadv⟩ := hactive hst
  exact ⟨v1, _, he, hadv, rfl⟩

/-- Settles O30: at most `N_VOICES` contributions of 16 bits each, and `N_VOICES` is at most 16. -/
theorem accumulatorStaysInRange : Obligations.AccumulatorStaysInRange := by
  unfold Obligations.AccumulatorStaysInRange
  intro c vs ws a hwf ⟨hlen, hvs, _⟩ h
  have hc := Cfg.facts hwf
  have hn := hc.voices_le
  have ha : a = (contributions c vs).sum := (renderVoices_spec h).2.trans (zero_add _)
  have hsum := contributions_sum_bounds hc hvs
  rw [hlen, ← ha] at hsum
  exact ⟨ha, hsum.1, hsum.2, by omega, by omega⟩

/-! ### The normalisation -/

/-- The target of the update is the table's entry for the count of active voices (00_scope.md R7). -/
theorem normTarget_eq {c : Cfg} {n : Nat} {target : BitVec 25} (h : c.normLut[n - 1]? = some target) :
    normTarget c n = target.toNat := by
  rw [normTarget, List.getD_eq_getElem?_getD, h, Option.getD_some]

/-- Settles O31: the step is a truncated fraction of the way to the target. So it lies between 0 and the whole way, and
is 0 exactly in the dead band. -/
theorem normalisationStepsTowardItsTarget : Obligations.NormalisationStepsTowardItsTarget := by
  unfold Obligations.NormalisationStepsTowardItsTarget
  intro c n norm target hwf hnorm
  have hc := Cfg.facts hwf
  refine ⟨fun hn htarget => ?_, ?_⟩
  · obtain ⟨norm', hu, hle, -, hstep⟩ := normUpdate_ok hc hnorm n
    replace hstep := hstep (by omega)
    rw [normTarget_eq htarget] at hstep
    generalize hd : (target.toNat : Int) - norm.toNat = d at hstep ⊢
    have hsize : |d * c.alpha| = |d| * c.alpha := by rw [abs_mul, Nat.abs_cast]
    have hbound : |tdiv (d * c.alpha) 65536| * 65536 ≤ |d| * c.alpha := hsize ▸ abs_tdiv_mul_le (by decide)
    have hway : min 0 d ≤ tdiv (d * c.alpha) 65536 ∧ tdiv (d * c.alpha) 65536 ≤ max 0 d :=
      tdiv_mul_within (Int.natCast_nonneg _) (Int.ofNat_le.2 hc.alpha_le) (by decide)
    have hdead : tdiv (d * c.alpha) 65536 = 0 ↔ |d| * c.alpha < 65536 := hsize ▸ tdiv_eq_zero_iff (by decide)
    have hstays : norm' = norm ↔ |d| * c.alpha < 65536 := by
      rw [← hdead, ← BitVec.toNat_inj]
      omega
    refine ⟨norm', hu, hstep, ?_, by omega, by omega, hle, hstays.2, fun h655 hsame => ?_⟩
    · rwa [hstep, add_sub_cancel_left, mul_comm (c.alpha : Int)]
    · have hsmall := hstays.1 hsame
      rw [h655] at hsmall
      omega
  · obtain ⟨norm', hu, -, hreset, -⟩ := normUpdate_ok hc hnorm 0
    exact ⟨norm', hu, hreset rfl⟩

/-! ### The master volume -/

/-- The factor `NORM` as a floored fraction (R177). -/
theorem normalised_eq (acc : Int) (norm : BitVec 25) : normalised acc norm = fdiv (acc * norm.toNat) 16777216 := rfl

/-- A `NORM` of at most 1.0 does not amplify (R177). -/
theorem abs_normalised_le (acc : Int) {norm : BitVec 25} (h : norm.toNat ≤ 2 ^ 24) : |normalised acc norm| ≤ |acc| :=
  abs_le_abs_of_between (fdiv_mul_between (by omega) (by omega) (by decide))

/-- A volume of at most 100 does not amplify (R179). -/
theorem abs_scaled_le (t : Int) {mvol : BitVec 7} (h : mvol.toNat ≤ 100) : |scaled t mvol| ≤ |t| :=
  abs_le_abs_of_between (tdiv_mul_within (by omega) (by omega) (by decide))

/-- The volume 100 is unity gain (R178). -/
theorem scaled_of_unity (t : Int) {mvol : BitVec 7} (h : mvol.toNat = 100) : scaled t mvol = t := by
  rw [scaled, h]
  exact Int.mul_tdiv_cancel t (by decide)

/-- The volume 0 mutes the synthesizer (R178). -/
theorem synthOut_of_mute (acc : Int) (norm : BitVec 25) {mvol : BitVec 7} (h : mvol.toNat = 0) :
    synthOut acc norm mvol = 0 := by
  rw [synthOut, scaled, h, Nat.cast_zero, mul_zero]
  rfl

/-- Saturation below the 16-bit range (00_scope.md R11). -/
theorem sat16_of_lt {x : Int} (h : x < -32768) : sat16 x = -32768 := by
  unfold sat16
  omega

/-- Saturation above the 16-bit range (00_scope.md R11). -/
theorem sat16_of_gt {x : Int} (h : 32767 < x) : sat16 x = 32767 := by
  unfold sat16
  omega

/-- Settles O32: both factors are at most one, and the output is the saturation of their product. -/
theorem masterVolumeNeverAmplifies : Obligations.MasterVolumeNeverAmplifies := by
  unfold Obligations.MasterVolumeNeverAmplifies
  intro acc norm mvol hnorm hmvol t u y
  exact ⟨normalised_eq acc norm, abs_normalised_le acc hnorm, rfl, abs_scaled_le t hmvol, scaled_of_unity t,
    synthOut_of_mute acc norm, sat16_of_lt, sat16_of_fits, sat16_of_gt⟩

/-! ### `SET_MVOL` -/

/-- The word of `SET_MVOL v` is `0x3000 | v` (30_encoding.md R92). -/
theorem encode_setMvol (v : Byte) : encode (.setMvol v) = 0x3000 ||| v.setWidth 16 := mkWord_rsv_zero 0x3 v

/-- An operand of 0..100 is stored as the volume (R178). -/
theorem exec_setMvol_of_le {v : Byte} (h : v.toNat ≤ 100) (s : State) :
    exec (.setMvol v) s = .next { s with mvol := v.setWidth 7 } := by
  simp only [exec, execSetMvol, volumeOperand, if_pos h]

/-- An operand of 101..255 only records `E_MVOL_RANGE` (R178, R267). -/
theorem exec_setMvol_of_gt {v : Byte} (h : 100 < v.toNat) (s : State) :
    exec (.setMvol v) s = .next (logEvent s (.mvolRange (0x3000 ||| v.setWidth 16))) := by
  simp only [exec, execSetMvol, volumeOperand, if_neg (not_le.2 h), encode_setMvol]

/-- A volume of 0..100 fits the seven bits of `MVOL` (10_state.md R30). -/
theorem setWidth_volume_toNat {v : Byte} (h : v.toNat ≤ 100) : (v.setWidth 7).toNat = v.toNat := by
  rw [BitVec.toNat_setWidth]
  omega

/-- Settles O14: the volume stored is the operand, whose two end points are mute and unity gain. -/
theorem setMvolSetsAVolumeInRange : Obligations.SetMvolSetsAVolumeInRange := by
  unfold Obligations.SetMvolSetsAVolumeInRange
  intro v s
  refine ⟨fun h => ?_, fun h => ?_⟩
  · have hm := setWidth_volume_toNat h
    refine ⟨v.setWidth 7, hm, exec_setMvol_of_le h s, fun h0 acc norm => ?_, fun h100 x => ?_⟩
    · exact synthOut_of_mute acc norm (hm.trans (congrArg BitVec.toNat h0))
    · exact scaled_of_unity x (hm.trans (congrArg BitVec.toNat h100))
  · rw [exec_setMvol_of_gt h, logEvent]

end Sys2Proof.Machine
end

section
/-! PROOFS. The statements of 43_stream_bridge.md: the push (R196), the pop (R198) and the copy steps (R200), with the
copy steps of 45_control_port.md R244. -/

namespace Sys2Proof.Machine

/-! ### The push -/

/-- The entry written reads as the value written (20_memory.md R64). -/
theorem ringRead_memPut_same (s : State) (i : Nat) (x : Word) :
    ringRead { s with ring := memPut s.ring i x } i = x := by
  simp [ringRead]

/-- A write to one entry of RING leaves every other entry unchanged (20_memory.md R64). -/
theorem ringRead_memPut_other (s : State) {i j : Nat} (x : Word) (h : i ≠ j) :
    ringRead { s with ring := memPut s.ring i x } j = ringRead s j := by
  simp [ringRead, memGet_memPut_other s.ring x h]

/-- Where W sees the ring full an element write only records `E_RING_FULL` (R195). -/
theorem elemWrite_of_full {s : State} (x : Word) (h : (s.wr + 1) % s.cfg.ringCap = s.rdS) :
    elemWrite x s = logEvent s (.ringFull x) :=
  if_pos ((fullW_iff s).2 h)

/-- Where W sees room an element write stores the value at `wr` and advances `wr` (R195). -/
theorem elemWrite_of_not_full {s : State} (x : Word) (h : (s.wr + 1) % s.cfg.ringCap ≠ s.rdS) :
    elemWrite x s = { s with
      ring := memPut s.ring s.wr x, wr := (s.wr + 1) % s.cfg.ringCap, accepted := s.accepted ++ [x] } :=
  if_neg (mt (fullW_iff s).1 h)

/-- Out of reset, with `dup_v` 0, a push takes the first sample presented (R191, R196). -/
theorem runAct_wPush {s : State} {x : Word} {rest : List Word} (h : inReset s = false) (hd : s.dupV = false)
    (hx : s.sampIn = x :: rest) : runAct .wPush s = .next (wPush x { s with sampIn := rest }) := by
  rw [runAct_enabled (by simp [enabled, inReady, h, hd, hx])]
  simp only [perform, hx]

/-- Settles O38: the push is the element write of the sample presented, which is dropped or stored at `wr`; `dup_x` and
`dup_v` are written in both cases. -/
theorem pushWritesTheFirstCopy : Obligations.PushWritesTheFirstCopy := by
  unfold Obligations.PushWritesTheFirstCopy
  intro s x rest hreset hdup hx
  rw [runAct_wPush hreset hdup hx, wPush]
  refine ⟨fun hfull => ?_, fun hroom => ?_⟩
  · rw [elemWrite_of_full (s := { s with sampIn := rest }) x hfull, logEvent]
  · rw [elemWrite_of_not_full (s := { s with sampIn := rest }) x hroom]
    exact ⟨_, rfl, rfl, ringRead_memPut_same s s.wr x, fun a ha => ringRead_memPut_other s x ha.symm⟩

/-! ### The pop -/

/-- Where A sees the ring empty a pop is silence and only records `E_RING_EMPTY` (R198). -/
theorem pop_of_empty {s : State} (h : s.rd = s.wrS) : pop s = (0, logEvent s .ringEmpty) :=
  if_pos ((emptyA_iff s).2 h)

/-- Where A sees data a pop answers the entry at `rd` and advances `rd` (R198). -/
theorem pop_of_not_empty {s : State} (h : s.rd ≠ s.wrS) : pop s = (ringRead s s.rd,
    { s with rd := (s.rd + 1) % s.cfg.ringCap, popped := s.popped ++ [ringRead s s.rd] }) :=
  if_neg (mt (emptyA_iff s).1 h)

/-- Settles O40: the two cases of the empty test. -/
theorem popReturnsTheEntryOrSilence : Obligations.PopReturnsTheEntryOrSilence := by
  unfold Obligations.PopReturnsTheEntryOrSilence
  exact fun s => ⟨pop_of_empty, pop_of_not_empty⟩

/-! ### The copy steps -/

/-- A copy step is enabled exactly out of reset (R200, 45_control_port.md R244). -/
theorem enabled_of_mem_copySteps {a : Act} (ha : a ∈ copySteps) (s : State) : enabled a s = !inReset s := by
  simp only [copySteps, List.mem_cons, List.not_mem_nil, or_false] at ha
  rcases ha with rfl | rfl | rfl | rfl | rfl <;> rfl

/-- Out of reset a copy step is performed. -/
theorem runAct_of_mem_copySteps {a : Act} (ha : a ∈ copySteps) {s : State} (h : inReset s = false) :
    runAct a s = perform a s :=
  runAct_enabled (by rw [enabled_of_mem_copySteps ha, h]; rfl)

/-- Settles O45: out of reset each copy step is performed, and what it performs is the copy of its source. -/
theorem copyStepsCopyTheirSource : Obligations.CopyStepsCopyTheirSource := by
  unfold Obligations.CopyStepsCopyTheirSource
  intro s h
  have copied (a : Act) (ha : a ∈ copySteps) : runAct a s = perform a s := runAct_of_mem_copySteps ha h
  exact ⟨copied .syncWr (by decide), copied .syncRd (by decide), copied .syncCw (by decide),
    copied .syncCr (by decide), copied .syncAct (by decide)⟩

end Sys2Proof.Machine
end

section
/-! PROOFS. The statements of 44_output_and_step.md: the combine stage (R222, R223) and the sample step as the
composition of its stages (R220). -/

namespace Sys2Proof.Machine

/-! ### The combine stage -/

/-- The scaled bridge sample as a floored fraction (R222). -/
theorem bgmScaled_eq (c : Cfg) (b : Word) : bgmScaled c b = fdiv (b.toInt * c.bgmGain) 32768 := rfl

/-- A gain of at most 1.0 does not amplify (R222). -/
theorem abs_bgmScaled_le {c : Cfg} (hc : c.Facts) (b : Word) : |bgmScaled c b| ≤ |b.toInt| := by
  have hgain := hc.bgm_le
  exact abs_le_abs_of_between (fdiv_mul_between (by omega) (by omega) (by decide))

/-- The gain 32768 is unity gain (R222). -/
theorem bgmScaled_of_unity {c : Cfg} (b : Word) (h : c.bgmGain = 32768) : bgmScaled c b = b.toInt := by
  rw [bgmScaled_eq, h]
  exact mul_fdiv_cancel (by decide)

/-- Settles O33: the scaled bridge sample is a floored fraction of at most one, and the combine stage saturates its sum
with the synthesizer output. -/
theorem combineScalesAndSaturates : Obligations.CombineScalesAndSaturates := by
  unfold Obligations.CombineScalesAndSaturates
  intro c y b hwf
  exact ⟨bgmScaled_eq c b, abs_bgmScaled_le (Cfg.facts hwf) b, bgmScaled_of_unity b,
    sat16_of_lt, sat16_of_fits, sat16_of_gt⟩

/-! ### The sample step -/

/-- A drain that answers is followed by the stages after it (R220). -/
theorem aStep_of_drain {s t : State} (h : drain s = .next t) : aStep s = render t := by
  rw [aStep, h, andThen]

/-- Where the per-voice loop and the normalisation update answer, the output stages follow (R220). -/
theorem render_of_ok {s : State} {vs : List Voice} {acc : Int} {norm : BitVec 25}
    (hv : renderVoices s.cfg s.voices 0 = .ok (vs, acc))
    (hn : normUpdate s.cfg (activeCount s.voices) s.norm = .ok norm) :
    render s = .next (output vs norm (synthOut acc norm s.mvol) s) := by
  simp only [render, hv, hn]

/-- Settles O34: the drain, the loop and the normalisation update answer what the hypotheses say, and `y` and `m` are
the synthesizer output (R177 to R180) and the combined sample (R222, R223) written out. -/
theorem sampleStepIsItsStagesInOrder : Obligations.SampleStepIsItsStagesInOrder := by
  unfold Obligations.SampleStepIsItsStagesInOrder
  intro s t vs acc norm y m hdrain hvoices hnorm hy hm
  have hsynth : synthOut acc norm t.mvol = y := hy.symm
  have hcombine : combine t.cfg y (pop t).1 = m := hm.symm
  rw [aStep_of_drain hdrain, render_of_ok hvoices hnorm, hsynth, output, hcombine, emit, sample16]

end Sys2Proof.Machine
end

section
/-! PROOFS. The statements of 45_control_port.md: the drain (R242), `NOP` (R245), the reserved words (R249), the command
write (R240) and `ACT_NOTES` (R246). -/

namespace Sys2Proof.Machine

/-! ### The drain -/

/-- The state with the read side of the inbox replaced: `cr` and the history of the words applied. -/
def withInboxRead (cr : Nat) (ap : List Word) (s : State) : State := { s with cr := cr, cmdApplied := ap }

/-- `NOTE_ON` of a note in range does not look at the read side of the inbox. -/
theorem noteOnIndex_withInboxRead (cmd : Word) (n : Note) (cr : Nat) (ap : List Word) (s : State) :
    noteOnIndex cmd n (withInboxRead cr ap s) = withInboxRead cr ap (noteOnIndex cmd n s) := by
  simp only [noteOnIndex, withInboxRead]
  split
  · rfl
  · split <;> rfl

/-- `NOTE_OFF` of a note in range does not look at the read side of the inbox. -/
theorem noteOffIndex_withInboxRead (cmd : Word) (n : Note) (cr : Nat) (ap : List Word) (s : State) :
    noteOffIndex cmd n (withInboxRead cr ap s) = withInboxRead cr ap (noteOffIndex cmd n s) := by
  simp only [noteOffIndex, withInboxRead]
  split <;> rfl

/-- No command looks at the read side of the inbox: replaced before the command, it stands after it (R243). -/
theorem exec_withInboxRead {i : Instr} {s t : State} (h : exec i s = .next t) (cr : Nat) (ap : List Word) :
    exec i (withInboxRead cr ap s) = .next (withInboxRead cr ap t) := by
  cases i with
  | noteOn n =>
    simp only [exec, execNoteOn] at h ⊢
    split at h
    · cases h; rfl
    · cases h; rw [noteOnIndex_withInboxRead]
  | noteOff n =>
    simp only [exec, execNoteOff] at h ⊢
    split at h
    · cases h; rfl
    · cases h; rw [noteOffIndex_withInboxRead]
  | key c =>
    have hcfg : (withInboxRead cr ap s).cfg = s.cfg := rfl
    simp only [exec, execKey, hcfg] at h ⊢
    split at h
    · cases h; rfl
    · split at h
      · rename_i hrel
        cases h; rw [noteOffIndex_withInboxRead, if_pos hrel]
      · rename_i hrel
        cases h; rw [noteOnIndex_withInboxRead, if_neg hrel]
  | setMvol v =>
    simp only [exec, execSetMvol] at h ⊢
    split at h <;> cases h <;> rfl
  | nop | reservedOp1 | reservedOp2 | reservedOp3 | reservedOp4 | reservedOp5 | reservedOp6to7 | reservedOp8toF =>
    cases h; rfl

/-- Commands applied one after another complete, and do not look at the read side of the inbox. -/
theorem applyCommands_withInboxRead (ws : List Word) (s : State) : ∃ t, applyCommands ws s = .next t ∧
    ∀ cr ap, applyCommands ws (withInboxRead cr ap s) = .next (withInboxRead cr ap t) := by
  induction ws generalizing s with
  | nil => exact ⟨s, rfl, fun _ _ => rfl⟩
  | cons w ws ih =>
    obtain ⟨vs, mv, ev, he, -⟩ := exec_frame (decode w) s
    obtain ⟨t, ht, hread⟩ := ih { s with voices := vs, mvol := mv, events := ev }
    refine ⟨t, by rw [applyCommands, he, andThen, ht], fun cr ap => ?_⟩
    rw [applyCommands, exec_withInboxRead he, andThen, hread]

theorem visibleWords_length (s : State) : (visibleWords s).length = visible s := by
  simp [visibleWords, visible]

/-- With nothing between `cr` and `cw_s` no word is visible. -/
theorem visibleWords_of_empty {s : State} (h : s.cr = s.cwS) : visibleWords s = [] := by
  rw [← List.length_eq_zero_iff, visibleWords_length, visible, h, Nat.add_sub_cancel_left, Nat.mod_self]

/-- The first visible word is the one at `cr`; the others are those visible once `cr` is advanced. -/
theorem visibleWords_of_pending {s : State} (hcr : s.cr < s.cfg.cmdDepth) (hcw : s.cwS < s.cfg.cmdDepth)
    (hne : s.cr ≠ s.cwS) :
    visibleWords s = cmdRead s s.cr :: visibleWords { s with cr := (s.cr + 1) % s.cfg.cmdDepth } := by
  have hrest := visible_advance (s := s) (t := { s with cr := (s.cr + 1) % s.cfg.cmdDepth }) rfl rfl rfl hcr hcw hne
  have hentry (j : Nat) : (s.cr + (j + 1)) % s.cfg.cmdDepth = ((s.cr + 1) % s.cfg.cmdDepth + j) % s.cfg.cmdDepth := by
    rw [Nat.mod_add_mod, Nat.add_right_comm, Nat.add_assoc]
  simp only [visible] at hrest
  simp only [visibleWords, ← hrest, List.range_succ_eq_map, List.map_cons, List.map_map, Nat.add_zero,
    Nat.mod_eq_of_lt hcr]
  congr 1
  exact List.map_congr_left fun j _ => congrArg (cmdRead s) (hentry j)

/-- With nothing between `cr` and `cw_s` the loop of the drain does nothing (R242). -/
theorem drainLoop_of_empty (k : Nat) {s : State} (h : s.cr = s.cwS) : drainLoop k s = .next s := by
  cases k with
  | zero => rfl
  | succ k => rw [drainLoop, if_neg (fun hp => (inboxPending_iff s).1 hp h)]

/-- One round of the loop of the drain applies the command at `cr` and advances `cr` (R242). -/
theorem drainLoop_of_pending (k : Nat) {s t : State} (hne : s.cr ≠ s.cwS)
    (h : exec (decode (cmdRead s s.cr)) s = .next t) :
    drainLoop (k + 1) s = drainLoop k (advanceCr (cmdRead s s.cr) t) := by
  rw [drainLoop, if_pos ((inboxPending_iff s).2 hne), h, andThen]

/-- With as many rounds as visible words, the loop of the drain applies these words in order and ends with `cr` at
`cw_s` (R242). The rounds after the first start from a state that differs from the one the first command left in the
read side of the inbox only, and no command looks at that. -/
theorem drainLoop_eq_applyCommands (k : Nat) {s : State} (hcr : s.cr < s.cfg.cmdDepth)
    (hcw : s.cwS < s.cfg.cmdDepth) (hk : visible s ≤ k) :
    ∃ t, applyCommands (visibleWords s) s = .next t ∧
      drainLoop k s = .next (withInboxRead s.cwS (s.cmdApplied ++ visibleWords s) t) := by
  induction k using Nat.strong_induction_on generalizing s with
  | _ k ih =>
  rcases eq_or_ne s.cr s.cwS with hempty | hne
  · rw [visibleWords_of_empty hempty, List.append_nil, drainLoop_of_empty k hempty, ← hempty]
    exact ⟨s, rfl, rfl⟩
  · obtain ⟨vs, mv, ev, hexec, -⟩ := exec_frame (decode (cmdRead s s.cr)) s
    have hone := visible_advance (s := s)
      (t := advanceCr (cmdRead s s.cr) { s with voices := vs, mvol := mv, events := ev }) rfl rfl rfl hcr hcw hne
    have hpos : 0 < s.cfg.cmdDepth := by omega
    obtain ⟨k, rfl⟩ := Nat.exists_eq_add_one_of_ne_zero (show k ≠ 0 by omega)
    obtain ⟨t', happly', hdrain⟩ := ih k k.lt_succ_self
      (s := advanceCr (cmdRead s s.cr) { s with voices := vs, mvol := mv, events := ev })
      (Nat.mod_lt _ hpos) hcw (by omega)
    obtain ⟨t, happly, hread⟩ := applyCommands_withInboxRead
      (visibleWords { s with cr := (s.cr + 1) % s.cfg.cmdDepth }) { s with voices := vs, mvol := mv, events := ev }
    obtain rfl : withInboxRead _ _ t = t' := Host.Outcome.next.inj ((hread _ _).symm.trans happly')
    rw [visibleWords_of_pending hcr hcw hne]
    refine ⟨t, by rw [applyCommands, hexec, andThen, happly], ?_⟩
    rw [List.append_cons, drainLoop_of_pending k hne hexec, hdrain]
    rfl

/-- Settles O16: the loop of the drain has rounds enough for the visible words, fewer than `CMD_DEPTH`. -/
theorem drainAppliesTheVisibleCommandsInOrder : Obligations.DrainAppliesTheVisibleCommandsInOrder := by
  unfold Obligations.DrainAppliesTheVisibleCommandsInOrder
  intro s hcr hcw
  have hlt : visible s < s.cfg.cmdDepth := Nat.mod_lt _ (by omega)
  exact ⟨by rw [visibleWords_length]; omega, drainLoop_eq_applyCommands _ hcr hcw hlt.le⟩

/-! ### ACT_NOTES -/

/-- Settles O36: the sample step leaves `actMask` of its voices in `ACT_NOTES`. -/
theorem actNotesDescribesTheVoicesAfterTheStep : Obligations.ActNotesDescribesTheVoicesAfterTheStep := by
  unfold Obligations.ActNotesDescribesTheVoicesAfterTheStep
  intro s t n h
  obtain ⟨vs, norm, mv, cr, rd, m, ev, po, ap, rfl⟩ := aStep_frame h
  exact actMask_bit vs n

/-! ### `NOP` and the reserved words -/

/-- The words 0x0000 to 0x0FFF are those of `NOP` (R245). -/
theorem decode_of_le_0x0FFF {w : Word} (h : w.toNat ≤ 0x0FFF) : decode w = .nop (rsvField w) (argField w) :=
  decode_of_op_zero (opField_eq_zero_iff.mpr (by omega))

/-- Settles O4: `exec` of a `NOP` is the identity, so a round of the drain only advances `cr`. -/
theorem nopOnlyAdvancesTheInbox : Obligations.NopOnlyAdvancesTheInbox := by
  unfold Obligations.NopOnlyAdvancesTheInbox
  have nothing (rsv arg s) : exec (.nop rsv arg) s = .next s := rfl
  refine ⟨nothing, fun w h => ⟨_, _, decode_of_le_0x0FFF h⟩, ?_⟩
  rintro w s k h hne rfl
  rw [drainLoop_of_pending k hne (by rw [decode_of_le_0x0FFF h, nothing]), advanceCr]

/-- A word is the word made of its ARG and of the OP and RSV that its fields hold. -/
theorem mkWord_eq_of_fields {w : Word} {op rsv : BitVec 4} (ho : op = opField w) (hr : rsv = rsvField w) :
    mkWord op rsv (argField w) = w := by
  rw [ho, hr, mkWord_fields]

/-- OP 6 and 7 are bits 011 and the bit kept (R95). -/
theorem op6to7_append_low_bit : ∀ op : BitVec 4, op.extractLsb' 1 3 = 0x3 →
    ((0x3 : BitVec 3) ++ op.extractLsb' 0 1 : BitVec (3 + 1)) = op := by decide

/-- The OPs that no other row of the table holds are bit 1 and the three bits kept (R95). -/
theorem op8toF_append_low_bits : ∀ op : BitVec 4, 5 < op.toNat → op.extractLsb' 1 3 ≠ 0x3 →
    ((0x1 : BitVec 1) ++ op.extractLsb' 0 3 : BitVec (1 + 3)) = op := by decide

/-- Every word is the word of the instruction it decodes to (R96). -/
theorem encode_decode (w : Word) : encode (decode w) = w := by
  simp only [decode]
  split_ifs with h0 h1 r1 h2 r2 h3 r3 h4 r4 h5 h6
  · exact mkWord_eq_of_fields h0.symm rfl
  · exact mkWord_eq_of_fields h1.symm r1.symm
  · exact mkWord_eq_of_fields h1.symm rfl
  · exact mkWord_eq_of_fields h2.symm r2.symm
  · exact mkWord_eq_of_fields h2.symm rfl
  · exact mkWord_eq_of_fields h3.symm r3.symm
  · exact mkWord_eq_of_fields h3.symm rfl
  · exact mkWord_eq_of_fields h4.symm r4.symm
  · exact mkWord_eq_of_fields h4.symm rfl
  · exact mkWord_eq_of_fields h5.symm rfl
  · exact mkWord_eq_of_fields (op6to7_append_low_bit _ h6) rfl
  · exact mkWord_eq_of_fields (op8toF_append_low_bits _ (by bv_omega) h6) rfl

/-- A reserved instruction only records `E_RSVD_CMD` with its word (R249). -/
theorem exec_of_isReserved {i : Instr} (h : isReserved i = true) (s : State) :
    exec i s = .next (consumeReserved (encode i) s) := by
  cases i with
  | nop | noteOn | noteOff | setMvol | key => cases h
  | reservedOp1 | reservedOp2 | reservedOp3 | reservedOp4 | reservedOp5 | reservedOp6to7 | reservedOp8toF => rfl

/-- Settles O5: a reserved instruction only records its event, and the word of the event is the word decoded. -/
theorem reservedWordIsConsumed : Obligations.ReservedWordIsConsumed := by
  unfold Obligations.ReservedWordIsConsumed
  refine ⟨fun i s h => exec_of_isReserved h s, fun w => (decodeFollowsTheOperationMap w).2.1, ?_⟩
  rintro w s k h hne rfl
  rw [drainLoop_of_pending k hne (exec_of_isReserved h s), encode_decode]
  rfl

/-! ### The command write -/

/-- The entry written reads as the word written (20_memory.md R65). -/
theorem cmdRead_memPut_same (s : State) (i : Nat) (w : Word) :
    cmdRead { s with cmdq := memPut s.cmdq i w } i = w := by
  simp [cmdRead]

/-- A write to one entry of CMDQ leaves every other entry unchanged (20_memory.md R65). -/
theorem cmdRead_memPut_other (s : State) {i j : Nat} (w : Word) (h : i ≠ j) :
    cmdRead { s with cmdq := memPut s.cmdq i w } j = cmdRead s j := by
  simp [cmdRead, memGet_memPut_other s.cmdq w h]

/-- Out of reset, with room in the inbox, a command write takes the first word presented (R240, R241). -/
theorem runAct_cWrite {s : State} {w : Word} {rest : List Word} (h : inReset s = false)
    (hroom : (s.cw + 1) % s.cfg.cmdDepth ≠ s.crS) (hw : s.cmdIn = w :: rest) :
    runAct .cWrite s = .next (cWrite w { s with cmdIn := rest }) := by
  have hfull : inboxFull s = false := beq_false_of_ne hroom
  rw [runAct_enabled (by simp [enabled, cmdReady, h, hw, hfull])]
  simp only [perform, hw]

/-- Settles O43: the write puts the word presented at `cw`, whatever it is, and no other entry is touched. -/
theorem commandWriteStoresTheWord : Obligations.CommandWriteStoresTheWord := by
  unfold Obligations.CommandWriteStoresTheWord
  intro s w rest hreset hroom hw
  exact ⟨_, runAct_cWrite hreset hroom hw, rfl, cmdRead_memPut_same s s.cw w,
    fun a ha => cmdRead_memPut_other s w ha.symm⟩

end Sys2Proof.Machine
end

section
/-! PROOFS. The statement of 60_exceptions.md: the note commands of an operand out of range (R262). -/

namespace Sys2Proof.Machine

/-- `NOTE_ON` of an operand of 13..255 only records `E_NOTE_RANGE` with its word (R262). -/
theorem exec_noteOn_of_out_of_range {n : Byte} (h : 13 ≤ n.toNat) (s : State) :
    exec (.noteOn n) s = .next (logEvent s (.noteRange (0x1000 ||| n.setWidth 16))) := by
  rw [exec, execNoteOn, noteOperand_eq_none h, encode_noteOn]

/-- Settles O6: an operand of 13 or more names no note, so either command only records its event. -/
theorem noteIndexOutOfRangeIsANoOp : Obligations.NoteIndexOutOfRangeIsANoOp := by
  unfold Obligations.NoteIndexOutOfRangeIsANoOp
  intro n s h
  exact ⟨exec_noteOn_of_out_of_range h s, exec_noteOff_of_out_of_range h s⟩

end Sys2Proof.Machine
end

section
/-! PROOFS. The statement of 70_reset_and_hazards.md: the machine is silent after reset (R291). -/

namespace Sys2Proof.Machine

/-! ### Idle voices -/

section
variable {vs : List Voice}

/-- With every voice Idle no voice is active (42_synth_mix.md R170). -/
theorem activeCount_of_idle (h : ∀ v ∈ vs, v.st = .idle) : activeCount vs = 0 :=
  List.countP_eq_zero.mpr fun v hv => by simp [h v hv]

/-- With every voice Idle no bit of `act_mask()` is set (45_control_port.md R246). -/
theorem actMask_of_idle (h : ∀ v ∈ vs, v.st = .idle) : actMask vs = 0 := by
  refine BitVec.eq_of_getLsbD_eq fun n hn => (Bool.eq_false_iff.mpr fun hbit => ?_).trans BitVec.getLsbD_zero.symm
  obtain ⟨v, hv, hne, -⟩ := (actMask_bit vs ⟨n, hn⟩).mp hbit
  exact hne (h v hv)

/-- With every voice Idle the loop leaves the voices and the accumulator as they are (R155, R170). -/
theorem renderVoices_of_idle (c : Cfg) (h : ∀ v ∈ vs, v.st = .idle) (acc : Int) :
    renderVoices c vs acc = .ok (vs, acc) := by
  induction vs with
  | nil => rfl
  | cons v vs ih =>
    obtain ⟨hv, hvs⟩ := List.forall_mem_cons.mp h
    simp only [renderVoices, if_pos hv, ih hvs]

end

/-! ### The silent sample step -/

/-- The synthesizer output of an accumulator of 0 is 0, whatever `NORM` and `MVOL` are (R177, R179, R180). -/
theorem synthOut_zero (norm : BitVec 25) (mvol : BitVec 7) : synthOut 0 norm mvol = 0 := by
  rw [synthOut, scaled, normalised_eq, zero_mul, fdiv_zero, zero_mul]
  rfl

/-- Silence combined with silence is 0, whatever the gain is (R222, R223). -/
theorem combine_zero (c : Cfg) : combine c 0 0 = 0 := by
  rw [combine, bgmScaled_eq, show (0 : Word).toInt = 0 from rfl, zero_mul, fdiv_zero]
  rfl

/-- The output stages of a synthesizer output of 0 with the ring empty emit the pair (0, 0) (R220, R224). -/
theorem output_of_silence (vs : List Voice) (norm : BitVec 25) {s : State} (h : s.rd = s.wrS) :
    output vs norm 0 s = { s with
      voices := vs, norm := norm, actNotes := actMask vs, emitted := s.emitted ++ [0],
      events := s.events ++ [.ringEmpty] } := by
  rw [output, pop_of_empty h, combine_zero]
  rfl

/-- With nothing to drain, every voice Idle and the ring empty, the sample step emits (0, 0), restores `NORM` and
`ACT_NOTES` and records `E_RING_EMPTY` (R220). -/
theorem aStep_of_silence {s : State} (hidle : ∀ v ∈ s.voices, v.st = .idle) (hinbox : inboxPending s = false)
    (hring : emptyA s = true) : aStep s = .next { s with
      norm := BitVec.ofNat 25 (2 ^ 24), actNotes := 0, emitted := s.emitted ++ [0],
      events := s.events ++ [.ringEmpty] } := by
  have hnorm : normUpdate s.cfg (activeCount s.voices) s.norm = .ok (BitVec.ofNat 25 (2 ^ 24)) :=
    if_pos (activeCount_of_idle hidle)
  have hdrain : drain s = .next s := drainLoop_of_empty _ (bne_eq_false_iff_eq.mp hinbox)
  rw [aStep_of_drain hdrain, render_of_ok (renderVoices_of_idle _ hidle 0) hnorm, synthOut_zero,
    output_of_silence _ _ ((emptyA_iff s).mp hring), actMask_of_idle hidle]

/-! ### Acts without a sample step -/

/-- No act but the sample step emits a pair (R226). -/
theorem runAct_emitted {a : Act} {s t : State} (ha : a ≠ .aStep) (h : runAct a s = .next t) :
    t.emitted = s.emitted := by
  rcases runAct_next h with rfl | h
  · rfl
  cases a with
  | aStep => exact absurd rfl ha
  | wPush =>
    obtain ⟨ring, wr, x, v, ev, ac, inp, rfl⟩ := perform_wPush_frame h
    rfl
  | wDup =>
    obtain ⟨ring, wr, ev, ac, hd⟩ := wDup_frame s
    cases h
    rw [hd]
  | cWrite =>
    obtain ⟨cmdq, cw, written, inp, rfl⟩ := perform_cWrite_frame h
    rfl
  | releaseReset d =>
    obtain ⟨ra, rw, rc, hd⟩ := setRstLine_frame d false s
    cases h
    rw [hd]
  | cRead | syncWr | syncRd | syncCw | syncCr | syncAct | presentCmd | presentSample | sinkReady | assertReset =>
    cases h
    rfl

/-- Acts that are no sample step and no reset leave the voices, `NORM`, `MVOL` and the pairs emitted as they are. -/
theorem runActs_keeps_audio {as : List Act} {s t : State} (has : ∀ a ∈ as, a ≠ .aStep ∧ a ≠ .assertReset)
    (h : runActs as s = .next t) :
    t.voices = s.voices ∧ t.norm = s.norm ∧ t.mvol = s.mvol ∧ t.emitted = s.emitted := by
  induction as generalizing s with
  | nil =>
    cases h
    exact ⟨rfl, rfl, rfl, rfl⟩
  | cons a as ih =>
    obtain ⟨⟨hstep, hreset⟩, has⟩ := List.forall_mem_cons.mp has
    cases hu : runAct a s with
    | next u =>
      rw [runActs, hu] at h
      obtain ⟨hvoices, hnorm, hmvol, -⟩ := (eachAgentWritesOnlyItsOwn a s u hu hreset).1 hstep
      rw [← hvoices, ← hnorm, ← hmvol, ← runAct_emitted hstep hu]
      exact ih has h
    | fault f => rw [runActs, hu] at h; cases h
    | refused r => rw [runActs, hu] at h; cases h

/-! ### After reset -/

/-- Every voice is Idle after reset (10_state.md R40). -/
theorem resetWith_idle (c : Cfg) : ∀ v ∈ (State.resetWith c).voices, v.st = .idle := by
  intro v hv
  rw [eq_reset_of_mem_resetWith hv]
  rfl

/-- Settles O37: the acts since reset leave the voices Idle and no pair emitted, and from Idle voices with nothing
visible the sample step is silent. -/
theorem firstPairAfterResetIsSilent : Obligations.FirstPairAfterResetIsSilent := by
  unfold Obligations.FirstPairAfterResetIsSilent
  refine ⟨fun c hwf => ⟨resetWith_idle c, rfl, rfl, rfl, resetWith_mvol_toNat (Cfg.facts hwf)⟩,
    fun s => aStep_of_silence, ?_⟩
  intro c as s hwf has hrun
  obtain ⟨hvoices, hnorm, hmvol, hemitted⟩ := runActs_keeps_audio has hrun
  have hidle : ∀ v ∈ s.voices, v.st = .idle := hvoices ▸ resetWith_idle c
  refine ⟨hidle, congrArg BitVec.toNat hnorm, ?_, hemitted, fun hinbox hring => ?_⟩
  · rw [hmvol, resetWith_mvol_toNat (Cfg.facts hwf)]
  · exact ⟨_, aStep_of_silence hidle hinbox hring, congrArg (· ++ [0]) hemitted⟩

end Sys2Proof.Machine
end

section
/-! PROOFS. The statements of 30_encoding.md: decoding and encoding agree (R90 to R96), and the decode vectors of
95_test_vectors.md 2.1. -/

namespace Sys2Proof.Machine

/-- The OPs 6 and 7: none of the OPs of an earlier row, and the bit kept reads back (R95). -/
theorem op6to7_fields : ∀ b : BitVec 1,
    let op : BitVec 4 := ((0x3 : BitVec 3) ++ b : BitVec (3 + 1))
    op ≠ 0 ∧ op ≠ 1 ∧ op ≠ 2 ∧ op ≠ 3 ∧ op ≠ 4 ∧ op ≠ 5 ∧ op.extractLsb' 1 3 = 0x3 ∧ op.extractLsb' 0 1 = b := by
  decide

/-- The OPs 8 to 15: none of the OPs of an earlier row, and the three bits kept read back (R95). -/
theorem op8toF_fields : ∀ b : BitVec 3,
    let op : BitVec 4 := ((0x1 : BitVec 1) ++ b : BitVec (1 + 3))
    op ≠ 0 ∧ op ≠ 1 ∧ op ≠ 2 ∧ op ≠ 3 ∧ op ≠ 4 ∧ op ≠ 5 ∧ op.extractLsb' 1 3 ≠ 0x3 ∧ op.extractLsb' 0 3 = b := by
  decide

/-- A well-formed instruction is what its word decodes to: the word holds its OP, RSV and ARG, which choose its row
(R92, R94). -/
theorem decode_encode {i : Instr} (h : i.wf = true) : decode (encode i) = i := by
  cases i with
  | nop rsv arg => simp [encode, decode]
  | noteOn n | noteOff n | setMvol n | key n => simp [encode, decode]
  | reservedOp1 rsv arg | reservedOp2 rsv arg | reservedOp3 rsv arg | reservedOp4 rsv arg =>
    have hrsv : ¬rsv = 0#4 := bne_iff_ne.mp h
    simp [encode, decode, hrsv]
  | reservedOp5 rsv arg => simp [encode, decode]
  | reservedOp6to7 b rsv arg =>
    obtain ⟨h0, h1, h2, h3, h4, h5, hrow, hb⟩ := op6to7_fields b
    simp only [encode, decode, opField_mkWord, rsvField_mkWord, argField_mkWord]
    rw [if_neg h0, if_neg h1, if_neg h2, if_neg h3, if_neg h4, if_neg h5, if_pos hrow, hb]
  | reservedOp8toF b rsv arg =>
    obtain ⟨h0, h1, h2, h3, h4, h5, hrow, hb⟩ := op8toF_fields b
    simp only [encode, decode, opField_mkWord, rsvField_mkWord, argField_mkWord]
    rw [if_neg h0, if_neg h1, if_neg h2, if_neg h3, if_neg h4, if_neg h5, if_neg hrow, hb]

/-- Where RSV chooses between a named command and a reserved row, the choice is well formed (R94). -/
theorem wf_rsv_choice {rsv : BitVec 4} {named reserved : Instr} (hn : named.wf = true)
    (hr : reserved.wf = (rsv != 0)) : (if rsv = 0 then named else reserved).wf = true := by
  split_ifs with h
  · exact hn
  · exact hr.trans (bne_iff_ne.mpr h)

/-- Every word decodes to a well-formed instruction (R94, R96). -/
theorem decode_wf (w : Word) : (decode w).wf = true := by
  unfold decode
  dsimp only
  split
  · rfl
  split
  · exact wf_rsv_choice rfl rfl
  split
  · exact wf_rsv_choice rfl rfl
  split
  · exact wf_rsv_choice rfl rfl
  split
  · exact wf_rsv_choice rfl rfl
  split
  · rfl
  split <;> rfl

/-- Settles O1: the fields of a word choose its row and read back, and they hold every bit of it. -/
theorem decodeAndEncodeAgree : Obligations.DecodeAndEncodeAgree := by
  unfold Obligations.DecodeAndEncodeAgree
  exact ⟨fun _ => decode_encode, fun w => ⟨encode_decode w, decode_wf w⟩⟩

/-- Settles O3: each word is the word of a well-formed instruction, which it decodes to. -/
theorem decodedWordsOfTheManual : Obligations.DecodedWordsOfTheManual := by
  unfold Obligations.DecodedWordsOfTheManual
  have vector (i : Instr) (h : i.wf = true) : decode (encode i) = i := decode_encode h
  exact ⟨vector (.nop 0 0) rfl, vector (.nop 0xA 0xBC) rfl, vector (.noteOn 0) rfl, vector (.noteOn 12) rfl,
    vector (.noteOn 13) rfl, vector (.noteOn 255) rfl, vector (.reservedOp1 1 0) rfl, vector (.noteOff 9) rfl,
    vector (.setMvol 50) rfl, vector (.setMvol 101) rfl, vector (.key 0x9E) rfl, vector (.reservedOp4 0xF 0x1E) rfl,
    vector (.reservedOp5 0 0) rfl, vector (.reservedOp8toF 7 0xF 0xFF) rfl⟩

end Sys2Proof.Machine
end

section
/-! PROOFS. The statements about a command and a step: the frame of every command (60_exceptions.md R260, R272), the
next turn (00_scope.md R12) and the decoded command of a sample step (45_control_port.md R242). -/

namespace Sys2Proof.Machine

/-! ### The frame of a command -/

/-- A press changes one voice or records one event (41_voice_pool_adsr.md R140, R143). -/
theorem noteOnIndex_cases (cmd : Word) (n : Note) (s : State) :
    (∃ j f, noteOnIndex cmd n s = { s with voices := s.voices.modify j f }) ∨
      ∃ e, noteOnIndex cmd n s = logEvent s e := by
  unfold noteOnIndex
  split
  · exact .inl ⟨_, _, rfl⟩
  · split
    · exact .inl ⟨_, _, rfl⟩
    · exact .inr ⟨_, rfl⟩

/-- A release changes one voice or records one event (41_voice_pool_adsr.md R145). -/
theorem noteOffIndex_cases (cmd : Word) (n : Note) (s : State) :
    (∃ j f, noteOffIndex cmd n s = { s with voices := s.voices.modify j f }) ∨
      ∃ e, noteOffIndex cmd n s = logEvent s e := by
  unfold noteOffIndex
  split
  · exact .inl ⟨_, _, rfl⟩
  · exact .inr ⟨_, rfl⟩

/-- The commands that may change a voice (10_state.md R39). -/
def isVoiceCommand (i : Instr) : Prop := (∃ n, i = .noteOn n) ∨ (∃ n, i = .noteOff n) ∨ (∃ c, i = .key c)

/-- What a command can do: change nothing, record one event, change one voice, or set `MVOL`. -/
inductive CommandEffect (i : Instr) (s : State) : State → Prop
  | none : CommandEffect i s s
  | event (e : Event) : CommandEffect i s (logEvent s e)
  | voice (hi : isVoiceCommand i) (j : Nat) (f : Voice → Voice) :
      CommandEffect i s { s with voices := s.voices.modify j f }
  | volume (hi : ∃ v, i = .setMvol v) (m : BitVec 7) : CommandEffect i s { s with mvol := m }

/-- What may change one voice or record one event has an effect that a voice command may have. -/
theorem commandEffect_of_cases {i : Instr} {s t : State} (hi : isVoiceCommand i)
    (h : (∃ j f, t = { s with voices := s.voices.modify j f }) ∨ ∃ e, t = logEvent s e) : CommandEffect i s t := by
  rcases h with ⟨j, f, rfl⟩ | ⟨e, rfl⟩
  · exact .voice hi j f
  · exact .event e

/-- Every command completes with one of the four effects (60_exceptions.md R260). -/
theorem exec_effect (i : Instr) (s : State) : ∃ t, exec i s = .next t ∧ CommandEffect i s t := by
  cases i with
  | nop => exact ⟨s, rfl, .none⟩
  | noteOn n =>
    simp only [exec, execNoteOn]
    split
    · exact ⟨_, rfl, .event _⟩
    · exact ⟨_, rfl, commandEffect_of_cases (.inl ⟨n, rfl⟩) (noteOnIndex_cases _ _ s)⟩
  | noteOff n =>
    simp only [exec, execNoteOff]
    split
    · exact ⟨_, rfl, .event _⟩
    · exact ⟨_, rfl, commandEffect_of_cases (.inr (.inl ⟨n, rfl⟩)) (noteOffIndex_cases _ _ s)⟩
  | key c =>
    simp only [exec, execKey]
    split
    · exact ⟨_, rfl, .event _⟩
    · split
      · exact ⟨_, rfl, commandEffect_of_cases (.inr (.inr ⟨c, rfl⟩)) (noteOffIndex_cases _ _ s)⟩
      · exact ⟨_, rfl, commandEffect_of_cases (.inr (.inr ⟨c, rfl⟩)) (noteOnIndex_cases _ _ s)⟩
  | setMvol v =>
    simp only [exec, execSetMvol]
    split
    · exact ⟨_, rfl, .event _⟩
    · exact ⟨_, rfl, .volume ⟨v, rfl⟩ _⟩
  | reservedOp1 | reservedOp2 | reservedOp3 | reservedOp4 | reservedOp5 | reservedOp6to7 | reservedOp8toF =>
    exact ⟨_, rfl, .event _⟩

/-- Settles O15: each of the four effects stays in the frame, and only one of them touches voices, one `MVOL`. -/
theorem everyCommandCompletesInItsFrame : Obligations.EveryCommandCompletesInItsFrame := by
  unfold Obligations.EveryCommandCompletesInItsFrame
  intro i s
  obtain ⟨t, hexec, heffect⟩ := exec_effect i s
  refine ⟨t, hexec, ?_⟩
  cases heffect with
  | none =>
    exact ⟨rfl, rfl, ⟨0, fun _ _ => rfl⟩, fun h => absurd rfl h, fun h => absurd rfl h, .inl rfl, fun _ => rfl,
      fun _ => rfl⟩
  | event e =>
    exact ⟨rfl, rfl, ⟨0, fun _ _ => rfl⟩, fun h => absurd rfl h, fun h => absurd rfl h, .inr ⟨e, rfl⟩, fun _ => rfl,
      fun _ => rfl⟩
  | voice hi j f =>
    refine ⟨rfl, List.length_modify .., ⟨j, fun k hk => ?_⟩, fun _ => hi, fun h => absurd rfl h, .inl rfl,
      fun _ => rfl, fun _ => rfl⟩
    exact List.getElem?_modify_ne f s.voices hk.symm
  | volume hi m =>
    exact ⟨rfl, rfl, ⟨0, fun _ _ => rfl⟩, fun h => absurd rfl h, fun _ => hi, .inl rfl, fun _ => rfl, fun _ => rfl⟩

/-! ### The step -/

/-- A turn that the schedule fixes is taken off it and run (00_scope.md R12). -/
theorem step_of_sched_cons {s : State} {t : Turn} {rest : List Turn} (h : s.sched = t :: rest) :
    step s = runTurn t { s with sched := rest } := by
  simp only [step, nextTurn, takeTurn, h]

/-- Where the schedule fixes no turn, the free act is run (00_scope.md R12). -/
theorem step_of_sched_nil {s : State} (h : s.sched = []) :
    step s = runAct (Config.freeAct s.choice) { s with choice := s.choice + 1 } := by
  simp only [step, nextTurn, takeTurn, h, runTurn]

/-- Settles O17: the two cases of the schedule. -/
theorem stepTakesTheNextTurn : Obligations.StepTakesTheNextTurn := by
  unfold Obligations.StepTakesTheNextTurn
  exact fun s => ⟨fun _ _ => step_of_sched_cons, step_of_sched_nil⟩

/-- Out of reset, with the sink ready, `A STEP` is performed (44_output_and_step.md R221). -/
theorem runAct_aStep {s : State} (h : inReset s = false) (ho : s.outReady = true) : runAct .aStep s = aStep s :=
  runAct_enabled (by simp [enabled, h, ho])

/-- Settles O18: the drain has a round, whose command is the one at `cr`, and every command completes. -/
theorem sampleStepRunsTheDecodedCommand : Obligations.SampleStepRunsTheDecodedCommand := by
  unfold Obligations.SampleStepRunsTheDecodedCommand
  rintro s rest i hsched hreset hready hne hdepth rfl
  obtain ⟨t, hexec, -⟩ := exec_effect (decode (cmdRead s s.cr)) { s with sched := rest }
  obtain ⟨k, hk⟩ := Nat.exists_eq_add_one_of_ne_zero (show s.cfg.cmdDepth ≠ 0 by omega)
  have hround : drain { s with sched := rest } =
      drainLoop (s.cfg.cmdDepth - 1) (advanceCr (cmdRead s s.cr) t) := by
    have hloop : drain { s with sched := rest } = drainLoop (k + 1) { s with sched := rest } :=
      congrArg (drainLoop · { s with sched := rest }) hk
    rw [hloop, hk, Nat.add_sub_cancel]
    exact drainLoop_of_pending k (s := { s with sched := rest }) hne hexec
  have hrun : step s = aStep { s with sched := rest } := (step_of_sched_cons hsched).trans (runAct_aStep hreset hready)
  rw [hrun, aStep, hround, hexec]
  rfl

end Sys2Proof.Machine
end

section
/-! PROOFS. The statements of 41_voice_pool_adsr.md about every envelope step: the transitions (R148) and the level
(R158). -/

namespace Sys2Proof.Machine

section
variable {c : Cfg} {v v' : Voice}

/-! ### The transitions -/

/-- An attack step that completes stays in Attack, or goes to Decay at `k = A` (R150). -/
theorem attackStep_st (h : attackStep c v = .ok v') :
    v'.st = v.st ∨ (v'.st = .decay ∧ v.tmr.toNat + 1 = c.attack) := by
  simp only [attackStep] at h
  split at h
  · split at h <;> cases h
    · exact .inr ⟨rfl, ‹_›⟩
    · exact .inl rfl
  · cases h
  · cases h

/-- A decay step that completes stays in Decay, or goes to Sustain at `k = D` (R151). -/
theorem decayStep_st (h : decayStep c v = .ok v') :
    v'.st = v.st ∨ (v'.st = .sustain ∧ v.tmr.toNat + 1 = c.decay) := by
  simp only [decayStep] at h
  split at h
  · split at h <;> cases h
    · exact .inr ⟨rfl, ‹_›⟩
    · exact .inl rfl
  · cases h
  · cases h

/-- A release step that completes stays in Release, or goes to Idle at `k = R` (R154). -/
theorem releaseStep_st (h : releaseStep c v = .ok v') :
    v'.st = v.st ∨ (v'.st = .idle ∧ v.tmr.toNat + 1 = c.release) := by
  simp only [releaseStep] at h
  split at h
  · split at h <;> cases h
    · exact .inr ⟨rfl, ‹_›⟩
    · exact .inl rfl
  · cases h
  · cases h

/-- A sustain step with the key held stays in Sustain, whenever it completes (R152). -/
theorem sustainStep_held_st (hheld : v.held = true) (h : sustainStep c v = .ok v') : v'.st = v.st := by
  simp only [sustainStep, hheld, if_true] at h
  split at h <;> cases h
  rfl

/-- Settles O23: the transitions of the step of each state; that of Sustain with the key released is a Release step
from the timer 0. -/
theorem envelopeMakesNoOtherTransition : Obligations.EnvelopeMakesNoOtherTransition := by
  unfold Obligations.EnvelopeMakesNoOtherTransition
  intro c v v' h
  cases hst : v.st with
  | idle =>
    simp only [envStep, hst] at h
    cases h
    exact .inl hst
  | attack =>
    rw [envStep_of_attack hst] at h
    exact (attackStep_st h).imp (·.trans hst) fun hnext => .inl ⟨rfl, hnext⟩
  | decay =>
    rw [envStep_of_decay hst] at h
    exact (decayStep_st h).imp (·.trans hst) fun hnext => .inr (.inl ⟨rfl, hnext⟩)
  | sustain =>
    rw [envStep_of_sustain hst] at h
    cases hheld : v.held with
    | true => exact .inl ((sustainStep_held_st hheld h).trans hst)
    | false =>
      rw [sustainStep_released c hheld] at h
      rcases releaseStep_st h with hrel | ⟨hidle, hR⟩
      · exact .inr (.inr (.inr (.inl ⟨rfl, hrel, rfl⟩)))
      · exact .inr (.inr (.inr (.inr (.inl ⟨rfl, hidle, rfl, hR.symm⟩))))
  | release =>
    rw [envStep_of_release hst] at h
    exact (releaseStep_st h).imp (·.trans hst) fun hnext => .inr (.inr (.inr (.inr ⟨rfl, hnext⟩)))

/-! ### The level -/

/-- An attack step of a sound voice does not lower the level (R158). -/
theorem attackStep_lev_le (hc : c.Facts) (hst : v.st = .attack) (hok : VoiceOk c v) (h : attackStep c v = .ok v') :
    v.lev.toNat ≤ v'.lev.toNat := by
  obtain ⟨-, hlev, -, htmr, -, -⟩ := hok
  rw [hst] at hlev htmr
  obtain ⟨lev, tmr, hlev', -, he⟩ := attackStep_ok hc htmr
  have hmono := attackLevel_mono hc (Nat.le_add_right v.tmr.toNat 1)
  obtain rfl : _ = v' := Except.ok.inj (he.symm.trans h)
  have hle : v.lev.toNat ≤ lev.toNat := Int.ofNat_le.1 (hlev.trans_le (hmono.trans_eq hlev'.symm))
  split_ifs <;> exact hle

/-- A decay step of a sound voice does not raise the level (R158). -/
theorem decayStep_le_lev (hc : c.Facts) (hst : v.st = .decay) (hok : VoiceOk c v) (h : decayStep c v = .ok v') :
    v'.lev.toNat ≤ v.lev.toNat := by
  obtain ⟨-, hlev, -, htmr, -, -⟩ := hok
  rw [hst] at hlev htmr
  obtain ⟨lev, tmr, hlev', -, he⟩ := decayStep_ok hc htmr
  have hmono := decayLevel_anti hc (Nat.le_add_right v.tmr.toNat 1)
  obtain rfl : _ = v' := Except.ok.inj (he.symm.trans h)
  have hle : lev.toNat ≤ v.lev.toNat := Int.ofNat_le.1 (hlev'.trans_le (hmono.trans_eq hlev.symm))
  split_ifs <;> exact hle

/-- A release step does not pass the level that its timer stands for (R158). -/
theorem releaseStep_le_level (hc : c.Facts) (htmr : v.tmr.toNat < c.release) (h : releaseStep c v = .ok v') :
    (v'.lev.toNat : Int) ≤ releaseLevel c v.tmr.toNat := by
  obtain ⟨lev, tmr, hlev', -, he⟩ := releaseStep_ok hc htmr
  have hmono := releaseLevel_anti hc (Nat.le_add_right v.tmr.toNat 1)
  obtain rfl : _ = v' := Except.ok.inj (he.symm.trans h)
  split_ifs
  · exact (releaseLevel_bounds hc htmr.le).1
  · exact hlev'.trans_le hmono

/-- A sustain step of a sound voice does not raise the level: it holds it, or takes the first release step (R158). -/
theorem sustainStep_le_lev (hc : c.Facts) (hst : v.st = .sustain) (hok : VoiceOk c v)
    (h : sustainStep c v = .ok v') : v'.lev.toNat ≤ v.lev.toNat := by
  obtain ⟨-, hlev, -⟩ := hok
  rw [hst] at hlev
  cases hheld : v.held with
  | true =>
    obtain ⟨lev, hsus, he⟩ := sustainStep_held hc hheld
    obtain rfl : _ = v' := Except.ok.inj (he.symm.trans h)
    exact (hsus.trans (Int.ofNat_inj.1 hlev).symm).le
  | false =>
    rw [sustainStep_released c hheld] at h
    have hle := releaseStep_le_level hc (v := { v with st := .release, tmr := 0 }) hc.release_pos h
    exact Int.ofNat_le.1 ((hle.trans_eq (releaseLevel_zero c)).trans_eq hlev.symm)

/-- An envelope step of a sound voice that is not in Attack does not raise the level (R158). -/
theorem envStep_le_lev (hc : c.Facts) (hst : v.st ≠ .attack) (hok : VoiceOk c v) (h : envStep c v = .ok v') :
    v'.lev.toNat ≤ v.lev.toNat := by
  cases hv : v.st with
  | idle =>
    simp only [envStep, hv] at h
    cases h
    exact le_rfl
  | attack => exact absurd hv hst
  | decay => exact decayStep_le_lev hc hv hok (envStep_of_decay hv ▸ h)
  | sustain => exact sustainStep_le_lev hc hv hok (envStep_of_sustain hv ▸ h)
  | release =>
    obtain ⟨-, hlev, -, htmr, -, -⟩ := hok
    rw [hv] at hlev htmr
    exact Int.ofNat_le.1 ((releaseStep_le_level hc htmr (envStep_of_release hv ▸ h)).trans_eq hlev.symm)

end

/-- Settles O24: the step keeps the voice sound, which bounds the level, and the ramps are monotone. -/
theorem envelopeLevelStaysInRange : Obligations.EnvelopeLevelStaysInRange := by
  unfold Obligations.EnvelopeLevelStaysInRange
  intro c v v' hwf hok h
  have hc := Cfg.facts hwf
  obtain ⟨w, he, hw, -⟩ := envStep_keeps_ok hc hok
  obtain rfl : w = v' := Except.ok.inj (he.symm.trans h)
  obtain ⟨-, -, hrange, -⟩ := hw
  exact ⟨hrange, fun hst => attackStep_lev_le hc hst hok (envStep_of_attack hst ▸ h),
    fun hst => envStep_le_lev hc hst hok h⟩

end Sys2Proof.Machine
end

section
/-! PROOFS. The statements of 43_stream_bridge.md about the second copy (R197) and the order of the ring (R201), and the
holds of 60_exceptions.md R271. -/

namespace Sys2Proof.Machine

/-! ### The second copy and the holds -/

/-- Out of reset, with `dup_v` 1, `W DUP` is performed (R197). -/
theorem runAct_wDup {s : State} (h : inReset s = false) (hd : s.dupV = true) : runAct .wDup s = .next (wDup s) :=
  runAct_enabled (by simp [enabled, h, hd])

/-- Settles O39: the second copy is the element write of `dup_x`, which is dropped or stored at `wr`; `dup_v` is cleared
in both cases. -/
theorem dupWritesTheSecondCopy : Obligations.DupWritesTheSecondCopy := by
  unfold Obligations.DupWritesTheSecondCopy
  intro s hreset hdup
  rw [runAct_wDup hreset hdup, wDup]
  refine ⟨fun hfull => ?_, fun hroom => ?_⟩
  · rw [elemWrite_of_full s.dupX hfull, logEvent]
  · rw [elemWrite_of_not_full s.dupX hroom]
    exact ⟨_, rfl, rfl, ringRead_memPut_same s s.wr s.dupX, fun a ha => ringRead_memPut_other s s.dupX ha.symm⟩

theorem inboxFull_iff (s : State) : inboxFull s = true ↔ (s.cw + 1) % s.cfg.cmdDepth = s.crS := by simp [inboxFull]

/-- Settles O46: in each of the three cases the act is not enabled. -/
theorem heldStepsChangeNothing : Obligations.HeldStepsChangeNothing := by
  unfold Obligations.HeldStepsChangeNothing
  intro s
  refine ⟨fun hfull => ?_, fun hdup => ?_, fun hsink => ?_⟩
  · have hready : cmdReady s = false := by simp [cmdReady, (inboxFull_iff s).2 hfull]
    exact ⟨hready, runAct_held (by simp [enabled, hready])⟩
  · have hready : inReady s = false := by simp [inReady, hdup]
    exact ⟨hready, runAct_held (by simp [enabled, hready])⟩
  · exact runAct_held (by simp [enabled, hsink])

/-! ### The order of the ring -/

section
variable {cap wr rd wrS rdS : Nat} {m : Memory} {written taken : List Word}

theorem FifoOk.taken_prefix (h : FifoOk cap wr rd wrS rdS m written taken) : taken <+: written := by
  obtain ⟨_, _, -, -, -, -, -, -, -, -, hprefix, -⟩ := h
  exact hprefix

/-- Fewer than `cap` values are written and not yet taken (20_memory.md R71). -/
theorem FifoOk.written_lt (h : FifoOk cap wr rd wrS rdS m written taken) :
    written.length < taken.length + cap := by
  obtain ⟨_, _, -, -, -, -, hread, -, -, hroom, -⟩ := h
  omega

/-- Where the cursors meet, everything written has been taken. -/
theorem FifoOk.taken_eq_written (h : FifoOk cap wr rd wrS rdS m written taken) (he : rd = wr) : taken = written := by
  have hlt := h.written_lt
  have hprefix := h.taken_prefix
  obtain ⟨_, _, hwr, hrd, -⟩ := h
  refine hprefix.eq_of_length (eq_of_mod_eq (cap := cap) ?_ hprefix.length_le hlt)
  rw [← hrd, he, hwr]

/-- An entry written and not yet taken holds the value written for it (20_memory.md R70). -/
theorem FifoOk.entry (h : FifoOk cap wr rd wrS rdS m written taken) {k : Nat} (hk : taken.length ≤ k)
    (hk' : k < written.length) : memGet m (k % cap) = written[k]? := by
  obtain ⟨_, _, -, -, -, -, -, -, -, -, -, hentry⟩ := h
  exact hentry k hk hk'

end

/-- RING holds `xs`, oldest first, with the read copies current, after the values `past` have gone through it: the
counting invariant of 20_memory.md R71 for these values in the place of the histories. -/
def RingHolds (s : State) (past xs : List Word) : Prop :=
  FifoOk s.cfg.ringCap s.wr s.rd s.wr s.rdS s.ring (past ++ xs) past ∧ s.rdS = past.length % s.cfg.ringCap

/-- A ring that is empty as W sees it holds nothing; the cursor stands where `wr` values have gone through. -/
theorem ringHolds_nil {s : State} (hwr : s.wr < s.cfg.ringCap) (hrd : s.rd = s.wr) (hrdS : s.rdS = s.wr) :
    RingHolds s (List.replicate s.wr 0) [] := by
  have hmod : s.wr = s.wr % s.cfg.ringCap := (Nat.mod_eq_of_lt hwr).symm
  refine ⟨⟨s.wr, s.wr, ?_⟩, ?_⟩
  · simp only [List.append_nil, List.length_replicate, hrd, hrdS]
    exact ⟨hmod, hmod, hmod, hmod, le_rfl, le_rfl, le_rfl, by omega, List.prefix_rfl, by omega⟩
  · rw [List.length_replicate, hrdS, ← hmod]

/-- W sees the ring full exactly where it holds `C - 1` values (R194). -/
theorem RingHolds.full_iff {s : State} {past xs : List Word} (h : RingHolds s past xs)
    (hlen : xs.length < s.cfg.ringCap) : (s.wr + 1) % s.cfg.ringCap = s.rdS ↔ xs.length + 1 = s.cfg.ringCap := by
  obtain ⟨⟨_, _, hwr, -⟩, hrdS⟩ := h
  rw [hwr, hrdS, Nat.mod_add_mod, List.length_append, Nat.add_assoc]
  refine ⟨fun he => ?_, fun he => ?_⟩
  · by_contra hne
    have := eq_of_mod_eq he.symm (Nat.le_add_right _ _) (by omega)
    omega
  · rw [he, Nat.add_mod_right]

/-- An element write that finds room puts its value behind those that the ring holds (R195). -/
theorem RingHolds.write {s : State} {past xs : List Word} (h : RingHolds s past xs)
    (hlen : xs.length + 1 < s.cfg.ringCap) (x : Word) :
    elemWrite x s = { s with
      ring := memPut s.ring s.wr x, wr := (s.wr + 1) % s.cfg.ringCap, accepted := s.accepted ++ [x] } ∧
    RingHolds (elemWrite x s) past (xs ++ [x]) := by
  have hroom : (s.wr + 1) % s.cfg.ringCap ≠ s.rdS := mt (h.full_iff (by omega)).1 (by omega)
  have he := elemWrite_of_not_full x hroom
  refine ⟨he, ?_⟩
  rw [he, RingHolds, ← List.append_assoc]
  exact ⟨(h.1.write hroom x).syncWrite, h.2⟩

/-- Elements written one after another: the ring takes as many as it has room for, and drops the rest (R195, R201). -/
theorem RingHolds.foldl_elemWrite (xs : List Word) {s : State} {past ys : List Word} (h : RingHolds s past ys)
    (hlen : ys.length < s.cfg.ringCap) :
    let u := xs.foldl (fun v x => elemWrite x v) s
    u.cfg = s.cfg ∧ u.popped = s.popped ∧
    u.accepted = s.accepted ++ xs.take (s.cfg.ringCap - 1 - ys.length) ∧
    RingHolds u past (ys ++ xs.take (s.cfg.ringCap - 1 - ys.length)) := by
  induction xs generalizing s ys with
  | nil => simpa using h
  | cons x xs ih =>
    rw [List.foldl_cons]
    rcases Nat.lt_or_ge (ys.length + 1) s.cfg.ringCap with hroom | hfull
    · obtain ⟨he, hholds⟩ := h.write hroom x
      have hcfg : (elemWrite x s).cfg = s.cfg := by rw [he]
      obtain ⟨hcfg', hpopped, haccepted, hring⟩ := ih hholds (by rw [hcfg, List.length_append]; exact hroom)
      have hone : s.cfg.ringCap - 1 - ys.length = (s.cfg.ringCap - 1 - (ys.length + 1)) + 1 := by omega
      rw [hcfg, List.length_append, List.length_singleton] at haccepted hring
      rw [hone, List.take_succ_cons, List.append_cons s.accepted, List.append_cons ys]
      exact ⟨hcfg'.trans hcfg, hpopped.trans (by rw [he]), haccepted.trans (by rw [he]), hring⟩
    · have hlast : ys.length + 1 = s.cfg.ringCap := by omega
      have he := elemWrite_of_full x ((h.full_iff hlen).2 hlast)
      have hnone : s.cfg.ringCap - 1 - ys.length = 0 := by omega
      have hrest := ih (s := logEvent s (.ringFull x)) h hlen
      rw [logEvent_cfg, hnone, List.take_zero] at hrest
      rw [he, hnone, List.take_zero]
      exact hrest

/-- With the copy of `wr` current, pops return what the ring holds, oldest first (R198, R201). -/
theorem iterate_pop (xs : List Word) {s : State} {past : List Word}
    (h : FifoOk s.cfg.ringCap s.wr s.rd s.wr s.rdS s.ring (past ++ xs) past) (hS : s.wrS = s.wr) :
    ((fun v => (pop v).2)^[xs.length] s).popped = s.popped ++ xs := by
  induction xs generalizing s past with
  | nil => exact (List.append_nil _).symm
  | cons x xs ih =>
    have hne : s.rd ≠ s.wr := fun he => by simpa using h.taken_eq_written he
    obtain ⟨y, hy, hold, hfifo⟩ := h.take hne
    obtain rfl : x = y := by simpa using hold
    have hread : ringRead s s.rd = x := by rw [ringRead, hy, Option.getD_some]
    have hpop : (pop s).2 = { s with rd := (s.rd + 1) % s.cfg.ringCap, popped := s.popped ++ [x] } := by
      rw [pop_of_not_empty (hS ▸ hne), hread]
    rw [List.append_cons past x xs] at hfifo
    rw [List.length_cons, Function.iterate_succ_apply, hpop, List.append_cons s.popped x xs]
    exact ih (s := { s with rd := (s.rd + 1) % s.cfg.ringCap, popped := s.popped ++ [x] }) hfifo hS

/-- Settles O42: the empty ring holds the values it has room for after the writes, and the pops return what it holds. -/
theorem ringReturnsWhatItAcceptedInOrder : Obligations.RingReturnsWhatItAcceptedInOrder := by
  unfold Obligations.RingReturnsWhatItAcceptedInOrder
  intro s xs hwf hwr hrd hrdS u
  obtain ⟨hcfg, hpopped, haccepted, hholds⟩ :=
    (ringHolds_nil hwr hrd hrdS).foldl_elemWrite xs (by simpa using hwr.pos)
  rw [List.length_nil, Nat.sub_zero] at haccepted hholds
  rw [List.nil_append] at hholds
  refine ⟨haccepted, fun k hk hk' => ?_, fun hfit => ?_⟩
  · have hentry := hholds.1.entry (k := s.wr + k) (by simp) (by simp; omega)
    rw [hcfg] at hentry
    rw [hentry, List.getElem?_append_right (by simp), List.length_replicate, Nat.add_sub_cancel_left,
      List.getElem?_take_of_lt hk']
  · rw [List.take_of_length_le hfit] at hholds
    have hpops := iterate_pop (s := syncWr u) xs hholds.1 rfl
    rw [hpops, syncWr_popped, hpopped]

end Sys2Proof.Machine
end

section
/-! PROOFS. The statements of 70_reset_and_hazards.md: no agent steps during reset (R290), what a reset leaves (R290,
10_state.md R40), and the refused runs (R292, R297; 00_scope.md R8). -/

namespace Sys2Proof.Machine

/-- During reset no step of an agent is enabled (R290). -/
theorem enabled_of_inReset {a : Act} {s : State} (h : inReset s = true) (ha : isAgentAct a = true) :
    enabled a s = false := by
  cases a with
  | aStep | wPush | wDup | cWrite | cRead | syncWr | syncRd | syncCw | syncCr | syncAct =>
    simp [enabled, inReady, cmdReady, h]
  | presentCmd | presentSample | sinkReady | assertReset | releaseReset => cases ha

/-- Settles O59: no agent is enabled, and each of the three signals is gated by the reset. -/
theorem noAgentStepsDuringReset : Obligations.NoAgentStepsDuringReset := by
  unfold Obligations.NoAgentStepsDuringReset
  intro s a h ha
  exact ⟨runAct_held (enabled_of_inReset h ha), by simp [outValid, h], by simp [inReady, h], by simp [cmdReady, h]⟩

/-- The reset inputs are released independently of each other. -/
theorem releaseReset_rightCommutative : RightCommutative fun s d => setRstLine d false s :=
  ⟨fun s d e => by cases d <;> cases e <;> rfl⟩

/-- Settles O58: the order of release does not matter, and in one order the state is that of R40 by definition. -/
theorem resetRestartsTheBlock : Obligations.ResetRestartsTheBlock := by
  unfold Obligations.ResetRestartsTheBlock
  intro s d1 d2 d3 hperm
  have := releaseReset_rightCommutative
  exact congrArg Host.Outcome.next (hperm.foldl_eq (f := fun s d => setRstLine d false s) (assertReset s))

/-- With the reset inputs of the other domains asserted, each of these inputs is (R292). -/
theorem rstLine_of_othersInReset {s : State} {d e : Domain} (h : othersInReset d s = true) (hne : e ≠ d) :
    rstLine s e = true := by
  cases d with
  | audio =>
    obtain ⟨hW, hC⟩ := Bool.and_eq_true_iff.mp h
    cases e with
    | audio => exact absurd rfl hne
    | producer => exact hW
    | control => exact hC
  | producer =>
    obtain ⟨hA, hC⟩ := Bool.and_eq_true_iff.mp h
    cases e with
    | audio => exact hA
    | producer => exact absurd rfl hne
    | control => exact hC
  | control =>
    obtain ⟨hA, hW⟩ := Bool.and_eq_true_iff.mp h
    cases e with
    | audio => exact hA
    | producer => exact hW
    | control => exact absurd rfl hne

/-- With all three reset inputs asserted, each of them is (R290). -/
theorem rstLine_of_all {s : State} (h : (s.rstA && s.rstW && s.rstC) = true) (d : Domain) : rstLine s d = true := by
  obtain ⟨hAW, hC⟩ := Bool.and_eq_true_iff.mp h
  obtain ⟨hA, hW⟩ := Bool.and_eq_true_iff.mp hAW
  cases d with
  | audio => exact hA
  | producer => exact hW
  | control => exact hC

/-- With one reset input released, the configuration cannot be changed (R297). -/
theorem changeConfig_of_not_all {s : State} (c : Cfg) (h : (s.rstA && s.rstW && s.rstC) = false) :
    changeConfig c s = .refused .configChangeInRun := if_neg (Bool.eq_false_iff.mp h)

/-- Settles O60: each refusal is the other branch of its test. -/
theorem refusedRunsOfTheManual : Obligations.RefusedRunsOfTheManual := by
  unfold Obligations.RefusedRunsOfTheManual
  refine ⟨fun c h => if_neg (Bool.eq_false_iff.mp h), fun s d e hne h => ?_, fun s d c h => ?_⟩
  · exact if_neg fun hothers => Bool.eq_false_iff.mp h (rstLine_of_othersInReset hothers hne)
  · exact changeConfig_of_not_all c (Bool.eq_false_iff.mpr fun hall => Bool.eq_false_iff.mp h (rstLine_of_all hall d))

end Sys2Proof.Machine
end

section
/-! PROOFS. The invariant of the machine: it holds at reset (10_state.md R40) and every step keeps it (10_state.md R25,
R29; 20_memory.md R61, R71, R72), no act stops a sound machine (60_exceptions.md R260), and what a sample step of a
sound machine does (44_output_and_step.md R220). -/

namespace Sys2Proof.Machine

variable {s t : State}

/-! ### Reset -/

/-- The invariant holds at the release of reset (10_state.md R40). -/
theorem resetWith_inv {c : Cfg} (hwf : c.wf = true) : Inv (State.resetWith c) := by
  have hc := Cfg.facts hwf
  have hring := hc.ring_ge
  have hcmd := hc.cmd_ge
  exact {
    cfg := hwf
    pool := reset_pool hc
    norm := by simp [State.resetWith]
    mvol := (resetWith_mvol_toNat hc).trans_le hc.mvol_le
    actNotes := (actMask_of_idle (resetWith_idle c)).symm
    bridge := fifo_reset _ (by simp [State.resetWith]; omega)
    inbox := fifo_reset _ (by simp [State.resetWith]; omega)
    ring := ⟨.nil, nofun⟩
    cmdq := ⟨.nil, nofun⟩
    heldInReset := nofun }

/-- Settles O52: the default configuration is well formed. -/
theorem resetStateIsSound : Obligations.ResetStateIsSound := by
  unfold Obligations.ResetStateIsSound
  exact ⟨fun _ => resetWith_inv, resetWith_inv defaultCfg_wf⟩

/-- A reset puts the block at its reset values, whatever the state was (70_reset_and_hazards.md R290). -/
theorem assertReset_inv (hwf : s.cfg.wf = true) : Inv (assertReset s) :=
  { resetWith_inv hwf with heldInReset := fun _ => rfl }

/-! ### The host's liberties -/

/-- What is no part of the block may change: the host's inputs and the schedule. -/
theorem Inv.withInputs (h : Inv s) (cmdIn sampIn : List Word) (ready : Bool) (sched : List Turn) (choice : Nat) :
    Inv { s with cmdIn := cmdIn, sampIn := sampIn, outReady := ready, sched := sched, choice := choice } :=
  { h with
    heldInReset := fun hr => congrArg (fun u : State =>
      { u with cmdIn := cmdIn, sampIn := sampIn, outReady := ready, sched := sched, choice := choice })
      (h.heldInReset hr) }

/-- A reset input may change, as long as a reset does not begin by it. -/
theorem Inv.setRstLine (h : Inv s) {d : Domain} {b : Bool}
    (hr : inReset (setRstLine d b s) = true → inReset s = true) : Inv (setRstLine d b s) := by
  cases d <;> exact { h with heldInReset := fun hd => congrArg (Machine.setRstLine _ b) (h.heldInReset (hr hd)) }

/-- Releasing a reset input begins no reset. -/
theorem inReset_of_release {d : Domain} (h : inReset (setRstLine d false s) = true) : inReset s = true := by
  simp only [inReset, Bool.or_eq_true] at h ⊢
  cases d with
  | audio => exact h.imp_left (.imp_left nofun)
  | producer => exact h.imp_left (.imp_right nofun)
  | control => exact h.imp_right nofun

/-- Where a reset input may be asserted alone, the block is in reset already (70_reset_and_hazards.md R292). -/
theorem inReset_of_othersInReset {d : Domain} (h : othersInReset d s = true) : inReset s = true := by
  simp only [inReset, Bool.or_eq_true]
  cases d with
  | audio => exact .inr (Bool.and_elim_right h)
  | producer => exact .inr (Bool.and_elim_right h)
  | control => exact .inl (.inr (Bool.and_elim_right h))

/-- Taking a turn off the schedule keeps the invariant. -/
theorem takeTurn_inv (h : Inv s) : Inv (takeTurn s) := by
  obtain ⟨sched, choice, hs⟩ := takeTurn_frame s
  rw [hs]
  exact h.withInputs s.cmdIn s.sampIn s.outReady sched choice

/-! ### The agents -/

theorem Inv.facts (h : Inv s) : s.cfg.Facts := Cfg.facts h.cfg

/-- A write of an entry in range keeps the memory in range and in canonical form (20_memory.md R61). -/
theorem memPut_fits {cap i : Nat} {m : Memory} (h : MemoryFits cap m) (hi : i < cap) (x : Word) :
    MemoryFits cap (memPut m i x) := by
  refine ⟨memPut_wf h.1 i x, fun e he => ?_⟩
  rcases mem_memPut he with rfl | he
  · exact hi
  · exact h.2 e he

/-- The sound part of the state that the sample step works on. -/
theorem Inv.audioOk (h : Inv s) : AudioOk s := ⟨⟨h.facts, h.pool, h.mvol, h.inbox⟩, h.norm, h.bridge⟩

/-- Outside reset the clause about reset says nothing. -/
theorem heldInReset_of_running (h : inReset s = false) : inReset s = true → s = resetBlock s :=
  fun hr => absurd (h.symm.trans hr) (by decide)

/-- The sample step of a sound state out of reset completes with a pair of equal halves, in its frame, and leaves a
sound state (44_output_and_step.md R220). -/
theorem aStep_inv (h : Inv s) (hr : inReset s = false) :
    ∃ t m, aStep s = .next t ∧ t.emitted = s.emitted ++ [pairWord m m] ∧ t.cr = s.cwS ∧
      t = { s with
        voices := t.voices, norm := t.norm, mvol := t.mvol, actNotes := t.actNotes, rd := t.rd, cr := t.cr,
        emitted := t.emitted, events := t.events, popped := t.popped, cmdApplied := t.cmdApplied } ∧
      Inv t := by
  obtain ⟨vs, norm, mv, cr, rd, m, ev, po, ap, hstep, hcr, hok⟩ := aStep_spec h.audioOk
  refine ⟨_, m, hstep, rfl, hcr, rfl, ?_⟩
  exact {
    cfg := h.cfg
    pool := hok.drain.pool
    norm := hok.norm
    mvol := hok.drain.mvol
    actNotes := rfl
    bridge := hok.bridge
    inbox := hok.drain.inbox
    ring := h.ring
    cmdq := h.cmdq
    heldInReset := heldInReset_of_running hr }

/-- An element write of a sound state out of reset, with the flags of the second copy it leaves, keeps it sound
(43_stream_bridge.md R195 to R197). -/
theorem elemWrite_inv (h : Inv s) (hr : inReset s = false) (x dupX : Word) (dupV : Bool) :
    Inv { elemWrite x s with dupX := dupX, dupV := dupV } := by
  have hcap : 0 < s.cfg.ringCap := by have := h.facts.ring_ge; omega
  obtain ⟨hbridge, hring⟩ := elemWrite_ok h.bridge hcap h.ring x
  obtain ⟨ring, wr, ev, ac, he⟩ := elemWrite_frame x s
  rw [he] at hbridge hring ⊢
  exact { h with bridge := hbridge, ring := hring, heldInReset := heldInReset_of_running hr }

/-- A command write of a sound state with room in the inbox keeps it sound (45_control_port.md R240). -/
theorem cWrite_inv (h : Inv s) (hr : inReset s = false) (hroom : (s.cw + 1) % s.cfg.cmdDepth ≠ s.crS) (w : Word) :
    Inv (cWrite w s) := by
  have hcap : 0 < s.cfg.cmdDepth := by have := h.facts.cmd_ge; omega
  exact { h with
    inbox := h.inbox.write hroom w
    cmdq := memPut_fits h.cmdq (h.inbox.cursors_lt hcap).1 w
    heldInReset := heldInReset_of_running hr }

/-- Out of reset an enabled act of an agent is performed in a running machine. -/
theorem inReset_of_enabled {a : Act} (ha : isAgentAct a = true) (he : enabled a s = true) : inReset s = false :=
  Bool.eq_false_iff.mpr fun hr => by rw [enabled_of_inReset hr ha] at he; cases he

/-- An act that is performed in a sound state completes and leaves a sound state. -/
theorem perform_inv (h : Inv s) {a : Act} (he : enabled a s = true) : ∃ t, perform a s = .next t ∧ Inv t := by
  have running (ha : isAgentAct a = true) : inReset s = false := inReset_of_enabled ha he
  cases a with
  | aStep =>
    obtain ⟨t, -, hstep, -, -, -, ht⟩ := aStep_inv h (running rfl)
    exact ⟨t, hstep, ht⟩
  | wPush =>
    simp only [perform]
    split
    · exact ⟨s, rfl, h⟩
    · rename_i x rest _
      have hs := h.withInputs s.cmdIn rest s.outReady s.sched s.choice
      exact ⟨_, rfl, elemWrite_inv hs (running rfl) x x true⟩
  | wDup => exact ⟨_, rfl, elemWrite_inv h (running rfl) s.dupX (elemWrite s.dupX s).dupX false⟩
  | cWrite =>
    simp only [perform]
    split
    · exact ⟨s, rfl, h⟩
    · rename_i w rest _
      have hs := h.withInputs rest s.sampIn s.outReady s.sched s.choice
      have hroom : inboxFull s = false := by
        simp only [enabled, cmdReady, Bool.and_eq_true, Bool.not_eq_true'] at he
        exact he.1.2
      exact ⟨_, rfl, cWrite_inv hs (running rfl) (mt (inboxFull_iff s).2 (Bool.eq_false_iff.mp hroom)) w⟩
  | cRead i => exact ⟨_, rfl, { h with heldInReset := heldInReset_of_running (running rfl) }⟩
  | syncWr =>
    exact ⟨_, rfl, { h with bridge := h.bridge.syncWrite, heldInReset := heldInReset_of_running (running rfl) }⟩
  | syncRd =>
    exact ⟨_, rfl, { h with bridge := h.bridge.syncRead, heldInReset := heldInReset_of_running (running rfl) }⟩
  | syncCw =>
    exact ⟨_, rfl, { h with inbox := h.inbox.syncWrite, heldInReset := heldInReset_of_running (running rfl) }⟩
  | syncCr =>
    exact ⟨_, rfl, { h with inbox := h.inbox.syncRead, heldInReset := heldInReset_of_running (running rfl) }⟩
  | syncAct => exact ⟨_, rfl, { h with heldInReset := heldInReset_of_running (running rfl) }⟩
  | presentCmd w => exact ⟨_, rfl, h.withInputs (s.cmdIn ++ [w]) s.sampIn s.outReady s.sched s.choice⟩
  | presentSample x => exact ⟨_, rfl, h.withInputs s.cmdIn (s.sampIn ++ [x]) s.outReady s.sched s.choice⟩
  | sinkReady b => exact ⟨_, rfl, h.withInputs s.cmdIn s.sampIn b s.sched s.choice⟩
  | assertReset => exact ⟨_, rfl, assertReset_inv h.cfg⟩
  | releaseReset d => exact ⟨_, rfl, h.setRstLine inReset_of_release⟩

/-- Every act completes in a sound state and leaves a sound state (60_exceptions.md R260). -/
theorem runAct_inv (h : Inv s) (a : Act) : ∃ t, runAct a s = .next t ∧ Inv t := by
  cases he : enabled a s with
  | true =>
    rw [runAct_enabled he]
    exact perform_inv h he
  | false => exact ⟨s, runAct_held he, h⟩

/-- Every turn that answers a next state keeps the invariant. -/
theorem runTurn_inv {τ : Turn} (h : Inv s) (ht : runTurn τ s = .next t) : Inv t := by
  cases τ with
  | act a =>
    obtain ⟨u, hu, hinv⟩ := runAct_inv h a
    obtain rfl : u = t := Host.Outcome.next.inj (hu.symm.trans ht)
    exact hinv
  | assertOne d =>
    simp only [runTurn, assertOne] at ht
    split at ht <;> cases ht
    exact h.setRstLine fun _ => inReset_of_othersInReset ‹_›
  | changeConfig c =>
    simp only [runTurn, changeConfig] at ht
    split at ht
    · split at ht <;> cases ht
      exact assertReset_inv ‹_›
    · cases ht

/-- Settles O53: taking the turn and running it both keep the invariant. -/
theorem everyStepKeepsTheStateSound : Obligations.EveryStepKeepsTheStateSound := by
  unfold Obligations.EveryStepKeepsTheStateSound
  exact fun s t h hstep => runTurn_inv (takeTurn_inv h) hstep

/-- Settles O54: the turn is an act, and every act completes in a sound state. -/
theorem noActStopsASoundMachine : Obligations.NoActStopsASoundMachine := by
  unfold Obligations.NoActStopsASoundMachine
  intro s h hact
  cases hturn : nextTurn s with
  | act a =>
    obtain ⟨t, ht, -⟩ := runAct_inv (takeTurn_inv h) a
    exact ⟨t, by rw [step, hturn]; exact ht⟩
  | assertOne d => rw [hturn] at hact; cases hact
  | changeConfig c => rw [hturn] at hact; cases hact

/-! ### The sample step of a sound machine -/

/-- The halves of a pair word of equal samples are equal (30_encoding.md R98). -/
theorem pairWord_halves (m : Word) : (pairWord m m).extractLsb' 0 16 = (pairWord m m).extractLsb' 16 16 := by
  have hlow : (pairWord m m).extractLsb' 0 16 = m := BitVec.extractLsb'_append_eq_right
  have hhigh : (pairWord m m).extractLsb' 16 16 = m := BitVec.extractLsb'_append_eq_left
  rw [hlow, hhigh]

/-- Settles O35: the sample step is enabled, and in a sound state it completes in its frame. -/
theorem sampleStepEmitsOnePair : Obligations.SampleStepEmitsOnePair := by
  unfold Obligations.SampleStepEmitsOnePair
  intro s h hr hready
  obtain ⟨t, m, hstep, hemitted, hcr, hframe, -⟩ := aStep_inv h hr
  refine ⟨by simp [outValid, hr], t, pairWord m m, (runAct_aStep hr hready).trans hstep, hemitted, pairWord_halves m,
    hcr, hframe, fun a => ?_, fun a => ?_⟩
  · rw [hframe]; rfl
  · rw [hframe]; rfl

/-- Settles O48: after the copy and the step `cr` stands at `cw`, and then a sound inbox has everything applied. -/
theorem commandsAreAppliedAfterACopyAndAStep : Obligations.CommandsAreAppliedAfterACopyAndAStep := by
  unfold Obligations.CommandsAreAppliedAfterACopyAndAStep
  intro s h hr hready
  have hsync : runAct .syncCw s = .next (syncCw s) := runAct_of_mem_copySteps (by decide) hr
  have hinv : Inv (syncCw s) := runTurn_inv (τ := .act .syncCw) h hsync
  obtain ⟨u, m, hstep, -, hcr, hframe, hu⟩ := aStep_inv hinv hr
  have hwritten : u.cmdWritten = s.cmdWritten := by rw [hframe]; rfl
  have hcw : u.cw = s.cw := by rw [hframe]; rfl
  refine ⟨_, u, hsync, (runAct_aStep (s := syncCw s) hr hready).trans hstep, ?_, hwritten, hcr⟩
  rw [hu.inbox.taken_eq_written (hcr.trans hcw.symm), hwritten]

end Sys2Proof.Machine
end

section
/-! PROOFS. What a turn that is no reset does to the queues of the machine, and what follows over one step and over a
fair run: the guarantees of the bridge and of the inbox (20_memory.md R70, R72, R75), and the read-only configuration
(10_state.md R35). -/

namespace Sys2Proof.Machine

variable {s t : State}

/-! ### The two queues -/

/-- A ring with its cursors, their copies, and the values written and taken so far: what 20_memory.md R71 speaks of. -/
structure Queue where
  cap : Nat
  wr : Nat
  rd : Nat
  wrS : Nat
  rdS : Nat
  mem : Memory
  written : List Word
  taken : List Word

/-- The bridge as a queue (20_memory.md R71). -/
def bridgeQueue (s : State) : Queue := ⟨s.cfg.ringCap, s.wr, s.rd, s.wrS, s.rdS, s.ring, s.accepted, s.popped⟩

/-- The inbox as a queue (20_memory.md R72). -/
def inboxQueue (s : State) : Queue := ⟨s.cfg.cmdDepth, s.cw, s.cr, s.cwS, s.crS, s.cmdq, s.cmdWritten, s.cmdApplied⟩

/-- The counting invariant of 20_memory.md R71. -/
def Queue.Ok (q : Queue) : Prop := FifoOk q.cap q.wr q.rd q.wrS q.rdS q.mem q.written q.taken

/-- What one turn does to a queue: values are written or taken, not both, and the copy of the write cursor stays or is
made anew. -/
structure Queue.Grows (q q' : Queue) : Prop where
  cap : q'.cap = q.cap
  written : q.written <+: q'.written
  taken : q.taken <+: q'.taken
  copy : q'.wrS = q.wrS ∨ q'.wrS = q'.wr
  oneSide : q'.written = q.written ∨ q'.taken = q.taken

theorem Queue.Grows.refl (q : Queue) : q.Grows q := ⟨rfl, List.prefix_rfl, List.prefix_rfl, .inl rfl, .inl rfl⟩

/-- What a turn that is no reset does: it keeps the configuration, both queues only grow, and no command word presented
is lost. -/
structure Continues (s t : State) : Prop where
  cfg : t.cfg = s.cfg
  bridge : (bridgeQueue s).Grows (bridgeQueue t)
  inbox : (inboxQueue s).Grows (inboxQueue t)
  presented : s.cmdWritten ++ s.cmdIn <+: t.cmdWritten ++ t.cmdIn

theorem Continues.refl (s : State) : Continues s s := ⟨rfl, .refl _, .refl _, List.prefix_rfl⟩

/-! ### The sample step -/

/-- The drain only adds to the words applied, from any state (45_control_port.md R242). -/
theorem drainLoop_applied {k : Nat} (h : drainLoop k s = .next t) : s.cmdApplied <+: t.cmdApplied := by
  induction k generalizing s with
  | zero => cases h; exact List.prefix_rfl
  | succ k ih =>
    rcases eq_or_ne s.cr s.cwS with hempty | hne
    · rw [drainLoop_of_empty _ hempty] at h
      cases h
      exact List.prefix_rfl
    · obtain ⟨vs, mv, ev, hexec, -⟩ := exec_frame (decode (cmdRead s s.cr)) s
      rw [drainLoop_of_pending k hne hexec] at h
      exact (List.prefix_append _ _).trans (ih h)

/-- The stages after the drain end with the output stages, whenever they complete (44_output_and_step.md R220). -/
theorem render_next (h : render s = .next t) : ∃ vs norm y, t = output vs norm y s := by
  unfold render at h
  split at h
  · cases h
  · split at h <;> cases h
    exact ⟨_, _, _, rfl⟩

/-- The sample step is a drain and the output stages, from any state (44_output_and_step.md R220). -/
theorem aStep_next (h : aStep s = .next t) : ∃ u vs norm y, drain s = .next u ∧ t = output vs norm y u := by
  cases hd : drain s with
  | next u =>
    rw [aStep_of_drain hd] at h
    obtain ⟨vs, norm, y, ht⟩ := render_next h
    exact ⟨u, vs, norm, y, rfl, ht⟩
  | fault f => rw [aStep, hd] at h; cases h
  | refused f => rw [aStep, hd] at h; cases h

/-- The sample step only adds to the words applied (45_control_port.md R242). -/
theorem aStep_applied (h : aStep s = .next t) : s.cmdApplied <+: t.cmdApplied := by
  obtain ⟨u, vs, norm, y, hd, rfl⟩ := aStep_next h
  obtain ⟨rd, ev, po, hpop⟩ := pop_frame u
  have happlied : (output vs norm y u).cmdApplied = u.cmdApplied := (congrArg State.cmdApplied hpop :)
  rw [happlied]
  exact drainLoop_applied hd

/-- The sample step pops one element where A sees data, and none where it does not (43_stream_bridge.md R198). -/
theorem aStep_popped (h : aStep s = .next t) :
    (s.rd = s.wrS ∧ t.popped = s.popped) ∨ (s.rd ≠ s.wrS ∧ ∃ x, t.popped = s.popped ++ [x]) := by
  obtain ⟨u, vs, norm, y, hd, rfl⟩ := aStep_next h
  have hpopped : (output vs norm y u).popped = (pop u).2.popped := rfl
  obtain ⟨vs', mv, ev, cr, ap, hu⟩ := drainLoop_frame hd
  have hrd : u.rd = s.rd := by rw [hu]
  have hwrS : u.wrS = s.wrS := by rw [hu]
  have hkeep : u.popped = s.popped := by rw [hu]
  rw [hpopped, ← hrd, ← hwrS, ← hkeep]
  rcases pop_cases u with ⟨he, hp⟩ | ⟨hne, hp⟩
  · exact .inl ⟨he, by rw [hp]; rfl⟩
  · exact .inr ⟨hne, _, by rw [hp]⟩

/-- The sample step takes from both queues and writes to neither. -/
theorem aStep_continues (h : aStep s = .next t) : Continues s t := by
  have happlied := aStep_applied h
  have hpopped : s.popped <+: t.popped := by
    rcases aStep_popped h with ⟨-, hp⟩ | ⟨-, x, hp⟩
    · exact hp ▸ List.prefix_rfl
    · exact hp ▸ List.prefix_append _ _
  obtain ⟨vs, norm, mv, cr, rd, m, ev, po, ap, rfl⟩ := aStep_frame h
  exact ⟨rfl, ⟨rfl, List.prefix_rfl, hpopped, .inl rfl, .inl rfl⟩,
    ⟨rfl, List.prefix_rfl, happlied, .inl rfl, .inl rfl⟩, List.prefix_rfl⟩

/-! ### The other turns -/

/-- An element write adds to the values accepted, or drops its value (43_stream_bridge.md R195). -/
theorem elemWrite_continues (x dupX : Word) (dupV : Bool) (s : State) :
    Continues s { elemWrite x s with dupX := dupX, dupV := dupV } := by
  rcases elemWrite_cases x s with ⟨-, he⟩ | ⟨-, he⟩
  · rw [he]
    exact ⟨rfl, .refl _, .refl _, List.prefix_rfl⟩
  · rw [he]
    exact ⟨rfl, ⟨rfl, List.prefix_append _ _, List.prefix_rfl, .inl rfl, .inr rfl⟩, .refl _, List.prefix_rfl⟩

/-- A command write takes the oldest word presented into the inbox (45_control_port.md R240). -/
theorem cWrite_continues {w : Word} {rest : List Word} (h : s.cmdIn = w :: rest) :
    Continues s (cWrite w { s with cmdIn := rest }) where
  cfg := rfl
  bridge := .refl _
  inbox := ⟨rfl, List.prefix_append _ _, List.prefix_rfl, .inl rfl, .inr rfl⟩
  presented := by
    rw [h, List.append_cons]
    exact List.prefix_rfl

/-- Setting a reset input touches no queue. -/
theorem setRstLine_continues (d : Domain) (b : Bool) (s : State) : Continues s (setRstLine d b s) := by
  obtain ⟨ra, rw, rc, h⟩ := setRstLine_frame d b s
  rw [h]
  exact ⟨rfl, .refl _, .refl _, List.prefix_rfl⟩

/-- An act is a reset, or it continues the run. -/
theorem runAct_continues {a : Act} (h : runAct a s = .next t) : Continues s t ∨ t = assertReset s := by
  rcases runAct_next h with rfl | h
  · exact .inl (.refl _)
  cases a with
  | aStep => exact .inl (aStep_continues h)
  | wPush =>
    simp only [perform] at h
    split at h <;> cases h
    · exact .inl (.refl _)
    · rename_i x rest _
      exact .inl { elemWrite_continues x x true { s with sampIn := rest } with }
  | wDup =>
    cases h
    exact .inl (elemWrite_continues s.dupX (elemWrite s.dupX s).dupX false s)
  | cWrite =>
    simp only [perform] at h
    split at h <;> cases h
    · exact .inl (.refl _)
    · exact .inl (cWrite_continues ‹_›)
  | syncWr =>
    cases h
    exact .inl ⟨rfl, ⟨rfl, List.prefix_rfl, List.prefix_rfl, .inr rfl, .inl rfl⟩, .refl _, List.prefix_rfl⟩
  | syncCw =>
    cases h
    exact .inl ⟨rfl, .refl _, ⟨rfl, List.prefix_rfl, List.prefix_rfl, .inr rfl, .inl rfl⟩, List.prefix_rfl⟩
  | syncRd =>
    cases h
    exact .inl ⟨rfl, ⟨rfl, List.prefix_rfl, List.prefix_rfl, .inl rfl, .inl rfl⟩, .refl _, List.prefix_rfl⟩
  | syncCr =>
    cases h
    exact .inl ⟨rfl, .refl _, ⟨rfl, List.prefix_rfl, List.prefix_rfl, .inl rfl, .inl rfl⟩, List.prefix_rfl⟩
  | presentCmd w =>
    cases h
    exact .inl ⟨rfl, .refl _, .refl _, [w], List.append_assoc ..⟩
  | releaseReset d =>
    cases h
    exact .inl (setRstLine_continues d false s)
  | assertReset =>
    cases h
    exact .inr rfl
  | cRead | syncAct | presentSample | sinkReady =>
    cases h
    exact .inl ⟨rfl, .refl _, .refl _, List.prefix_rfl⟩

/-- A turn is a reset, with the same configuration or another, or it continues the run. -/
theorem runTurn_continues {τ : Turn} (h : runTurn τ s = .next t) :
    Continues s t ∨ ∃ c, t = assertReset { s with cfg := c } := by
  cases τ with
  | act a => exact (runAct_continues h).imp_right fun ht => ⟨s.cfg, ht⟩
  | assertOne d =>
    simp only [runTurn, assertOne] at h
    split at h <;> cases h
    exact .inl (setRstLine_continues d true s)
  | changeConfig c =>
    simp only [runTurn, changeConfig] at h
    split at h
    · split at h <;> cases h
      exact .inr ⟨c, rfl⟩
    · cases h

/-! ### One step -/

/-- A step after which the number of resets is the same continues the run. -/
theorem step_continues (h : step s = .next t) (he : t.epoch = s.epoch) : Continues s t := by
  obtain ⟨sched, choice, htake⟩ := takeTurn_frame s
  rw [step, htake] at h
  rcases runTurn_continues h with hc | ⟨c, rfl⟩
  · exact { hc with }
  · exact absurd he (Nat.succ_ne_self s.epoch)

/-- Settles O41: accepted writes and pops only grow, and the invariant of the next state gives the rest. -/
theorem bridgeNeverOverwritesUnreadData : Obligations.BridgeNeverOverwritesUnreadData := by
  unfold Obligations.BridgeNeverOverwritesUnreadData
  intro s t h hstep he
  have hbridge := (step_continues hstep he).bridge
  have hok := (everyStepKeepsTheStateSound s t h hstep).bridge
  refine ⟨hbridge.written, hbridge.taken, hok.taken_prefix, fun k hk hk' => ?_⟩
  have hentry := hok.entry hk hk'
  rw [List.getElem?_eq_getElem hk'] at hentry ⊢
  rw [ringRead, hentry, Option.getD_some]

/-- Settles O47: words written, applied and presented only grow, and the invariant of the next state gives the rest. -/
theorem commandsAreAppliedOnceInOrder : Obligations.CommandsAreAppliedOnceInOrder := by
  unfold Obligations.CommandsAreAppliedOnceInOrder
  intro s t h hstep he
  have hc := step_continues hstep he
  have hok := (everyStepKeepsTheStateSound s t h hstep).inbox
  exact ⟨hc.inbox.written, hc.inbox.taken, hok.taken_prefix, hc.presented⟩

/-- A turn that is no change of configuration keeps the configuration: it continues the run or is a reset (10_state.md
R35). -/
theorem runTurn_cfg {τ : Turn} (hτ : changesConfig τ = false) (h : runTurn τ s = .next t) : t.cfg = s.cfg := by
  cases τ with
  | act a =>
    rcases runAct_continues h with hc | rfl
    · exact hc.cfg
    · rfl
  | assertOne d =>
    simp only [runTurn, assertOne] at h
    split at h <;> cases h
    exact (setRstLine_continues d true s).cfg
  | changeConfig c => cases hτ

/-- Settles O51: no turn but the choice of a configuration writes it, and taking a turn does not. -/
theorem configurationIsReadOnly : Obligations.ConfigurationIsReadOnly := by
  unfold Obligations.ConfigurationIsReadOnly
  refine ⟨fun s t hstep hturn => ?_, fun s c => changeConfig_of_not_all c⟩
  obtain ⟨sched, choice, htake⟩ := takeTurn_frame s
  rw [step, htake] at hstep
  exact (runTurn_cfg hturn hstep).trans rfl

/-! ### Fair runs -/

/-- The copy of the write cursor stands for at least `n` values written (20_memory.md R71). -/
def Queue.Seen (n : Nat) (q : Queue) : Prop :=
  ∃ nW', q.wrS = nW' % q.cap ∧ n ≤ nW' ∧ q.taken.length ≤ nW' ∧ nW' ≤ q.written.length

/-- A copy just made stands for everything written. -/
theorem Queue.Ok.seen {q : Queue} (h : q.Ok) (hcopy : q.wrS = q.wr) : q.Seen q.written.length := by
  have hle := h.taken_prefix.length_le
  obtain ⟨_, _, hwr, -⟩ := h
  exact ⟨q.written.length, hcopy.trans hwr, le_rfl, hle, le_rfl⟩

/-- The count that the copy stands for does not go back. Where values were taken and the copy stayed, the count is the
one that the invariant bounds the values taken by, since two such counts are less than `cap` apart. -/
theorem Queue.Grows.seen {q q' : Queue} (hgrows : q.Grows q') (hok : q.Ok) (hok' : q'.Ok) {n : Nat} (h : q.Seen n) :
    q'.Seen n := by
  obtain ⟨nW', hwrS, hn, htaken, hwritten⟩ := h
  have hmore := hgrows.written.length_le
  rcases hgrows.copy with hcopy | hcopy
  · rw [← hgrows.cap, ← hcopy] at hwrS
    refine ⟨nW', hwrS, hn, ?_, hwritten.trans hmore⟩
    rcases hgrows.oneSide with hsame | hsame
    · have hlt := hok.written_lt
      have htaken' := hgrows.taken.length_le
      obtain ⟨nW'', _, -, -, hwrS', -, -, hle, hle', -⟩ := hok'
      rw [hsame] at hle'
      rw [← hgrows.cap] at hlt
      have hcount : nW'' = nW' := by
        rcases le_total nW'' nW' with hc | hc
        · exact eq_of_mod_eq (hwrS'.symm.trans hwrS) hc (by omega)
        · exact (eq_of_mod_eq (hwrS.symm.trans hwrS') hc (by omega)).symm
      exact hcount ▸ hle
    · exact hsame ▸ htaken
  · obtain ⟨nW, hnW, hle, htaken', hwritten'⟩ := hok'.seen hcopy
    exact ⟨nW, hnW, by omega, htaken', hwritten'⟩

/-- Where the copy stands for more values than have been taken, the reader sees the queue non-empty. -/
theorem Queue.Seen.pending {q : Queue} {n : Nat} (h : q.Seen n) (hok : q.Ok) (hlt : q.taken.length < n) :
    q.rd ≠ q.wrS := by
  obtain ⟨nW', hwrS, hn, -, hwritten⟩ := h
  have hroom := hok.written_lt
  obtain ⟨_, _, -, hrd, -⟩ := hok
  intro he
  have := eq_of_mod_eq (hrd.symm.trans (he.trans hwrS)) (by omega) (by omega)
  omega

section
variable {q : Nat → Queue} (hok : ∀ n, (q n).Ok) (hgrows : ∀ n, (q n).Grows (q (n + 1)))

include hgrows in
theorem written_prefix_of_le {n m : Nat} (hnm : n ≤ m) : (q n).written <+: (q m).written :=
  Nat.le_induction List.prefix_rfl (fun k _ ih => ih.trans (hgrows k).written) m hnm

include hgrows in
theorem taken_prefix_of_le {n m : Nat} (hnm : n ≤ m) : (q n).taken <+: (q m).taken :=
  Nat.le_induction List.prefix_rfl (fun k _ ih => ih.trans (hgrows k).taken) m hnm

include hok hgrows in
theorem seen_of_le {n m N : Nat} (hnm : n ≤ m) (h : (q n).Seen N) : (q m).Seen N :=
  Nat.le_induction h (fun k _ ih => (hgrows k).seen (hok k) (hok (k + 1)) ih) m hnm

include hok hgrows in
/-- A queue whose reader takes again and again, where it sees a value, takes the values it has seen. The induction is on
how many of them are left. -/
theorem exists_taken_of_seen
    (htakes : ∀ n, ∃ m, n ≤ m ∧ ((q m).rd ≠ (q m).wrS → (q m).taken.length < (q (m + 1)).taken.length))
    (left : Nat) {n N : Nat} (hseen : (q n).Seen N) (hleft : N ≤ (q n).taken.length + left) :
    ∃ m, n ≤ m ∧ N ≤ (q m).taken.length := by
  induction left generalizing n with
  | zero => exact ⟨n, le_rfl, hleft⟩
  | succ left ih =>
    obtain ⟨m, hnm, htake⟩ := htakes n
    have hkeep := (taken_prefix_of_le hgrows hnm).length_le
    rcases Nat.lt_or_ge (q m).taken.length N with hlt | hge
    · have hmore := htake ((seen_of_le hok hgrows hnm hseen).pending (hok m) hlt)
      obtain ⟨k, hk, hN⟩ := ih (seen_of_le hok hgrows (by omega : n ≤ m + 1) hseen) (by omega)
      exact ⟨k, by omega, hN⟩
    · exact ⟨m, hnm, hge⟩

include hok hgrows in
/-- With copies made again and again and a reader that takes again and again, what is written is taken at last
(20_memory.md R75). -/
theorem exists_written_prefix_taken (hcopies : ∀ n, ∃ m, n ≤ m ∧ (q m).wrS = (q m).wr)
    (htakes : ∀ n, ∃ m, n ≤ m ∧ ((q m).rd ≠ (q m).wrS → (q m).taken.length < (q (m + 1)).taken.length)) (n : Nat) :
    ∃ m, n ≤ m ∧ (q n).written <+: (q m).taken := by
  obtain ⟨k, hnk, hcopy⟩ := hcopies n
  obtain ⟨m, hkm, hlen⟩ := exists_taken_of_seen hok hgrows htakes (q k).written.length ((hok k).seen hcopy)
    (Nat.le_add_left _ _)
  have hnm := hnk.trans hkm
  have hle := (written_prefix_of_le hgrows hnk).length_le.trans hlen
  exact ⟨m, hnm, List.prefix_of_prefix_length_le (written_prefix_of_le hgrows hnm) (hok m).taken_prefix hle⟩

end

/-- A sample step of a sound state applies a command where one is visible: it ends with `cr` at `cw_s`, so the count of
the words applied is not the one before (45_control_port.md R242). -/
theorem aStep_applies (h : Inv s) (hr : inReset s = false) (hstep : aStep s = .next t) (hne : s.cr ≠ s.cwS) :
    s.cmdApplied.length < t.cmdApplied.length := by
  obtain ⟨u, m, hu, -, hcr, -, hinv⟩ := aStep_inv h hr
  obtain rfl : u = t := Host.Outcome.next.inj (hu.symm.trans hstep)
  have hcont := aStep_continues hstep
  refine lt_of_le_of_ne hcont.inbox.taken.length_le fun hlen => hne ?_
  obtain ⟨_, _, -, hrd, -⟩ := h.inbox
  obtain ⟨_, _, -, hrd', -⟩ := hinv.inbox
  rw [hrd, hlen, ← hcont.cfg, ← hrd', hcr]

section
variable {τ : Nat → Turn} {r : Nat → State}

/-- A run from a sound state is sound throughout. -/
theorem isRun_inv (hrun : IsRun τ r) (h : Inv (r 0)) (n : Nat) : Inv (r n) := by
  induction n with
  | zero => exact h
  | succ n ih => exact runTurn_inv ih (hrun n)

/-- A run in which no reset is asserted continues at every turn. -/
theorem isRun_continues (hrun : IsRun τ r) (hr : ∀ n, inReset (r n) = false) (n : Nat) :
    Continues (r n) (r (n + 1)) := by
  rcases runTurn_continues (hrun n) with hc | ⟨c, hreset⟩
  · exact hc
  · have := hr (n + 1)
    rw [hreset] at this
    cases this

/-- A copy step of the schedule is performed where no reset is asserted. -/
theorem isRun_copyStep (hrun : IsRun τ r) (hr : ∀ n, inReset (r n) = false) {a : Act} (ha : a ∈ copySteps) {n : Nat}
    (hτ : τ n = .act a) : perform a (r n) = .next (r (n + 1)) := by
  have h := hrun n
  rw [hτ] at h
  exact (runAct_of_mem_copySteps ha (hr n)).symm.trans h

/-- A sample step of the schedule is performed where no reset is asserted and the sink accepts. -/
theorem isRun_aStep (hrun : IsRun τ r) (hr : ∀ n, inReset (r n) = false) {n : Nat} (hτ : τ n = .act .aStep)
    (hready : (r n).outReady = true) : aStep (r n) = .next (r (n + 1)) := by
  have h := hrun n
  rw [hτ] at h
  exact (runAct_aStep (hr n) hready).symm.trans h

end

/-- Settles O49: under fairness both queues have their copies made and their readers taking again and again. -/
theorem whatIsWrittenIsSeenAtLast : Obligations.WhatIsWrittenIsSeenAtLast := by
  unfold Obligations.WhatIsWrittenIsSeenAtLast
  intro τ r hrun hfair hinv hr hready n
  have hok := isRun_inv hrun hinv
  have hcont := isRun_continues hrun hr
  have hsteps := hfair.samples hready
  constructor
  · refine exists_written_prefix_taken (q := fun n => inboxQueue (r n)) (fun n => (hok n).inbox)
      (fun n => (hcont n).inbox) (fun n => ?_) (fun n => ?_) n
    · obtain ⟨m, hm, hτ⟩ := hfair.copies .syncCw (by decide) n
      have hcopy : syncCw (r m) = r (m + 1) := Host.Outcome.next.inj (isRun_copyStep hrun hr (by decide) hτ)
      exact ⟨m + 1, by omega, by rw [← hcopy]; rfl⟩
    · obtain ⟨m, hm, hτ, hsink⟩ := hsteps n
      exact ⟨m, hm, aStep_applies (hok m) (hr m) (isRun_aStep hrun hr hτ hsink)⟩
  · refine exists_written_prefix_taken (q := fun n => bridgeQueue (r n)) (fun n => (hok n).bridge)
      (fun n => (hcont n).bridge) (fun n => ?_) (fun n => ?_) n
    · obtain ⟨m, hm, hτ⟩ := hfair.copies .syncWr (by decide) n
      have hcopy : syncWr (r m) = r (m + 1) := Host.Outcome.next.inj (isRun_copyStep hrun hr (by decide) hτ)
      exact ⟨m + 1, by omega, by rw [← hcopy]; rfl⟩
    · obtain ⟨m, hm, hτ, hsink⟩ := hsteps n
      refine ⟨m, hm, fun hne => ?_⟩
      rcases aStep_popped (isRun_aStep hrun hr hτ hsink) with ⟨he, -⟩ | ⟨-, x, hx⟩
      · exact absurd he hne
      · simp [bridgeQueue, hx]

end Sys2Proof.Machine
end

section
/-! PROOFS. What the machine never reads: its histories (log 11, 12, 13), and `dup_x` while no second copy is pending
(70_reset_and_hazards.md R293). -/

namespace Sys2Proof.Machine

variable {R : State → State → Prop} {s t : State}

/-! ### Outcomes related by a relation on states -/

theorem sameOutcome_refl (hR : ∀ s, R s s) (o : Host.Outcome State Fault Refusal) : sameOutcome R o o := by
  cases o with
  | next s => exact hR s
  | fault f => exact rfl
  | refused f => exact rfl

/-- Steps taken one after another have related outcomes where each step has. -/
theorem sameOutcome_andThen {o p : Host.Outcome State Fault Refusal} {f g : State → Host.Outcome State Fault Refusal}
    (h : sameOutcome R o p) (hfg : ∀ u v, R u v → sameOutcome R (f u) (g v)) :
    sameOutcome R (andThen o f) (andThen p g) := by
  cases o with
  | next u =>
    cases p with
    | next v => exact hfg u v h
    | fault | refused => exact h.elim
  | fault =>
    cases p with
    | fault => exact h
    | next | refused => exact h.elim
  | refused =>
    cases p with
    | refused => exact h
    | next | fault => exact h.elim

/-! ### The sample step -/

/-- The states agree on what the sample step reads (44_output_and_step.md R220). -/
structure SameForA (s t : State) : Prop where
  cfg : s.cfg = t.cfg
  voices : s.voices = t.voices
  norm : s.norm = t.norm
  mvol : s.mvol = t.mvol
  rd : s.rd = t.rd
  wrS : s.wrS = t.wrS
  cr : s.cr = t.cr
  cwS : s.cwS = t.cwS
  ring : s.ring = t.ring
  cmdq : s.cmdq = t.cmdq
  epoch : s.epoch = t.epoch

/-- The relation says nothing that the sample step could tell: related states agree on what it reads, and each of its
writes, made in both, leaves them related. -/
structure UnreadByA (R : State → State → Prop) : Prop where
  reads {s t : State} : R s t → SameForA s t
  event {s t : State} (e : Event) : R s t → R (logEvent s e) (logEvent t e)
  voices {s t : State} (vs : List Voice) : R s t → R { s with voices := vs } { t with voices := vs }
  mvol {s t : State} (m : BitVec 7) : R s t → R { s with mvol := m } { t with mvol := m }
  advance {s t : State} (w : Word) : R s t → R (advanceCr w s) (advanceCr w t)
  take {s t : State} (rd : Nat) (x : Word) : R s t →
    R { s with rd := rd, popped := s.popped ++ [x] } { t with rd := rd, popped := t.popped ++ [x] }
  finish {s t : State} (m : Word) (vs : List Voice) (norm : BitVec 25) : R s t →
    R { emit m m s with voices := vs, norm := norm, actNotes := actMask vs }
      { emit m m t with voices := vs, norm := norm, actNotes := actMask vs }

/-- A press reads the voices and the note table, which are the same. -/
theorem noteOnIndex_unread (hR : UnreadByA R) (h : R s t) (cmd : Word) (n : Note) :
    R (noteOnIndex cmd n s) (noteOnIndex cmd n t) := by
  have hfresh : allocate s.cfg n = allocate t.cfg n := by rw [(hR.reads h).cfg]
  simp only [noteOnIndex, (hR.reads h).voices, hfresh]
  split
  · exact hR.voices _ h
  · split
    · exact hR.voices _ h
    · exact hR.event _ h

/-- A release reads the voices, which are the same. -/
theorem noteOffIndex_unread (hR : UnreadByA R) (h : R s t) (cmd : Word) (n : Note) :
    R (noteOffIndex cmd n s) (noteOffIndex cmd n t) := by
  simp only [noteOffIndex, (hR.reads h).voices]
  split
  · exact hR.voices _ h
  · exact hR.event _ h

/-- Every command has related outcomes from related states (45_control_port.md R243). -/
theorem exec_unread (hR : UnreadByA R) (h : R s t) (i : Instr) : sameOutcome R (exec i s) (exec i t) := by
  cases i with
  | nop => exact h
  | noteOn n =>
    simp only [exec, execNoteOn]
    split
    · exact hR.event _ h
    · exact noteOnIndex_unread hR h _ _
  | noteOff n =>
    simp only [exec, execNoteOff]
    split
    · exact hR.event _ h
    · exact noteOffIndex_unread hR h _ _
  | key c =>
    simp only [exec, execKey, (hR.reads h).cfg]
    split
    · exact hR.event _ h
    · split
      · exact noteOffIndex_unread hR h _ _
      · exact noteOnIndex_unread hR h _ _
  | setMvol v =>
    simp only [exec, execSetMvol]
    split
    · exact hR.event _ h
    · exact hR.mvol _ h
  | reservedOp1 | reservedOp2 | reservedOp3 | reservedOp4 | reservedOp5 | reservedOp6to7 | reservedOp8toF =>
    exact hR.event _ h

/-- The drain reads the words of the inbox and its cursors, which are the same (45_control_port.md R242). -/
theorem drainLoop_unread (hR : UnreadByA R) (k : Nat) (h : R s t) :
    sameOutcome R (drainLoop k s) (drainLoop k t) := by
  induction k generalizing s t with
  | zero => exact h
  | succ k ih =>
    have hreads := hR.reads h
    have hpending : inboxPending s = inboxPending t := by rw [inboxPending, inboxPending, hreads.cr, hreads.cwS]
    have hword : cmdRead s s.cr = cmdRead t t.cr := by rw [cmdRead, cmdRead, hreads.cmdq, hreads.epoch, hreads.cr]
    simp only [drainLoop, hpending, hword]
    split
    · exact sameOutcome_andThen (exec_unread hR h _) fun u v huv => ih (hR.advance _ huv)
    · exact h

/-- A pop answers the same value, from the same entry (43_stream_bridge.md R198). -/
theorem pop_unread (hR : UnreadByA R) (h : R s t) : (pop s).1 = (pop t).1 ∧ R (pop s).2 (pop t).2 := by
  have hreads := hR.reads h
  have hempty : emptyA s = emptyA t := by rw [emptyA, emptyA, hreads.rd, hreads.wrS]
  have hentry : ringRead s s.rd = ringRead t t.rd := by rw [ringRead, ringRead, hreads.ring, hreads.epoch, hreads.rd]
  have hnext : (s.rd + 1) % s.cfg.ringCap = (t.rd + 1) % t.cfg.ringCap := by rw [hreads.rd, hreads.cfg]
  simp only [pop, hempty, hentry, hnext]
  split
  · exact ⟨rfl, hR.event _ h⟩
  · exact ⟨rfl, hR.take _ _ h⟩

/-- The stages after the drain read the voices, `NORM`, `MVOL` and the value popped, which are the same (R220). -/
theorem render_unread (hR : UnreadByA R) (h : R s t) : sameOutcome R (render s) (render t) := by
  have hreads := hR.reads h
  simp only [render, hreads.cfg, hreads.voices, hreads.norm, hreads.mvol]
  split
  · exact rfl
  · split
    · exact rfl
    · obtain ⟨hvalue, hpop⟩ := pop_unread hR h
      simp only [output, hvalue, hreads.cfg]
      exact hR.finish _ _ _ hpop

/-- The sample step has related outcomes from related states (R220). -/
theorem aStep_unread (hR : UnreadByA R) (h : R s t) : sameOutcome R (aStep s) (aStep t) := by
  have hdrain : sameOutcome R (drain s) (drain t) := by
    rw [drain, drain, (hR.reads h).cfg]
    exact drainLoop_unread hR _ h
  exact sameOutcome_andThen hdrain fun u v huv => render_unread hR huv

/-! ### The histories -/

/-- The states differ at most in their histories. -/
def SameButHistories (s t : State) : Prop := forgetHistories s = forgetHistories t

/-- What a function reads that does not read the histories is the same. -/
theorem SameButHistories.congr {α : Type} (h : SameButHistories s t) (f : State → α)
    (hf : ∀ u, f (forgetHistories u) = f u) : f s = f t := by
  rw [← hf s, h, hf t]

/-- An update that writes nothing but histories from histories leaves the states so. -/
theorem SameButHistories.map (h : SameButHistories s t) (f : State → State)
    (hf : ∀ u, forgetHistories (f (forgetHistories u)) = forgetHistories (f u)) : SameButHistories (f s) (f t) :=
  h.congr (fun u => forgetHistories (f u)) hf

theorem sameButHistories_unreadByA : UnreadByA SameButHistories where
  reads h := ⟨h.congr State.cfg fun _ => rfl, h.congr State.voices fun _ => rfl, h.congr State.norm fun _ => rfl,
    h.congr State.mvol fun _ => rfl, h.congr State.rd fun _ => rfl, h.congr State.wrS fun _ => rfl,
    h.congr State.cr fun _ => rfl, h.congr State.cwS fun _ => rfl, h.congr State.ring fun _ => rfl,
    h.congr State.cmdq fun _ => rfl, h.congr State.epoch fun _ => rfl⟩
  event _ h := h
  voices vs h := h.map (fun u => { u with voices := vs }) fun _ => rfl
  mvol m h := h.map (fun u => { u with mvol := m }) fun _ => rfl
  advance w h := h.map (advanceCr w) fun _ => rfl
  take rd _ h := h.map (fun u => { u with rd := rd }) fun _ => rfl
  finish _ vs norm h := h.map (fun u => { u with voices := vs, norm := norm, actNotes := actMask vs }) fun _ => rfl

/-- An element write tests and writes the cursors and RING, in both states alike (43_stream_bridge.md R195). -/
theorem elemWrite_sameButHistories (h : SameButHistories s t) (x : Word) :
    SameButHistories (elemWrite x s) (elemWrite x t) := by
  have hfull : fullW s = fullW t := h.congr fullW fun _ => rfl
  simp only [elemWrite, hfull]
  split
  · exact h
  · exact h.map (fun u => { u with ring := memPut u.ring u.wr x, wr := (u.wr + 1) % u.cfg.ringCap }) fun _ => rfl

theorem enabled_forgetHistories (a : Act) (s : State) : enabled a (forgetHistories s) = enabled a s := by
  cases a <;> rfl

theorem setRstLine_sameButHistories (h : SameButHistories s t) (d : Domain) (b : Bool) :
    SameButHistories (setRstLine d b s) (setRstLine d b t) := by
  cases d <;> exact h.map (setRstLine _ b) fun _ => rfl

theorem perform_sameButHistories (h : SameButHistories s t) (a : Act) :
    sameOutcome SameButHistories (perform a s) (perform a t) := by
  cases a with
  | aStep => exact aStep_unread sameButHistories_unreadByA h
  | wPush =>
    have hin : s.sampIn = t.sampIn := h.congr State.sampIn fun _ => rfl
    simp only [perform, hin]
    split
    · exact h
    · rename_i x rest _
      have htaken : SameButHistories { s with sampIn := rest } { t with sampIn := rest } :=
        h.map (fun u => { u with sampIn := rest }) fun _ => rfl
      exact (elemWrite_sameButHistories htaken x).map (fun u => { u with dupX := x, dupV := true }) fun _ => rfl
  | wDup =>
    have hdup : s.dupX = t.dupX := h.congr State.dupX fun _ => rfl
    simp only [perform, wDup, hdup]
    exact (elemWrite_sameButHistories h t.dupX).map (fun u => { u with dupV := false }) fun _ => rfl
  | cWrite =>
    have hin : s.cmdIn = t.cmdIn := h.congr State.cmdIn fun _ => rfl
    simp only [perform, hin]
    split
    · exact h
    · rename_i w rest _
      exact h.map (fun u => cWrite w { u with cmdIn := rest }) fun _ => rfl
  | cRead => exact h
  | syncWr => exact h.map syncWr fun _ => rfl
  | syncRd => exact h.map syncRd fun _ => rfl
  | syncCw => exact h.map syncCw fun _ => rfl
  | syncCr => exact h.map syncCr fun _ => rfl
  | syncAct => exact h.map syncAct fun _ => rfl
  | presentCmd w => exact h.map (fun u => { u with cmdIn := u.cmdIn ++ [w] }) fun _ => rfl
  | presentSample x => exact h.map (fun u => { u with sampIn := u.sampIn ++ [x] }) fun _ => rfl
  | sinkReady b => exact h.map (fun u => { u with outReady := b }) fun _ => rfl
  | assertReset => exact h.map assertReset fun _ => rfl
  | releaseReset d => exact setRstLine_sameButHistories h d false

theorem runTurn_sameButHistories (h : SameButHistories s t) (τ : Turn) :
    sameOutcome SameButHistories (runTurn τ s) (runTurn τ t) := by
  cases τ with
  | act a =>
    have henabled : enabled a s = enabled a t := by
      rw [← enabled_forgetHistories a s, h, enabled_forgetHistories]
    simp only [runTurn, runAct, henabled]
    split
    · exact perform_sameButHistories h a
    · exact h
  | assertOne d =>
    have hothers : othersInReset d s = othersInReset d t := by cases d <;> exact h.congr (othersInReset _) fun _ => rfl
    simp only [runTurn, assertOne, hothers]
    split
    · exact setRstLine_sameButHistories h d true
    · exact rfl
  | changeConfig c =>
    have hall : (s.rstA && s.rstW && s.rstC) = (t.rstA && t.rstW && t.rstC) :=
      h.congr (fun u => u.rstA && u.rstW && u.rstC) fun _ => rfl
    simp only [runTurn, changeConfig, hall]
    split
    · split
      · exact h.map (fun u => assertReset { u with cfg := c }) fun _ => rfl
      · exact rfl
    · exact rfl

/-- Taking a turn leaves the histories alone. -/
theorem forgetHistories_takeTurn (s : State) : forgetHistories (takeTurn s) = takeTurn (forgetHistories s) := by
  have hsched : (forgetHistories s).sched = s.sched := rfl
  simp only [takeTurn, hsched]
  split <;> rfl

/-- Settles O55: the turn taken is the same, and every turn writes what it writes from what is no history. -/
theorem historiesAreNeverRead : Obligations.HistoriesAreNeverRead := by
  unfold Obligations.HistoriesAreNeverRead
  intro s t (h : SameButHistories s t)
  have hturn : nextTurn s = nextTurn t := h.congr nextTurn fun _ => rfl
  have htaken : SameButHistories (takeTurn s) (takeTurn t) :=
    h.map takeTurn fun u => (forgetHistories_takeTurn _).trans (forgetHistories_takeTurn u).symm
  rw [step, step, hturn]
  exact runTurn_sameButHistories htaken (nextTurn t)

/-! ### The pending sample -/

theorem sameButIdleDup_refl (s : State) : sameButIdleDup s s := ⟨rfl, fun _ => rfl⟩

/-- While a second copy is pending the states are equal; else one is the other with another `dup_x`. -/
theorem sameButIdleDup_cases (h : sameButIdleDup s t) : t = s ∨ (s.dupV = false ∧ ∃ x, t = { s with dupX := x }) := by
  obtain ⟨ht, hdup⟩ := h
  rcases Bool.eq_false_or_eq_true s.dupV with hv | hv
  · exact .inl (by rw [ht, hdup hv])
  · exact .inr ⟨hv, t.dupX, ht⟩

/-- While no second copy is pending, `dup_x` may be any. -/
theorem sameButIdleDup_of_idle (x : Word) (s : State) (hv : s.dupV = false) : sameButIdleDup s { s with dupX := x } :=
  ⟨rfl, fun h => absurd (hv.symm.trans h) (by decide)⟩

/-- Setting a reset input touches neither `dup_v` nor `dup_x`. -/
theorem setRstLine_sameButIdleDup (d : Domain) (b : Bool) (x : Word) (hv : s.dupV = false) :
    sameButIdleDup (setRstLine d b s) (setRstLine d b { s with dupX := x }) := by
  cases d with
  | audio => exact sameButIdleDup_of_idle x { s with rstA := b } hv
  | producer => exact sameButIdleDup_of_idle x { s with rstW := b } hv
  | control => exact sameButIdleDup_of_idle x { s with rstC := b } hv

theorem sameButIdleDup_unreadByA : UnreadByA sameButIdleDup where
  reads h := by
    rw [h.1]
    exact ⟨rfl, rfl, rfl, rfl, rfl, rfl, rfl, rfl, rfl, rfl, rfl⟩
  event e h := ⟨congrArg (logEvent · e) h.1, h.2⟩
  voices vs h := ⟨congrArg (fun u : State => { u with voices := vs }) h.1, h.2⟩
  mvol m h := ⟨congrArg (fun u : State => { u with mvol := m }) h.1, h.2⟩
  advance w h := ⟨congrArg (advanceCr w) h.1, h.2⟩
  take rd x h := ⟨congrArg (fun u : State => { u with rd := rd, popped := u.popped ++ [x] }) h.1, h.2⟩
  finish m vs norm h :=
    ⟨congrArg (fun u : State => { emit m m u with voices := vs, norm := norm, actNotes := actMask vs }) h.1, h.2⟩

/-- A push writes `dup_x`, so what it held is gone (43_stream_bridge.md R196). -/
theorem wPush_dupX (x y : Word) (s : State) : wPush x { s with dupX := y } = wPush x s := by
  have hfull : fullW { s with dupX := y } = fullW s := rfl
  simp only [wPush, elemWrite, hfull]
  split <;> rfl

/-- While no second copy is pending, an enabled act has the same outcome whatever `dup_x` is: `W DUP`, which reads it,
is not enabled, and `W PUSH` and a reset write it. -/
theorem perform_sameButIdleDup {a : Act} (he : enabled a s = true) (hv : s.dupV = false) (x : Word) :
    sameOutcome sameButIdleDup (perform a s) (perform a { s with dupX := x }) := by
  cases a with
  | aStep => exact aStep_unread sameButIdleDup_unreadByA (sameButIdleDup_of_idle x s hv)
  | wPush =>
    simp only [perform]
    split
    · exact sameButIdleDup_of_idle x s hv
    · rename_i y rest _
      have hpush : wPush y { s with dupX := x, sampIn := rest } = wPush y { s with sampIn := rest } :=
        wPush_dupX y x { s with sampIn := rest }
      rw [hpush]
      exact sameButIdleDup_refl _
  | wDup => simp [enabled, hv] at he
  | cWrite =>
    simp only [perform]
    split
    · exact sameButIdleDup_of_idle x s hv
    · rename_i w rest _
      exact sameButIdleDup_of_idle x (cWrite w { s with cmdIn := rest }) hv
  | cRead a => exact sameButIdleDup_of_idle x (cRead a s) hv
  | syncWr => exact sameButIdleDup_of_idle x (syncWr s) hv
  | syncRd => exact sameButIdleDup_of_idle x (syncRd s) hv
  | syncCw => exact sameButIdleDup_of_idle x (syncCw s) hv
  | syncCr => exact sameButIdleDup_of_idle x (syncCr s) hv
  | syncAct => exact sameButIdleDup_of_idle x (syncAct s) hv
  | presentCmd w => exact sameButIdleDup_of_idle x { s with cmdIn := s.cmdIn ++ [w] } hv
  | presentSample y => exact sameButIdleDup_of_idle x { s with sampIn := s.sampIn ++ [y] } hv
  | sinkReady b => exact sameButIdleDup_of_idle x { s with outReady := b } hv
  | assertReset => exact sameButIdleDup_refl _
  | releaseReset d => exact setRstLine_sameButIdleDup d false x hv

/-- While no second copy is pending, every turn has the same outcome whatever `dup_x` is. -/
theorem runTurn_sameButIdleDup (hv : s.dupV = false) (x : Word) (τ : Turn) :
    sameOutcome sameButIdleDup (runTurn τ s) (runTurn τ { s with dupX := x }) := by
  cases τ with
  | act a =>
    have henabled : enabled a { s with dupX := x } = enabled a s := by cases a <;> rfl
    simp only [runTurn, runAct, henabled]
    split
    · exact perform_sameButIdleDup ‹_› hv x
    · exact sameButIdleDup_of_idle x s hv
  | assertOne d =>
    have hothers : othersInReset d { s with dupX := x } = othersInReset d s := by cases d <;> rfl
    simp only [runTurn, assertOne, hothers]
    split
    · exact setRstLine_sameButIdleDup d true x hv
    · exact rfl
  | changeConfig c =>
    simp only [runTurn, changeConfig]
    split
    · split
      · exact sameButIdleDup_refl _
      · exact rfl
    · exact rfl

/-- Settles O56: either the states are equal, or no copy is pending and every turn leaves `dup_x` unread. -/
theorem idlePendingSampleIsUnobservable : Obligations.IdlePendingSampleIsUnobservable := by
  unfold Obligations.IdlePendingSampleIsUnobservable
  intro s t h
  rcases sameButIdleDup_cases h with rfl | ⟨hv, x, rfl⟩
  · exact sameOutcome_refl sameButIdleDup_refl _
  · obtain ⟨sched, choice, htake⟩ := takeTurn_frame s
    have htake' : takeTurn { s with dupX := x } = { takeTurn s with dupX := x } := by
      unfold takeTurn
      dsimp only
      split <;> rfl
    have hturn : nextTurn { s with dupX := x } = nextTurn s := rfl
    rw [step, step, hturn, htake']
    exact runTurn_sameButIdleDup (by rw [htake]; exact hv) x (nextTurn s)

end Sys2Proof.Machine
end
